-- ==== Sys2Proof/Word.lean ====
section
/-! DEFINITION. The word types: a byte of a memory (10_state.md R30, R31), a nibble of a TLV header byte (30 R92),
a 16-bit register or big-endian wire quantity (10 R22, R23; 20 R60) and a 32-bit register (10 R21). -/

namespace Sys2Proof

/-- A byte, bit 7 the most significant (R10). -/
abbrev Byte := BitVec 8

/-- Four bits: a delta nibble or a length nibble (R16). -/
abbrev Nibble := BitVec 4

/-- A 16-bit quantity: `LEN`, `CURSOR`, the message ID, a two-byte extension. -/
abbrev Half := BitVec 16

/-- A 32-bit register as it stands on the host port (R21). -/
abbrev Word := BitVec 32

end Sys2Proof
end

