-- ==== Sys2Proof/Config.lean ====
section
/-! DEFINITION. What an implementation fixes (00_scope.md R8) and the values the spec leaves open
(10_state.md R34, 92_eei_decisions.md "Open parameters"). The `opaque` constants are the open values: nothing
about them can be proved beyond the premises the spec gives. -/

namespace Sys2Proof.Config

/-- `MAX_BUF`: capacity of `BUF` and `VAL` in bytes and the limit of the encode commands (R8, R30, R31). -/
def maxBuf : Nat := 1460

/-- `VERSION`: the protocol's fixed version value (R8). -/
def version : Nat := 1

/-- `TKL_MAX`: the largest valid token length (R8). -/
def tklMax : Nat := 8

/-- `MARKER`: the payload marker byte (R8, R96). -/
def marker : Byte := 0xFF

/-- `EXT8_BASE`: base of the one-byte extension (R8, R97). -/
def ext8Base : Nat := 13

/-- `EXT16_BASE`: base of the two-byte extension (R8, R97). -/
def ext16Base : Nat := 269

/-- `FIELD_MAX`: the largest encodable delta or length (R8). -/
def fieldMax : Nat := 65804

/-- `RESERVED_OPTS`: option numbers that the encoder and the validator reject (R8). -/
def reservedOpts : List Nat := [2, 9, 10, 128, 132, 136, 140]

/-- Membership in `CODE_SET` of the bytes other than 0x01. FREE VALUE: the spec gives no other member (R94, D7;
log 6). -/
opaque otherCode : Byte → Bool

/-- Membership in `CODE_SET`, "with the single premise `0x01 ∈ CODE_SET`" (R94). -/
def codeSet (c : Byte) : Bool := c == 0x01#8 || otherCode c

/-- FREE VALUE: whether the version encoder reports 2 (R8, D13; log 7). -/
opaque commitVerIsTwo : Bool

/-- FREE VALUE: whether the type encoder reports 2 (R8, D13; log 7). -/
opaque commitTypeIsTwo : Bool

/-- FREE VALUE: whether the token-length encoder reports 2 (R8, D13; log 7). -/
opaque commitTklIsTwo : Bool

/-- `COMMIT_VER`, in {1, 2} (R8, R145). -/
def commitVer : Word := if commitVerIsTwo then 2 else 1

/-- `COMMIT_TYPE`, in {1, 2} (R8, R145). -/
def commitType : Word := if commitTypeIsTwo then 2 else 1

/-- `COMMIT_TKL`, in {1, 2} (R8, R145). -/
def commitTkl : Word := if commitTklIsTwo then 2 else 1

/-- FREE VALUE: what offset `a` of `BUF` holds after the reset numbered `n` until it is written: "a model must
give each byte an arbitrary value (a draw), not 0" (R34; log 5). -/
opaque bufDraw : (n a : Nat) → Byte

/-- FREE VALUE: the same of `VAL` (R34; log 5). -/
opaque valDraw : (n a : Nat) → Byte

end Sys2Proof.Config
end

