-- ==== Sys2Proof/Syntax.lean ====
section
/-! DEFINITION. The syntax: one constructor per row of spec/opcode_table.json, twenty commands, the illegal opcode
and the sixteen wire-format rows, and the formats those rows belong to (30_encoding.md R90, R115, R117). -/

namespace Sys2Proof

/-- One constructor per row of the opcode table. The commands carry no operand: "Operands are not part of the
command word" (R117). The wire rows carry the fields of their bit pattern, in the order the pattern has them. -/
inductive Instr where
  -- Header Codec, reading (R130 to R135)
  | getVer
  | getType
  | getTkl
  | getCode
  | getMid
  -- Header Codec, writing (R140 to R146)
  | setVer
  | setType
  | setTkl
  | setCode
  | setMid
  | buildHdr
  -- Option TLV Decoder and Option Enumerator (R160, R182, R184)
  | decOpt
  | cntOpt
  | getOpt
  -- Option TLV Encoder (R201, R206, R210)
  | optHlen
  | optHbld
  | addOpt
  -- Payload (R231, R235)
  | getPayload
  | setPayload
  -- Packet Validator (R250)
  | validate
  /-- One of the 236 opcodes that select no operation (R282). -/
  | illegal (opcode : Byte)
  /-- `vvttkkkk`: version, type, token length (R91). -/
  | wireHdrByte0 (ver type : BitVec 2) (tkl : Nibble)
  /-- `cccccccc`: code (R94). -/
  | wireHdrByte1 (code : Byte)
  /-- `mmmmmmmmmmmmmmmm`: message ID, big-endian (R91). -/
  | wireHdrMid (mid : Half)
  /-- `11111111` where a TLV header byte is expected (R96). -/
  | wireMarker
  /-- `ddddllll`: the header byte of a TLV entry, its extension bytes standing in the buffer (R92). -/
  | wireTlv (delta length : Nibble)
  /-- `1111llll` (R104). -/
  | wireTlvReservedDelta15 (length : Nibble)
  /-- `dddd1111` (R104). -/
  | wireTlvReservedLen15 (delta : Nibble)
  -- The nine classes of a whole TLV header (R207): literal nibble, one or two extension bytes for each field.
  | wireTlvDlitLlit (d l : Nibble)
  | wireTlvDlitLext1 (d : Nibble) (lExt : Byte)
  | wireTlvDlitLext2 (d : Nibble) (lExt : Half)
  | wireTlvDext1Llit (l : Nibble) (dExt : Byte)
  | wireTlvDext1Lext1 (dExt lExt : Byte)
  | wireTlvDext1Lext2 (dExt : Byte) (lExt : Half)
  | wireTlvDext2Llit (l : Nibble) (dExt : Half)
  | wireTlvDext2Lext1 (dExt : Half) (lExt : Byte)
  | wireTlvDext2Lext2 (dExt lExt : Half)
  deriving DecidableEq, Repr

/-- Where a word stands decides how it reads: a command word is an opcode, a header byte a header byte, a byte where
a TLV header is expected an item (R65, R96, R117). The table's formats `CMD`, `WIRE_HEADER` (by its three places),
`WIRE_ITEM` and `WIRE_TLV_HEADER`. -/
inductive Format where
  | cmd
  | hdrByte0
  | hdrByte1
  | hdrMid
  | item
  | tlvHeader
  deriving DecidableEq, Repr

/-- Why a byte string is not a word of the format asked for. -/
inductive DecodeErr where
  /-- No byte to read. -/
  | noBytes
  /-- The string ends inside the word. -/
  | truncated
  /-- A TLV header was asked for and the payload marker stands there (R96). -/
  | isMarker
  /-- A TLV header was asked for and one of its nibbles is 15 (R97). -/
  | reservedNibble
  deriving DecidableEq, Repr

end Sys2Proof
end

