-- ==== Sys2Proof/WellFormed.lean ====
section
/-! DEFINITION. Which terms of the syntax are words of their row: the ranges the opcode table's "source_fields" give
(30_encoding.md R97, R101; 43_option_encoder.md R207). -/

namespace Sys2Proof

/-- The twenty opcodes of R115. -/
def commandOpcodes : List Byte :=
  [0x01, 0x02, 0x03, 0x04, 0x05, 0x11, 0x12, 0x13, 0x14, 0x15, 0x16] ++
  [0x20, 0x21, 0x22, 0x30, 0x31, 0x32, 0x40, 0x41, 0x50]

/-- A nibble that is its own value: "0–12 is the literal delta" (R97). -/
def literalNibble (n : Nibble) : Bool := n.toNat ≤ 12

/-- The word is one its row can have. An illegal opcode is none of the twenty (R282); a literal nibble is at most 12;
a `WIRE_TLV` header byte has no nibble 15; a header byte with exactly one nibble 15 is a reserved one (R101). -/
def WellFormed : Instr → Bool
  | .illegal o => !commandOpcodes.contains o
  | .wireTlv d l => d != 15 && l != 15
  | .wireTlvReservedDelta15 l => l != 15
  | .wireTlvReservedLen15 d => d != 15
  | .wireTlvDlitLlit d l => literalNibble d && literalNibble l
  | .wireTlvDlitLext1 d _ => literalNibble d
  | .wireTlvDlitLext2 d _ => literalNibble d
  | .wireTlvDext1Llit l _ => literalNibble l
  | .wireTlvDext2Llit l _ => literalNibble l
  | .getVer | .getType | .getTkl | .getCode | .getMid => true
  | .setVer | .setType | .setTkl | .setCode | .setMid | .buildHdr => true
  | .decOpt | .cntOpt | .getOpt | .optHlen | .optHbld | .addOpt => true
  | .getPayload | .setPayload | .validate => true
  | .wireHdrByte0 _ _ _ | .wireHdrByte1 _ | .wireHdrMid _ | .wireMarker => true
  | .wireTlvDext1Lext1 _ _ | .wireTlvDext1Lext2 _ _ | .wireTlvDext2Lext1 _ _ | .wireTlvDext2Lext2 _ _ => true

end Sys2Proof
end

