-- ==== Sys2Proof/Decode.lean ====
section
/-! DEFINITION. Decoding and encoding, and the bit-field helpers the machine uses too. A word is read in the format
of the place it stands in (30_encoding.md R90: "Two things are encoded"); the command word is total (R115, R282). -/

namespace Sys2Proof

/-! ### Bit fields (R10, R61) -/

/-- Bits 7:4 of a byte. -/
def hiNibble (b : Byte) : Nibble := b.extractLsb' 4 4

/-- Bits 3:0 of a byte. -/
def loNibble (b : Byte) : Nibble := b.extractLsb' 0 4

/-- Bits 7:6 of header byte 0 (R91). -/
def verField (b : Byte) : BitVec 2 := b.extractLsb' 6 2

/-- Bits 5:4 of header byte 0 (R91). -/
def typeField (b : Byte) : BitVec 2 := b.extractLsb' 4 2

/-- Bits 3:0 of header byte 0 (R91). -/
def tklField (b : Byte) : Nibble := b.extractLsb' 0 4

/-- Header byte 0, `ver(2) | type(2) | tkl(4)` (R91). -/
def hdrByte (ver type : BitVec 2) (tkl : Nibble) : Byte := ver ++ type ++ tkl

/-- A TLV header byte, `deltaNibble(4) | lengthNibble(4)` (R92). -/
def nibbles (d l : Nibble) : Byte := d ++ l

/-- Bits 15:8. -/
def hiByte (h : Half) : Byte := h.extractLsb' 8 8

/-- Bits 7:0. -/
def loByte (h : Half) : Byte := h.extractLsb' 0 8

/-- The 16-bit quantity of two bytes, big-endian (R60). -/
def halfOf (hi lo : Byte) : Half := hi ++ lo

/-- The low `8 * n` bits of `v` as `n` bytes, the most significant first (R11, R60). -/
def beBytes : (n v : Nat) → List Byte
  | 0, _ => []
  | n + 1, v => BitVec.ofNat 8 (v / 256 ^ n) :: beBytes n v

/-! ### Decoding -/

/-- The opcode map (R115); "every other value" is an illegal opcode (R282). -/
def decodeOpcode (o : Byte) : Instr :=
  match o.toNat with
  | 0x01 => .getVer
  | 0x02 => .getType
  | 0x03 => .getTkl
  | 0x04 => .getCode
  | 0x05 => .getMid
  | 0x11 => .setVer
  | 0x12 => .setType
  | 0x13 => .setTkl
  | 0x14 => .setCode
  | 0x15 => .setMid
  | 0x16 => .buildHdr
  | 0x20 => .decOpt
  | 0x21 => .cntOpt
  | 0x22 => .getOpt
  | 0x30 => .optHlen
  | 0x31 => .optHbld
  | 0x32 => .addOpt
  | 0x40 => .getPayload
  | 0x41 => .setPayload
  | 0x50 => .validate
  | _ => .illegal o

/-- The byte where a TLV header byte is expected (R104): the marker is tested before the nibbles are split. -/
def decodeItem (b : Byte) : Instr :=
  if b = Config.marker then .wireMarker
  else if hiNibble b = 15 then .wireTlvReservedDelta15 (loNibble b)
  else if loNibble b = 15 then .wireTlvReservedLen15 (hiNibble b)
  else .wireTlv (hiNibble b) (loNibble b)

/-- The extension bytes of a TLV header whose delta nibble is literal. -/
def decodeDlit (d l : Nibble) (bs : List Byte) : Except DecodeErr (Instr × List Byte) :=
  if l = 13 then
    match bs with
    | x :: rest => .ok (.wireTlvDlitLext1 d x, rest)
    | _ => .error .truncated
  else if l = 14 then
    match bs with
    | x :: y :: rest => .ok (.wireTlvDlitLext2 d (halfOf x y), rest)
    | _ => .error .truncated
  else .ok (.wireTlvDlitLlit d l, bs)

/-- The extension bytes of a TLV header whose delta nibble is 13: the delta's come first (R92). -/
def decodeDext1 (l : Nibble) (bs : List Byte) : Except DecodeErr (Instr × List Byte) :=
  if l = 13 then
    match bs with
    | d :: x :: rest => .ok (.wireTlvDext1Lext1 d x, rest)
    | _ => .error .truncated
  else if l = 14 then
    match bs with
    | d :: x :: y :: rest => .ok (.wireTlvDext1Lext2 d (halfOf x y), rest)
    | _ => .error .truncated
  else
    match bs with
    | d :: rest => .ok (.wireTlvDext1Llit l d, rest)
    | _ => .error .truncated

/-- The extension bytes of a TLV header whose delta nibble is 14. -/
def decodeDext2 (l : Nibble) (bs : List Byte) : Except DecodeErr (Instr × List Byte) :=
  if l = 13 then
    match bs with
    | d :: e :: x :: rest => .ok (.wireTlvDext2Lext1 (halfOf d e) x, rest)
    | _ => .error .truncated
  else if l = 14 then
    match bs with
    | d :: e :: x :: y :: rest => .ok (.wireTlvDext2Lext2 (halfOf d e) (halfOf x y), rest)
    | _ => .error .truncated
  else
    match bs with
    | d :: e :: rest => .ok (.wireTlvDext2Llit l (halfOf d e), rest)
    | _ => .error .truncated

/-- A whole TLV header, header byte and extension bytes (R92, R207). -/
def decodeTlvHeader : List Byte → Except DecodeErr (Instr × List Byte)
  | [] => .error .noBytes
  | b :: bs =>
    if b = Config.marker then .error .isMarker
    else if hiNibble b = 15 ∨ loNibble b = 15 then .error .reservedNibble
    else if hiNibble b = 13 then decodeDext1 (loNibble b) bs
    else if hiNibble b = 14 then decodeDext2 (loNibble b) bs
    else decodeDlit (hiNibble b) (loNibble b) bs

/-- Decode the word at the front of a byte string in a given format, with the bytes left over. -/
def decode (f : Format) (bs : List Byte) : Except DecodeErr (Instr × List Byte) :=
  match f, bs with
  | .cmd, o :: rest => .ok (decodeOpcode o, rest)
  | .hdrByte0, b :: rest => .ok (.wireHdrByte0 (verField b) (typeField b) (tklField b), rest)
  | .hdrByte1, c :: rest => .ok (.wireHdrByte1 c, rest)
  | .hdrMid, x :: y :: rest => .ok (.wireHdrMid (halfOf x y), rest)
  | .hdrMid, [_] => .error .truncated
  | .item, b :: rest => .ok (decodeItem b, rest)
  | .tlvHeader, bs => decodeTlvHeader bs
  | _, [] => .error .noBytes

/-- The command a write of `v` to `CMD` selects: "bits 7:0 `OPCODE`, bits 31:8 ignored" (R117). -/
def decodeCommand (v : Word) : Instr := decodeOpcode (v.extractLsb' 0 8)

/-! ### Encoding -/

/-- The format an instruction's word is read in. -/
def formatOf : Instr → Format
  | .getVer | .getType | .getTkl | .getCode | .getMid => .cmd
  | .setVer | .setType | .setTkl | .setCode | .setMid | .buildHdr => .cmd
  | .decOpt | .cntOpt | .getOpt | .optHlen | .optHbld | .addOpt => .cmd
  | .getPayload | .setPayload | .validate | .illegal _ => .cmd
  | .wireHdrByte0 _ _ _ => .hdrByte0
  | .wireHdrByte1 _ => .hdrByte1
  | .wireHdrMid _ => .hdrMid
  | .wireMarker | .wireTlv _ _ | .wireTlvReservedDelta15 _ | .wireTlvReservedLen15 _ => .item
  | .wireTlvDlitLlit _ _ | .wireTlvDlitLext1 _ _ | .wireTlvDlitLext2 _ _ => .tlvHeader
  | .wireTlvDext1Llit _ _ | .wireTlvDext1Lext1 _ _ | .wireTlvDext1Lext2 _ _ => .tlvHeader
  | .wireTlvDext2Llit _ _ | .wireTlvDext2Lext1 _ _ | .wireTlvDext2Lext2 _ _ => .tlvHeader

/-- The word of an instruction, lowest address first (R91, R92, R115, R207). -/
def encode : Instr → List Byte
  | .getVer => [0x01]
  | .getType => [0x02]
  | .getTkl => [0x03]
  | .getCode => [0x04]
  | .getMid => [0x05]
  | .setVer => [0x11]
  | .setType => [0x12]
  | .setTkl => [0x13]
  | .setCode => [0x14]
  | .setMid => [0x15]
  | .buildHdr => [0x16]
  | .decOpt => [0x20]
  | .cntOpt => [0x21]
  | .getOpt => [0x22]
  | .optHlen => [0x30]
  | .optHbld => [0x31]
  | .addOpt => [0x32]
  | .getPayload => [0x40]
  | .setPayload => [0x41]
  | .validate => [0x50]
  | .illegal o => [o]
  | .wireHdrByte0 v t k => [hdrByte v t k]
  | .wireHdrByte1 c => [c]
  | .wireHdrMid m => [hiByte m, loByte m]
  | .wireMarker => [0xFF]
  | .wireTlv d l => [nibbles d l]
  | .wireTlvReservedDelta15 l => [nibbles 15 l]
  | .wireTlvReservedLen15 d => [nibbles d 15]
  | .wireTlvDlitLlit d l => [nibbles d l]
  | .wireTlvDlitLext1 d x => [nibbles d 13, x]
  | .wireTlvDlitLext2 d x => [nibbles d 14, hiByte x, loByte x]
  | .wireTlvDext1Llit l e => [nibbles 13 l, e]
  | .wireTlvDext1Lext1 e x => [0xDD, e, x]
  | .wireTlvDext1Lext2 e x => [0xDE, e, hiByte x, loByte x]
  | .wireTlvDext2Llit l e => [nibbles 14 l, hiByte e, loByte e]
  | .wireTlvDext2Lext1 e x => [0xED, hiByte e, loByte e, x]
  | .wireTlvDext2Lext2 e x => [0xEE, hiByte e, loByte e, hiByte x, loByte x]

/-! ### Words of the opcode table

The table numbers a row's bits with bit 0 the last bit of its pattern, so a pattern of several bytes is laid out with
its most significant byte first, as the wire is (R11; log 13). -/

/-- An 8-bit word of the table. The command map is tried first, then the three one-byte wire rows with fixed bits, then
the illegal opcode: the table gives 8-bit rows of both encodings and no way to tell them apart (log 12). `CMD` writes
do not come this way: they are `decodeCommand`. -/
def decodeTableByte (b : Byte) : Instr :=
  match decodeOpcode b with
  | .illegal _ =>
    match decodeItem b with
    | .wireTlv _ _ => .illegal b
    | i => i
  | i => i

/-- A word of the table: one byte as above; several bytes a whole TLV header if they are one, and otherwise, two bytes,
a message ID (log 12). -/
def decodeTableBytes : List Byte → Option Instr
  | [] => none
  | [b] => some (decodeTableByte b)
  | bs =>
    match decodeTlvHeader bs with
    | .ok (i, []) => some i
    | _ =>
      match bs with
      | [x, y] => some (.wireHdrMid (halfOf x y))
      | _ => none

/-- The instruction the decoder reads from the table's word `w` of `nbits` bits. -/
def decodeTableWord (nbits w : Nat) : Option Instr :=
  if nbits % 8 = 0 then decodeTableBytes (beBytes (nbits / 8) w) else none

end Sys2Proof
end

