-- ==== Sys2Proof/Machine/State.lean ====
section
/-! DEFINITION. The state of the block as plain data (10_state.md R20), the ways a step could stop, and the state after
reset (R34, 70_reset_and_hazards.md R310). -/

namespace Sys2Proof.Machine

/-- A byte-addressed memory: (offset, byte) pairs with strictly rising offsets. An offset that is not listed has not been
written since the last reset (log 5). -/
abbrev Memory := List Host.Cell

/-- The twelve errors (60_exceptions.md R270, R271), in the order of their codes. -/
inductive Err where
  | invalidPacket
  | invalidVersion
  | invalidType
  | invalidTokenLength
  | unknownCode
  | invalidOption
  | optionsOutOfOrder
  | insufficientBuffer
  | foundPayloadMarker
  | endOfPacket
  | invalidPayload
  | illegalCommand
  deriving DecidableEq, Repr

/-- The stages of the packet validator FSM (R29, 45_validator.md R251), in the order of their codes. -/
inductive Stage where
  | vIdle
  | vVer
  | vType
  | vTkl
  | vCode
  | vPrefix
  | vCount
  | vOpt
  | vOk
  deriving DecidableEq, Repr

/-- `STATUS` (R28): `ERR` (`none` is code 0, success), `DONE`, `BUSY`. Bits 31:10 read as 0. -/
structure Status where
  err : Option Err
  done : Bool
  busy : Bool
  deriving DecidableEq, Repr

/-- `RES0` to `RES2` (R26). -/
structure Results where
  r0 : Word
  r1 : Word
  r2 : Word
  deriving DecidableEq, Repr

/-- `VSTATE` (R29): `STAGE` and `OPTIDX`. Bits 15:4 read as 0. -/
structure VState where
  stage : Stage
  optIdx : Half
  deriving DecidableEq, Repr

/-- What the outside world does to the block between commands: a write on the host port (R21, R30, R31) or the assertion
of `rst_n` (R310). Reads change nothing (R64) and are functions of a state (log 19). -/
inductive HostAction where
  /-- Write the 32-bit `value` to register number `reg`; a write of register 0, `CMD`, starts a command (R27). -/
  | writeReg (reg : Nat) (value : Word)
  /-- Write one byte through the buffer window (R30). -/
  | writeBuf (offset : Nat) (value : Byte)
  /-- Write one byte through the value window (R31). -/
  | writeVal (offset : Nat) (value : Byte)
  /-- Assert and release `rst_n` (R310, R311). -/
  | reset
  deriving DecidableEq, Repr

/-- "The whole state of the block" (R20), and two fields of the model's own: `draw`, which draw of the unspecified memory
contents is the current one (R34; log 5), and `hostIn`, the host accesses not performed yet (R318, R319; log 1). -/
structure State where
  buf : Memory
  val : Memory
  cmd : Byte
  status : Status
  len : Half
  cursor : Half
  optnum : Word
  arg0 : Word
  arg1 : Word
  arg2 : Word
  arg3 : Word
  arg4 : Word
  res : Results
  vstate : VState
  draw : Nat
  hostIn : List HostAction
  deriving DecidableEq, Repr

/-- Why the machine could stop: there is no reason. "There is no third outcome: no hang, no partial result, no undefined
behaviour" (00_scope.md R18, 60_exceptions.md R292). The twelve errors are results in `STATUS`, not stops. -/
inductive Fault where
  deriving DecidableEq, Repr

/-- Why an instruction could have no meaning. -/
inductive Refusal where
  /-- An arm of `exec` without a meaning; safe, and raised by none: every row of the table has its meaning. -/
  | notModelled (mnemonic : String)
  deriving DecidableEq, Repr

/-- The state after reset (R34): every register 0, both memories unspecified (nothing listed, so every byte is a draw), no
command started. `draw` 0 and an empty `hostIn` are the model's choice (logs 1, 5). -/
def State.reset : State where
  buf := []
  val := []
  cmd := 0
  status := ⟨none, false, false⟩
  len := 0
  cursor := 0
  optnum := 0
  arg0 := 0
  arg1 := 0
  arg2 := 0
  arg3 := 0
  arg4 := 0
  res := ⟨0, 0, 0⟩
  vstate := ⟨.vIdle, 0⟩
  draw := 0
  hostIn := []

end Sys2Proof.Machine
end

