-- ==== Sys2Proof/Machine/Flags.lean ====
section
/-! DEFINITION. The only flags the block has, `STATUS` and `VSTATE`, as the host reads them (10_state.md R28, R29), and
how the start and the end of a command write them (R28, 60_exceptions.md R285, R288). -/

namespace Sys2Proof.Machine

/-- The numeric error codes (60_exceptions.md R271). -/
def Err.code : Err → Nat
  | .invalidPacket => 1
  | .invalidVersion => 2
  | .invalidType => 3
  | .invalidTokenLength => 4
  | .unknownCode => 5
  | .invalidOption => 6
  | .optionsOutOfOrder => 7
  | .insufficientBuffer => 8
  | .foundPayloadMarker => 9
  | .endOfPacket => 10
  | .invalidPayload => 11
  | .illegalCommand => 12

/-- `STATUS.ERR`: 0 is success (R28, R271). -/
def errCode : Option Err → Nat
  | none => 0
  | some e => e.code

/-- `STATUS` as a word: `ERR` in bits 7:0, `DONE` bit 8, `BUSY` bit 9, the rest 0 (R28). -/
def Status.word (t : Status) : Word :=
  BitVec.ofNat 32 (errCode t.err + (if t.done then 0x100 else 0) + (if t.busy then 0x200 else 0))

/-- The stage codes (R29, R251). -/
def Stage.code : Stage → Nat
  | .vIdle => 0
  | .vVer => 1
  | .vType => 2
  | .vTkl => 3
  | .vCode => 4
  | .vPrefix => 5
  | .vCount => 6
  | .vOpt => 7
  | .vOk => 8

/-- `VSTATE` as a word: `STAGE` in bits 3:0, `OPTIDX` in bits 31:16 (R29). -/
def VState.word (v : VState) : Word :=
  BitVec.ofNat 32 (v.stage.code + v.optIdx.toNat * 65536)

/-- `STATUS` when a command starts: `ERR` and `DONE` cleared, `BUSY` set (R28, R288). -/
def Status.started : Status := ⟨none, false, true⟩

/-- `STATUS` when a command completes with an outcome: `DONE` set, `BUSY` cleared (R28, R285). -/
def Status.ended (e : Option Err) : Status := ⟨e, true, false⟩

end Sys2Proof.Machine
end

