-- ==== Sys2Proof/Machine/Ops.lean ====
section
/-! DEFINITION. The named operations over memory and registers that every command uses: reading and writing a byte
(10_state.md R30, R31), the starting and the two endings of a command (R28, R26, 60_exceptions.md R285), and the host's view of
the registers (R21). -/

namespace Sys2Proof.Machine

/-! ### Memory -/

/-- What a memory lists at an offset; `none` is what an offset never written reads as (log 5). -/
def Memory.lookup : Memory → Nat → Option Byte
  | [], _ => none
  | (k, b) :: m, a => if k = a then some b else Memory.lookup m a

/-- Write one byte, keeping the offsets strictly rising. -/
def Memory.store : Memory → Nat → Byte → Memory
  | [], a, b => [(a, b)]
  | (k, c) :: m, a, b =>
    if a < k then (a, b) :: (k, c) :: m
    else if a = k then (a, b) :: m
    else (k, c) :: Memory.store m a b

/-- The offsets listed are at least `lo`, strictly rising and below `MAX_BUF`. -/
def Memory.wfFrom : Nat → Memory → Bool
  | _, [] => true
  | lo, (a, _) :: m => decide (lo ≤ a) && decide (a < Config.maxBuf) && Memory.wfFrom (a + 1) m

/-- The canonical form of a memory (log 5). -/
def Memory.wf (m : Memory) : Bool := Memory.wfFrom 0 m

/-- `BUF[a]`. An offset at or above `MAX_BUF` reads 0 (R30); one not written since reset reads its free draw (R34). -/
def State.bufByte (s : State) (a : Nat) : Byte :=
  if a < Config.maxBuf then (s.buf.lookup a).getD (Config.bufDraw s.draw a) else 0

/-- `VAL[a]`, the same (R31, R34). -/
def State.valByte (s : State) (a : Nat) : Byte :=
  if a < Config.maxBuf then (s.val.lookup a).getD (Config.valDraw s.draw a) else 0

/-- `BUF[a] <- b`. A write at or above `MAX_BUF` writes nothing (R30); no command makes one (R66). -/
def writeBuf (a : Nat) (b : Byte) (s : State) : State :=
  if a < Config.maxBuf then { s with buf := s.buf.store a b } else s

/-- `VAL[a] <- b`, by the host only (R31). -/
def writeVal (a : Nat) (b : Byte) (s : State) : State :=
  if a < Config.maxBuf then { s with val := s.val.store a b } else s

/-- `BUF[a + k] <- bs[k]` for every byte of `bs`, in order. -/
def writeBufBytes : Nat → List Byte → State → State
  | _, [], s => s
  | a, b :: bs, s => writeBufBytes (a + 1) bs (writeBuf a b s)

/-- `MemRead(a, n)`: the big-endian value of `BUF[a .. a+n-1]` (R12, R60). -/
def memRead (s : State) (a : Nat) : Nat → Nat
  | 0 => 0
  | n + 1 => memRead s a n * 256 + (s.bufByte (a + n)).toNat

/-- `MemWrite(a, n, v)`: the low `8n` bits of `v`, big-endian, into `BUF[a .. a+n-1]` (R12, R60). -/
def memWrite (a n v : Nat) (s : State) : State := writeBufBytes a (beBytes n v) s

/-- `VAL[0 .. n-1]` as a byte string. -/
def valBytes (s : State) (n : Nat) : List Byte := (List.range n).map s.valByte

/-! ### The start and the end of a command -/

/-- A host write to `CMD` stores the opcode and starts the command: `ERR` and `DONE` are cleared, `BUSY` is set (R27, R28,
R288). -/
def startCommand (opcode : Byte) (s : State) : State :=
  { s with cmd := opcode, status := Status.started }

/-- A command succeeds: "on success the values its rule names and 0 into the result registers it does not name" (R26). -/
def complete (r : Results) (s : State) : State :=
  { s with status := Status.ended none, res := r }

/-- A command fails with `RES0` as given: the one exception `GET_CODE` with `UnknownCode` has (R134, R285). -/
def raiseWith (e : Err) (r0 : Word) (s : State) : State :=
  { s with status := Status.ended (some e), res := ⟨r0, 0, 0⟩ }

/-- `raise E`, this block's taking of an exception (R285): `ERR <- code(E)`, `DONE <- 1`, `BUSY <- 0`, `RES0..2 <- 0`, and
"nothing else is written". There is no return from it: "There is no return instruction and nothing to restore" (R288). -/
def raise (e : Err) (s : State) : State := raiseWith e 0 s

/-- End a command with its outcome. -/
def finish (o : Except Err Results) (s : State) : State :=
  match o with
  | .ok r => complete r s
  | .error e => raise e s

/-- Continue with `k` if the command that gave `t` succeeded: a composite operation surfaces "the first sub-operation's
error unchanged" (R286). -/
def ifSucceeded (t : State) (k : State → State) : State :=
  if t.status.err = none then k t else t

/-- `VSTATE` while `VALIDATE` is in a stage (R29). -/
def enterStage (st : Stage) (idx : Nat) (s : State) : State :=
  { s with vstate := ⟨st, BitVec.ofNat 16 idx⟩ }

/-! ### The host's view of the registers (R21) -/

/-- What a host read of register `n` returns: zero-extended to 32 bits; a register that does not exist reads 0 (R21). -/
def hostReadReg (s : State) (n : Nat) : Word :=
  match n with
  | 0 => s.cmd.zeroExtend 32
  | 1 => s.status.word
  | 2 => s.len.zeroExtend 32
  | 3 => s.cursor.zeroExtend 32
  | 4 => s.optnum
  | 5 => s.arg0
  | 6 => s.arg1
  | 7 => s.arg2
  | 8 => s.arg3
  | 9 => s.arg4
  | 10 => s.res.r0
  | 11 => s.res.r1
  | 12 => s.res.r2
  | 13 => s.vstate.word
  | _ => 0

/-- A host read of the buffer window (R30). -/
def hostReadBuf (s : State) (a : Nat) : Byte := s.bufByte a

/-- A host read of the value window (R31). -/
def hostReadVal (s : State) (a : Nat) : Byte := s.valByte a

/-- The output `done` (R37). -/
def doneOut (s : State) : Bool := s.status.done

/-- A host write of register `n`, `CMD` apart: bits above the register's width are ignored, registers that do not exist
ignore the write (R21), and so do the read-only ones (log 9). -/
def writeReg (n : Nat) (v : Word) (s : State) : State :=
  match n with
  | 2 => { s with len := v.extractLsb' 0 16 }
  | 3 => { s with cursor := v.extractLsb' 0 16 }
  | 4 => { s with optnum := v }
  | 5 => { s with arg0 := v }
  | 6 => { s with arg1 := v }
  | 7 => { s with arg2 := v }
  | 8 => { s with arg3 := v }
  | 9 => { s with arg4 := v }
  | _ => s

/-- Assertion of `rst_n` (R310, R311): every register takes its reset value, a command in flight is abandoned, and both
memories become unspecified, which is a new draw (log 4). The accesses still to come stay. -/
def resetPin (s : State) : State :=
  { State.reset with draw := s.draw + 1, hostIn := s.hostIn }

end Sys2Proof.Machine
end

