-- ==== Sys2Proof/Machine/Operands.lean ====
section
/-! DEFINITION. The operand forms and the shared procedures: the length check (40 R133), the prefix check (30 R100), the
nibble and extension rule (R97), the decoding of one wire item (R104), the walk over the option chain (42 R180), the fetch of one
option by index (R184), and the encoder functions (30 R108, 43 R200). -/

namespace Sys2Proof.Machine

/-- The 16-bit operand of the message ID: `ARG[15:0]`, "the upper 16 bits are ignored" (10_state.md R25). -/
def midOperand (v : Word) : Half := v.extractLsb' 0 16

/-- A natural as a result register holds it. -/
def toWord (n : Nat) : Word := BitVec.ofNat 32 n

/-- `RESERVED_OPTS` membership (00 R8). -/
def isReserved (n : Nat) : Bool := Config.reservedOpts.contains n

/-! ### Length and prefix -/

/-- `HdrCheck()` (R133). -/
def hdrCheck (s : State) : Except Err Unit :=
  if s.len.toNat > Config.maxBuf then .error .insufficientBuffer
  else if s.len.toNat < 4 then .error .invalidPacket
  else .ok ()

/-- `Prefix()` (R100): the offset of the first byte after the token. -/
def prefixEnd (s : State) : Except Err Nat :=
  if s.len.toNat > Config.maxBuf then .error .insufficientBuffer
  else if s.len.toNat < 4 then .error .invalidPacket
  else if (tklField (s.bufByte 0)).toNat > Config.tklMax then .error .invalidTokenLength
  else if 4 + (tklField (s.bufByte 0)).toNat > s.len.toNat then .error .invalidPacket
  else .ok (4 + (tklField (s.bufByte 0)).toNat)

/-! ### One wire item -/

/-- A decoded TLV entry: what `Tlv(pos)` returns (R104). -/
structure TlvItem where
  delta : Nat
  length : Nat
  valOff : Nat
  next : Nat
  deriving DecidableEq, Repr

/-- The nibble and extension rule (R97) with the bounds checks of R104: nibble `n`, extension bytes from offset `q`. Answers
the resolved value and the offset of the first byte not yet consumed. The two tiers are independent branches (C9). -/
def resolveNibble (s : State) (n : Nibble) (q : Nat) : Except Err (Nat × Nat) :=
  if n = 15 then .error .invalidPacket
  else if n = 13 then
    if q + 1 > s.len.toNat then .error .invalidPacket
    else .ok (memRead s q 1 + Config.ext8Base, q + 1)
  else if n = 14 then
    if q + 2 > s.len.toNat then .error .invalidPacket
    else .ok (memRead s q 2 + Config.ext16Base, q + 2)
  else .ok (n.toNat, q)

/-- `Tlv` after the header byte: both nibbles, the length's extension after the delta's, then the extent of the value
(R104). -/
def tlvBody (s : State) (dn ln : Nibble) (q : Nat) : Except Err TlvItem :=
  match resolveNibble s dn q with
  | .error e => .error e
  | .ok (delta, q1) =>
    match resolveNibble s ln q1 with
    | .error e => .error e
    | .ok (length, q2) =>
      if q2 + length > s.len.toNat then .error .invalidPacket
      else .ok ⟨delta, length, q2, q2 + length⟩

/-- `Tlv(pos)`: the one wire item at offset `pos` (R104). The marker is tested before the nibbles are split (C3). -/
def tlv (s : State) (pos : Nat) : Except Err TlvItem :=
  if pos > s.len.toNat then .error .invalidPacket
  else if pos = s.len.toNat then .error .endOfPacket
  else if s.bufByte pos = Config.marker then .error .foundPayloadMarker
  else tlvBody s (hiNibble (s.bufByte pos)) (loNibble (s.bufByte pos)) (pos + 1)

/-! ### The walk -/

/-- Why a walk stopped (R180). -/
inductive Stop where
  /-- At the end of the message. -/
  | atEnd
  /-- At the payload marker. -/
  | atMarker
  deriving DecidableEq, Repr

/-- What `Walk()` returns (R180). -/
structure WalkResult where
  count : Nat
  endPos : Nat
  lastNum : Nat
  stop : Stop
  deriving DecidableEq, Repr

/-- The loop of `Walk()` (R180). Every round moves on by at least one byte and none starts past `LEN`, so `LEN + 1` rounds
are enough and the fuel never runs out (log 16). -/
def walkFrom (s : State) : (fuel pos num cnt : Nat) → Except Err WalkResult
  | 0, _, _, _ => .error .invalidPacket
  | fuel + 1, pos, num, cnt =>
    match tlv s pos with
    | .error .endOfPacket => .ok ⟨cnt, pos, num, .atEnd⟩
    | .error .foundPayloadMarker => .ok ⟨cnt, pos, num, .atMarker⟩
    | .error e => .error e
    | .ok it => walkFrom s fuel it.next (num + it.delta) (cnt + 1)

/-- `Walk()` (R180). -/
def walk (s : State) : Except Err WalkResult :=
  match prefixEnd s with
  | .error e => .error e
  | .ok p => walkFrom s (s.len.toNat + 1) p 0 0

/-- An option as `GET_OPT` returns it (R184). -/
structure OptView where
  number : Nat
  valOff : Nat
  length : Nat
  deriving DecidableEq, Repr

/-- The loop of `GET_OPT` (R184): `k` more options to pass before the one asked for. The fuel is as in `walkFrom`. -/
def optFrom (s : State) : (fuel pos num k : Nat) → Except Err OptView
  | 0, _, _, _ => .error .endOfPacket
  | fuel + 1, pos, num, k =>
    match tlv s pos with
    | .error e => .error e
    | .ok it =>
      if k = 0 then .ok ⟨num + it.delta, it.valOff, it.length⟩
      else optFrom s fuel it.next (num + it.delta) (k - 1)

/-- The option with index `k` (R184). -/
def optAt (s : State) (k : Nat) : Except Err OptView :=
  match prefixEnd s with
  | .error e => .error e
  | .ok p => optFrom s (s.len.toNat + 1) p 0 k

/-! ### Encoder functions (R108, R200) -/

/-- `ext(v)`, the number of extension bytes, for `v` up to 65804. -/
def extLen (v : Nat) : Nat := if v ≤ 12 then 0 else if v ≤ 268 then 1 else 2

/-- `nib(v)`. -/
def nibbleOf (v : Nat) : Nibble := if v ≤ 12 then BitVec.ofNat 4 v else if v ≤ 268 then 13 else 14

/-- `extbytes(v)`. -/
def extBytes (v : Nat) : List Byte :=
  if v ≤ 12 then [] else if v ≤ 268 then beBytes 1 (v - Config.ext8Base) else beBytes 2 (v - Config.ext16Base)

/-- The header bytes of an option: `[nib(d)*16 + nib(l)] ++ extbytes(d) ++ extbytes(l)` (R206, R207). -/
def optHeader (d l : Nat) : List Byte := nibbles (nibbleOf d) (nibbleOf l) :: (extBytes d ++ extBytes l)

/-- The header length: `1 + ext(d) + ext(l)` (R200, R203). -/
def headerLen (d l : Nat) : Nat := 1 + extLen d + extLen l

/-- `OptCheck(num, vlen, prev)` (R200): the order first, then the reserved numbers, then the ranges (D22). The difference is
mathematical: `num < prev` is a negative one. Answers the delta. -/
def optCheck (num vlen prev : Nat) : Except Err Nat :=
  if num < prev then .error .optionsOutOfOrder
  else if isReserved num then .error .invalidOption
  else if num - prev > Config.fieldMax then .error .invalidOption
  else if vlen > Config.fieldMax then .error .invalidOption
  else .ok (num - prev)

end Sys2Proof.Machine
end

