-- ==== Sys2Proof/Machine/Enumerator.lean ====
section
/-! DEFINITION. The option enumerator commands `CNT_OPT` and `GET_OPT` (42_option_enumerator.md R180 to R187). -/

namespace Sys2Proof.Machine

/-- The results of `CNT_OPT` (R182). -/
def countResults (s : State) : Except Err Results :=
  match walk s with
  | .error e => .error e
  | .ok w => .ok ⟨toWord w.count, 0, 0⟩

/-- `CNT_OPT` (R182). -/
def execCntOpt (s : State) : Host.Outcome State Fault Refusal := .next (finish (countResults s) s)

/-- The results of `GET_OPT` (R184). -/
def optResults (s : State) : Except Err Results :=
  match optAt s s.arg0.toNat with
  | .error e => .error e
  | .ok v => .ok ⟨toWord v.number, toWord v.valOff, toWord v.length⟩

/-- `GET_OPT` (R184). -/
def execGetOpt (s : State) : Host.Outcome State Fault Refusal := .next (finish (optResults s) s)

end Sys2Proof.Machine
end

