-- ==== Sys2Proof/Machine/HeaderCodec.lean ====
section
/-! DEFINITION. The header codec commands (40_header_codec.md R130 to R148). The decoding half of each reading command is a
function of the header bytes, so that the header rows of the wire format share it (Wire.lean). -/

namespace Sys2Proof.Machine

/-! ### Decoding a header field that stands in given bytes -/

/-- A header decode command whose field decodes to `o`: `HdrCheck()` first (R133). -/
def headerDecode (o : Except Err Results) (s : State) : State :=
  match hdrCheck s with
  | .error e => raise e s
  | .ok _ => finish o s

/-- The version of header byte 0 (R130). -/
def versionOf (b : Byte) : Except Err Results :=
  if (verField b).toNat = Config.version then .ok ⟨(verField b).zeroExtend 32, 0, 0⟩ else .error .invalidVersion

/-- The type of header byte 0: a 2-bit field, so it cannot fail (R131, C5). -/
def typeOf (b : Byte) : Except Err Results := .ok ⟨(typeField b).zeroExtend 32, 0, 0⟩

/-- The token length of header byte 0 (R132). -/
def tokenLengthOf (b : Byte) : Except Err Results :=
  if (tklField b).toNat > Config.tklMax then .error .invalidTokenLength else .ok ⟨(tklField b).zeroExtend 32, 0, 0⟩

/-- `GET_CODE` on a code byte: an unknown one is still returned in `RES0`, "distinct from a length error" (R134). -/
def decodeCodeByte (c : Byte) (s : State) : State :=
  match hdrCheck s with
  | .error e => raise e s
  | .ok _ => if Config.codeSet c then complete ⟨c.zeroExtend 32, 0, 0⟩ s else raiseWith .unknownCode (c.zeroExtend 32) s

/-- `GET_VER` (R130). -/
def execGetVer (s : State) : Host.Outcome State Fault Refusal := .next (headerDecode (versionOf (s.bufByte 0)) s)

/-- `GET_TYPE` (R131). -/
def execGetType (s : State) : Host.Outcome State Fault Refusal := .next (headerDecode (typeOf (s.bufByte 0)) s)

/-- `GET_TKL` (R132). -/
def execGetTkl (s : State) : Host.Outcome State Fault Refusal := .next (headerDecode (tokenLengthOf (s.bufByte 0)) s)

/-- `GET_CODE` (R134). -/
def execGetCode (s : State) : Host.Outcome State Fault Refusal := .next (decodeCodeByte (s.bufByte 1) s)

/-- `GET_MID` (R135). -/
def execGetMid (s : State) : Host.Outcome State Fault Refusal := .next (headerDecode (.ok ⟨toWord (memRead s 2 2), 0, 0⟩) s)

/-! ### Encoding (R145: `LEN` is neither read nor written, byte 0 is written by read-modify-write) -/

/-- `CODE_SET` membership of a 32-bit operand (R143). -/
def isCode (v : Word) : Bool := decide (v.toNat ≤ 255) && Config.codeSet (v.extractLsb' 0 8)

/-- `SET_VER` (R140). -/
def execSetVer (s : State) : Host.Outcome State Fault Refusal :=
  if s.arg0.toNat ≠ Config.version then .next (raise .invalidVersion s)
  else .next (complete ⟨Config.commitVer, 0, 0⟩
    (writeBuf 0 (hdrByte 1 (typeField (s.bufByte 0)) (tklField (s.bufByte 0))) s))

/-- `SET_TYPE` (R141). -/
def execSetType (s : State) : Host.Outcome State Fault Refusal :=
  if s.arg0.toNat > 3 then .next (raise .invalidType s)
  else .next (complete ⟨Config.commitType, 0, 0⟩
    (writeBuf 0 (hdrByte (verField (s.bufByte 0)) (s.arg0.extractLsb' 0 2) (tklField (s.bufByte 0))) s))

/-- `SET_TKL` (R142). -/
def execSetTkl (s : State) : Host.Outcome State Fault Refusal :=
  if s.arg0.toNat > Config.tklMax then .next (raise .invalidTokenLength s)
  else .next (complete ⟨Config.commitTkl, 0, 0⟩
    (writeBuf 0 (hdrByte (verField (s.bufByte 0)) (typeField (s.bufByte 0)) (s.arg0.extractLsb' 0 4)) s))

/-- `SET_CODE` (R143). -/
def execSetCode (s : State) : Host.Outcome State Fault Refusal :=
  if isCode s.arg0 then .next (complete ⟨2, 0, 0⟩ (writeBuf 1 (s.arg0.extractLsb' 0 8) s))
  else .next (raise .unknownCode s)

/-- `SET_MID` (R144): it cannot fail. -/
def execSetMid (s : State) : Host.Outcome State Fault Refusal :=
  .next (complete ⟨4, 0, 0⟩ (memWrite 2 2 (midOperand s.arg0).toNat s))

/-- The four header bytes `HDR(ver, type, tkl, code, mid)` (30 R91, R120). -/
def headerBytes (ver type : BitVec 2) (tkl : Nibble) (code : Byte) (mid : Half) : List Byte :=
  [hdrByte ver type tkl, code, hiByte mid, loByte mid]

/-- `BUILD_HDR` (R146): all checks in the documented order before any byte is written. -/
def execBuildHdr (s : State) : Host.Outcome State Fault Refusal :=
  if s.arg0.toNat ≠ Config.version then .next (raise .invalidVersion s)
  else if s.arg1.toNat > 3 then .next (raise .invalidType s)
  else if s.arg2.toNat > Config.tklMax then .next (raise .invalidTokenLength s)
  else if !isCode s.arg3 then .next (raise .unknownCode s)
  else .next (complete ⟨4, 0, 0⟩ (writeBufBytes 0
    (headerBytes 1 (s.arg1.extractLsb' 0 2) (s.arg2.extractLsb' 0 4) (s.arg3.extractLsb' 0 8) (midOperand s.arg4)) s))

end Sys2Proof.Machine
end

