-- ==== Sys2Proof/Machine/Illegal.lean ====
section
/-! DEFINITION. The opcodes that select no operation (60_exceptions.md R282). -/

namespace Sys2Proof.Machine

/-- An illegal opcode "completes at once with `ERR` = `IllegalCommand`, `RES0..2` = 0 and no other change" (30 R115). -/
def execIllegal (_opcode : Byte) (s : State) : Host.Outcome State Fault Refusal := .next (raise .illegalCommand s)

end Sys2Proof.Machine
end

