-- ==== Sys2Proof/Machine/OptionDecoder.lean ====
section
/-! DEFINITION. The option TLV decoder command `DEC_OPT` (41_option_decoder.md R160 to R168). -/

namespace Sys2Proof.Machine

/-- A successful `DEC_OPT`: the running option number takes the delta modulo 2^32, the cursor moves to the next item, and the
results are length, value offset and the new option number (R160, R163, R165). -/
def advanceItem (it : TlvItem) (s : State) : State :=
  complete ⟨toWord it.length, toWord it.valOff, s.optnum + toWord it.delta⟩
    { s with cursor := BitVec.ofNat 16 it.next, optnum := s.optnum + toWord it.delta }

/-- End `DEC_OPT` with the outcome of decoding the item. -/
def finishItem (o : Except Err TlvItem) (s : State) : State :=
  match o with
  | .ok it => advanceItem it s
  | .error e => raise e s

/-- `DEC_OPT` (R160). -/
def execDecOpt (s : State) : Host.Outcome State Fault Refusal :=
  if s.len.toNat > Config.maxBuf then .next (raise .insufficientBuffer s)
  else .next (finishItem (tlv s s.cursor.toNat) s)

end Sys2Proof.Machine
end

