-- ==== Sys2Proof/Machine/OptionEncoder.lean ====
section
/-! DEFINITION. The option TLV encoder commands `OPT_HLEN`, `OPT_HBLD` and `ADD_OPT` (43_option_encoder.md R200 to R215), and
the appending of bytes that `ADD_OPT` and `SET_PAYLOAD` end with. -/

namespace Sys2Proof.Machine

/-- Append bytes at `LEN`, move `LEN` past them and report the new length (R210, R235). -/
def appendBytes (bs : List Byte) (s : State) : State :=
  complete ⟨toWord (s.len.toNat + bs.length), 0, 0⟩
    { writeBufBytes s.len.toNat bs s with len := BitVec.ofNat 16 (s.len.toNat + bs.length) }

/-- End an appending command: append the bytes or raise the error. -/
def finishAppend (o : Except Err (List Byte)) (s : State) : State :=
  match o with
  | .ok bs => appendBytes bs s
  | .error e => raise e s

/-- The results of `OPT_HLEN` (R201). -/
def headerLenResults (s : State) : Except Err Results :=
  match optCheck s.arg0.toNat s.arg1.toNat s.arg2.toNat with
  | .error e => .error e
  | .ok d => .ok ⟨toWord (headerLen d s.arg1.toNat), 0, 0⟩

/-- `OPT_HLEN` (R201): reads no memory. -/
def execOptHlen (s : State) : Host.Outcome State Fault Refusal := .next (finish (headerLenResults s) s)

/-- The header `OPT_HBLD` writes, after its checks (R206). -/
def headerToBuild (s : State) : Except Err (List Byte) :=
  match optCheck s.arg0.toNat s.arg1.toNat s.arg2.toNat with
  | .error e => .error e
  | .ok d =>
    if s.arg3.toNat ≠ headerLen d s.arg1.toNat then .error .invalidPacket
    else if s.cursor.toNat + headerLen d s.arg1.toNat > Config.maxBuf then .error .insufficientBuffer
    else .ok (optHeader d s.arg1.toNat)

/-- Write a header at `CURSOR` and move `CURSOR` past it (R206). -/
def writeAtCursor (bs : List Byte) (s : State) : State :=
  complete ⟨toWord bs.length, 0, 0⟩
    { writeBufBytes s.cursor.toNat bs s with cursor := BitVec.ofNat 16 (s.cursor.toNat + bs.length) }

/-- `OPT_HBLD` (R206). -/
def execOptHbld (s : State) : Host.Outcome State Fault Refusal :=
  match headerToBuild s with
  | .error e => .next (raise e s)
  | .ok bs => .next (writeAtCursor bs s)

/-- The bytes `ADD_OPT` appends, after its checks in the order of the ten rows of R212. -/
def optionToAdd (s : State) : Except Err (List Byte) :=
  match walk s with
  | .error e => .error e
  | .ok w =>
    match optCheck s.arg0.toNat s.arg1.toNat w.lastNum with
    | .error e => .error e
    | .ok d =>
      if w.endPos + headerLen d s.arg1.toNat + s.arg1.toNat > Config.maxBuf then .error .insufficientBuffer
      else if w.endPos ≠ s.len.toNat then .error .invalidPacket
      else .ok (optHeader d s.arg1.toNat ++ valBytes s s.arg1.toNat)

/-- `ADD_OPT` (R210). -/
def execAddOpt (s : State) : Host.Outcome State Fault Refusal := .next (finishAppend (optionToAdd s) s)

end Sys2Proof.Machine
end

