-- ==== Sys2Proof/Machine/Payload.lean ====
section
/-! DEFINITION. The payload commands `GET_PAYLOAD` and `SET_PAYLOAD` (44_payload.md R231 to R237). -/

namespace Sys2Proof.Machine

/-- The results of `GET_PAYLOAD` (R231): one uniform test for the count, then the view after the marker, or a view of no bytes
at `LEN`. -/
def payloadResults (s : State) : Except Err Results :=
  match walk s with
  | .error e => .error e
  | .ok w =>
    if w.count ≠ s.arg0.toNat then .error .invalidPacket
    else
      match w.stop with
      | .atEnd => .ok ⟨0, toWord s.len.toNat, 0⟩
      | .atMarker => .ok ⟨toWord (s.len.toNat - w.endPos - 1), toWord (w.endPos + 1), 0⟩

/-- `GET_PAYLOAD` (R231). -/
def execGetPayload (s : State) : Host.Outcome State Fault Refusal := .next (finish (payloadResults s) s)

/-- The bytes `SET_PAYLOAD` appends, after its checks in order (R235, R236). -/
def payloadToSet (s : State) : Except Err (List Byte) :=
  if s.arg0.toNat = 0 then .error .invalidPayload
  else
    match walk s with
    | .error e => .error e
    | .ok w =>
      if w.stop = .atMarker then .error .invalidPacket
      else if s.len.toNat + 1 + s.arg0.toNat > Config.maxBuf then .error .insufficientBuffer
      else .ok (Config.marker :: valBytes s s.arg0.toNat)

/-- `SET_PAYLOAD` (R235). -/
def execSetPayload (s : State) : Host.Outcome State Fault Refusal := .next (finishAppend (payloadToSet s) s)

end Sys2Proof.Machine
end

