-- ==== Sys2Proof/Machine/Validator.lean ====
section
/-! DEFINITION. The packet validator command and its FSM (45_validator.md R250 to R256). -/

namespace Sys2Proof.Machine

/-- Where the FSM ends (R251): in `V_OK` with the option count, or stopped with an error in a stage, at an option index in
`V_OPT`. -/
inductive Verdict where
  | accept (count : Nat)
  | stop (e : Err) (stage : Stage) (idx : Nat)
  deriving DecidableEq, Repr

/-- Stage `V_OPT` from option `i` on, `todo` options to go, of `n` (R250): re-decode as `GET_OPT i`, then the reserved test. -/
def stageOpt (s : State) (n : Nat) : (todo i : Nat) → Verdict
  | 0, _ => .accept n
  | todo + 1, i =>
    match optAt s i with
    | .error e => .stop e .vOpt i
    | .ok v => if isReserved v.number then .stop .invalidOption .vOpt i else stageOpt s n todo (i + 1)

/-- Stage `V_COUNT` (R250). -/
def stageCount (s : State) : Verdict :=
  match walk s with
  | .error e => .stop e .vCount 0
  | .ok w => stageOpt s w.count w.count 0

/-- Stage `V_PREFIX` (R250): exactly the prefix is a valid message without options and payload. -/
def stagePrefix (s : State) : Verdict :=
  if s.len.toNat = 4 + (tklField (s.bufByte 0)).toNat then .accept 0
  else if s.len.toNat < 4 + (tklField (s.bufByte 0)).toNat then .stop .invalidPacket .vPrefix 0
  else stageCount s

/-- Stage `V_CODE` (R250): `BUF[1]` itself against `CODE_SET` (C10). -/
def stageCode (s : State) : Verdict :=
  if Config.codeSet (s.bufByte 1) then stagePrefix s else .stop .unknownCode .vCode 0

/-- Stage `V_TKL` (R250). -/
def stageTkl (s : State) : Verdict :=
  if (tklField (s.bufByte 0)).toNat > Config.tklMax then .stop .invalidTokenLength .vTkl 0 else stageCode s

/-- Stage `V_TYPE` (R250): a 2-bit field, it cannot fail (C5). -/
def stageType (s : State) : Verdict := stageTkl s

/-- Stage `V_VER` (R250): the length check, then the version. -/
def stageVer (s : State) : Verdict :=
  match hdrCheck s with
  | .error e => .stop e .vVer 0
  | .ok _ => if (verField (s.bufByte 0)).toNat = Config.version then stageType s else .stop .invalidVersion .vVer 0

/-- `VALIDATE` (R250): restarts at `V_VER` (R251); ends in `V_OK` with `OPTIDX` 0 (C13), or with the failing stage kept. -/
def execValidate (s : State) : Host.Outcome State Fault Refusal :=
  match stageVer s with
  | .accept n => .next (complete ⟨toWord n, 0, 0⟩ (enterStage .vOk 0 s))
  | .stop e st i => .next (raise e (enterStage st i s))

end Sys2Proof.Machine
end

