-- ==== Sys2Proof/Machine/Wire.lean ====
section
/-! DEFINITION. The wire-format rows of the opcode table. A TLV entry or the marker is the item at `CURSOR`, "the option
chain as the program and each TLV entry as one variable-length instruction" (10_state.md R23), and its meaning is what `DEC_OPT`
does when it stands there (log 10). A header item's meaning is what the header decode commands do when it stands at its
place (log 11). -/

namespace Sys2Proof.Machine

/-! ### Header items -/

/-- Header byte 0 (R91): the commands that read it, `GET_VER`, `GET_TYPE`, `GET_TKL`, in the documented order, the first error
ending it (R119, R286). -/
def execWireHdrByte0 (ver type : BitVec 2) (tkl : Nibble) (s : State) : Host.Outcome State Fault Refusal :=
  .next
    (ifSucceeded (headerDecode (versionOf (hdrByte ver type tkl)) s) fun s1 =>
      ifSucceeded (headerDecode (typeOf (hdrByte ver type tkl)) s1) fun s2 =>
        headerDecode (tokenLengthOf (hdrByte ver type tkl)) s2)

/-- Header byte 1 (R94) under `GET_CODE` (R134). -/
def execWireHdrByte1 (code : Byte) (s : State) : Host.Outcome State Fault Refusal := .next (decodeCodeByte code s)

/-- Header bytes 2 and 3 (R91) under `GET_MID` (R135). -/
def execWireHdrMid (mid : Half) (s : State) : Host.Outcome State Fault Refusal :=
  .next (headerDecode (.ok ⟨mid.zeroExtend 32, 0, 0⟩) s)

/-! ### Items of the option chain -/

/-- What `DEC_OPT` tests before it looks at the item: `LEN` against `MAX_BUF`, `CURSOR` against `LEN` (R166). -/
def atItem (o : Except Err TlvItem) (s : State) : Host.Outcome State Fault Refusal :=
  if s.len.toNat > Config.maxBuf then .next (raise .insufficientBuffer s)
  else if s.cursor.toNat > s.len.toNat then .next (raise .invalidPacket s)
  else if s.cursor.toNat = s.len.toNat then .next (raise .endOfPacket s)
  else .next (finishItem o s)

/-- The item at `CURSOR` whose header takes `size` bytes and resolves to `delta` and `length`; the header and the value must
lie below `LEN` (R92, R104). -/
def itemOf (size delta length : Nat) (s : State) : Except Err TlvItem :=
  if s.cursor.toNat + size + length > s.len.toNat then .error .invalidPacket
  else .ok ⟨delta, length, s.cursor.toNat + size, s.cursor.toNat + size + length⟩

/-- The payload marker (R96): `FoundPayloadMarker`, `CURSOR` stays on it (R166). -/
def execWireMarker (s : State) : Host.Outcome State Fault Refusal := atItem (.error .foundPayloadMarker) s

/-- A TLV header byte, its extension bytes read from the buffer after it (R92, R104). -/
def execWireTlv (d l : Nibble) (s : State) : Host.Outcome State Fault Refusal :=
  atItem (tlvBody s d l (s.cursor.toNat + 1)) s

/-- Delta nibble 15 (R97, R104). -/
def execWireTlvReservedDelta15 (_l : Nibble) (s : State) : Host.Outcome State Fault Refusal :=
  atItem (.error .invalidPacket) s

/-- Length nibble 15 (R97, R104). -/
def execWireTlvReservedLen15 (_d : Nibble) (s : State) : Host.Outcome State Fault Refusal :=
  atItem (.error .invalidPacket) s

/-- Delta literal, length literal (R207 row 1). -/
def execWireTlvDlitLlit (d l : Nibble) (s : State) : Host.Outcome State Fault Refusal :=
  atItem (itemOf 1 d.toNat l.toNat s) s

/-- Delta literal, length one extension byte (R207 row 4). -/
def execWireTlvDlitLext1 (d : Nibble) (x : Byte) (s : State) : Host.Outcome State Fault Refusal :=
  atItem (itemOf 2 d.toNat (x.toNat + Config.ext8Base) s) s

/-- Delta literal, length two extension bytes (R207 row 7). -/
def execWireTlvDlitLext2 (d : Nibble) (x : Half) (s : State) : Host.Outcome State Fault Refusal :=
  atItem (itemOf 3 d.toNat (x.toNat + Config.ext16Base) s) s

/-- Delta one extension byte, length literal (R207 row 2). -/
def execWireTlvDext1Llit (l : Nibble) (e : Byte) (s : State) : Host.Outcome State Fault Refusal :=
  atItem (itemOf 2 (e.toNat + Config.ext8Base) l.toNat s) s

/-- Delta and length one extension byte each (R207 row 5). -/
def execWireTlvDext1Lext1 (e x : Byte) (s : State) : Host.Outcome State Fault Refusal :=
  atItem (itemOf 3 (e.toNat + Config.ext8Base) (x.toNat + Config.ext8Base) s) s

/-- Delta one, length two extension bytes (R207 row 8). -/
def execWireTlvDext1Lext2 (e : Byte) (x : Half) (s : State) : Host.Outcome State Fault Refusal :=
  atItem (itemOf 4 (e.toNat + Config.ext8Base) (x.toNat + Config.ext16Base) s) s

/-- Delta two extension bytes, length literal (R207 row 3). -/
def execWireTlvDext2Llit (l : Nibble) (e : Half) (s : State) : Host.Outcome State Fault Refusal :=
  atItem (itemOf 3 (e.toNat + Config.ext16Base) l.toNat s) s

/-- Delta two, length one extension byte (R207 row 6). -/
def execWireTlvDext2Lext1 (e : Half) (x : Byte) (s : State) : Host.Outcome State Fault Refusal :=
  atItem (itemOf 4 (e.toNat + Config.ext16Base) (x.toNat + Config.ext8Base) s) s

/-- Delta and length two extension bytes each (R207 row 9). -/
def execWireTlvDext2Lext2 (e x : Half) (s : State) : Host.Outcome State Fault Refusal :=
  atItem (itemOf 5 (e.toNat + Config.ext16Base) (x.toNat + Config.ext16Base) s) s

end Sys2Proof.Machine
end

