-- ==== Sys2Proof/Machine/Dispatch.lean ====
section
/-! DEFINITION. One arm per constructor: the meaning of every row of the opcode table. -/

namespace Sys2Proof.Machine

def exec (i : Instr) (s : State) : Host.Outcome State Fault Refusal :=
  match i with
  | .getVer => Sys2Proof.Machine.execGetVer s
  | .getType => Sys2Proof.Machine.execGetType s
  | .getTkl => Sys2Proof.Machine.execGetTkl s
  | .getCode => Sys2Proof.Machine.execGetCode s
  | .getMid => Sys2Proof.Machine.execGetMid s
  | .setVer => Sys2Proof.Machine.execSetVer s
  | .setType => Sys2Proof.Machine.execSetType s
  | .setTkl => Sys2Proof.Machine.execSetTkl s
  | .setCode => Sys2Proof.Machine.execSetCode s
  | .setMid => Sys2Proof.Machine.execSetMid s
  | .buildHdr => Sys2Proof.Machine.execBuildHdr s
  | .decOpt => Sys2Proof.Machine.execDecOpt s
  | .cntOpt => Sys2Proof.Machine.execCntOpt s
  | .getOpt => Sys2Proof.Machine.execGetOpt s
  | .optHlen => Sys2Proof.Machine.execOptHlen s
  | .optHbld => Sys2Proof.Machine.execOptHbld s
  | .addOpt => Sys2Proof.Machine.execAddOpt s
  | .getPayload => Sys2Proof.Machine.execGetPayload s
  | .setPayload => Sys2Proof.Machine.execSetPayload s
  | .validate => Sys2Proof.Machine.execValidate s
  | .illegal opcode => Sys2Proof.Machine.execIllegal opcode s
  | .wireHdrByte0 ver type tkl => Sys2Proof.Machine.execWireHdrByte0 ver type tkl s
  | .wireHdrByte1 code => Sys2Proof.Machine.execWireHdrByte1 code s
  | .wireHdrMid mid => Sys2Proof.Machine.execWireHdrMid mid s
  | .wireMarker => Sys2Proof.Machine.execWireMarker s
  | .wireTlv d l => Sys2Proof.Machine.execWireTlv d l s
  | .wireTlvReservedDelta15 l => Sys2Proof.Machine.execWireTlvReservedDelta15 l s
  | .wireTlvReservedLen15 d => Sys2Proof.Machine.execWireTlvReservedLen15 d s
  | .wireTlvDlitLlit d l => Sys2Proof.Machine.execWireTlvDlitLlit d l s
  | .wireTlvDlitLext1 d x => Sys2Proof.Machine.execWireTlvDlitLext1 d x s
  | .wireTlvDlitLext2 d x => Sys2Proof.Machine.execWireTlvDlitLext2 d x s
  | .wireTlvDext1Llit l e => Sys2Proof.Machine.execWireTlvDext1Llit l e s
  | .wireTlvDext1Lext1 e x => Sys2Proof.Machine.execWireTlvDext1Lext1 e x s
  | .wireTlvDext1Lext2 e x => Sys2Proof.Machine.execWireTlvDext1Lext2 e x s
  | .wireTlvDext2Llit l e => Sys2Proof.Machine.execWireTlvDext2Llit l e s
  | .wireTlvDext2Lext1 e x => Sys2Proof.Machine.execWireTlvDext2Lext1 e x s
  | .wireTlvDext2Lext2 e x => Sys2Proof.Machine.execWireTlvDext2Lext2 e x s

end Sys2Proof.Machine
end

