-- ==== Sys2Proof/Machine/HostPort.lean ====
section
/-! DEFINITION. How the outside world's accesses reach the block (10_state.md R21, R27; 70_reset_and_hazards.md R310, R311,
R318, R319), where a command is fetched from, and the loading of a table word so that the next step runs it (log 14). -/

namespace Sys2Proof.Machine

/-- What the next pending access comes to: a state at which a command is to run, or the state it leaves. -/
inductive Event where
  /-- A command is started or in flight in this state: it runs to completion. -/
  | command (s : State)
  /-- Nothing runs; this is the state after. -/
  | settled (s : State)
  deriving DecidableEq, Repr

/-- Perform one access on an idle block. A write of `CMD` stores `CMD[7:0]` and starts the command (R27, R117). -/
def performAction (a : HostAction) (s : State) : Event :=
  match a with
  | .writeReg n v => if n = 0 then .command (startCommand (v.extractLsb' 0 8) s) else .settled (writeReg n v s)
  | .writeBuf o b => .settled (writeBuf o b s)
  | .writeVal o b => .settled (writeVal o b s)
  | .reset => .settled (resetPin s)

/-- The next event. A pending reset acts at once and abandons a command in flight (R311). While `BUSY` is set every other
access is held off and the command in flight runs (R318, R319; log 3). With nothing pending nothing happens (R310; log 2). -/
def nextEvent (s : State) : Event :=
  match s.hostIn with
  | [] => if s.status.busy then .command s else .settled s
  | .reset :: rest => .settled (resetPin { s with hostIn := rest })
  | a :: rest => if s.status.busy then .command s else performAction a { s with hostIn := rest }

/-- The command in flight: the one whose opcode `CMD` holds (R27). -/
def currentInstr (s : State) : Instr := decodeOpcode s.cmd

/-- Put a write of `CMD` in front of the pending accesses of an idle block. -/
def issue (opcode : Byte) (s : State) : State :=
  { s with status := { s.status with busy := false }, hostIn := .writeReg 0 (opcode.zeroExtend 32) :: s.hostIn }

/-- How many value bytes follow a TLV header (R207). -/
def valueLength : Instr → Nat
  | .wireTlvDlitLlit _ l | .wireTlvDext1Llit l _ | .wireTlvDext2Llit l _ => l.toNat
  | .wireTlvDlitLext1 _ x | .wireTlvDext1Lext1 _ x | .wireTlvDext2Lext1 _ x => x.toNat + Config.ext8Base
  | .wireTlvDlitLext2 _ x | .wireTlvDext1Lext2 _ x | .wireTlvDext2Lext2 _ x => x.toNat + Config.ext16Base
  | _ => 0

/-- Place an item at offset 4, the first place of the option chain after an empty token, with `LEN` just past its value as far
as the buffer goes, `CURSOR` on it, and issue `DEC_OPT` (R23, R313). -/
def placeItem (bs : List Byte) (vlen : Nat) (s : State) : State :=
  issue 0x20
    { writeBufBytes 4 bs s with
      cursor := 4
      len := BitVec.ofNat 16 (min Config.maxBuf (4 + bs.length + vlen)) }

/-- Place a message ID at offset 2, make `LEN` one that has a header, and issue `GET_MID` (R135). -/
def placeMid (bs : List Byte) (s : State) : State :=
  issue 0x05
    { writeBufBytes 2 bs s with
      len := if 4 ≤ s.len.toNat ∧ s.len.toNat ≤ Config.maxBuf then s.len else 4 }

/-- Load the instruction of a table word (log 14): a command word is a pending write of `CMD`; a wire word is stored where the
command that decodes it looks for it, and that command is issued. -/
def placeTableWord (nbits w : Nat) (s : State) : State :=
  match decodeTableWord nbits w with
  | none => s
  | some i =>
    match formatOf i with
    | .cmd => issue (BitVec.ofNat 8 w) s
    | .item | .tlvHeader => placeItem (beBytes (nbits / 8) w) (valueLength i) s
    | .hdrMid => placeMid (beBytes (nbits / 8) w) s
    | .hdrByte0 | .hdrByte1 => s

end Sys2Proof.Machine
end

