-- ==== Sys2Proof/Machine/Step.lean ====
section
/-! DEFINITION. One step: one whole command, "from the host's write of the command register to the setting of `STATUS.DONE`"
(00_scope.md R17), or one plain host access between commands (log 1). -/

namespace Sys2Proof.Machine

/-- Perform the next event; a command in flight is the one `CMD` selects, and it runs to completion (R17). -/
def step (s : State) : Host.Outcome State Fault Refusal :=
  match nextEvent s with
  | .settled t => .next t
  | .command t => exec (currentInstr t) t

/-- `s` with the instruction of the table's word `w` of `nbits` bits loaded, so that the next step runs it (log 14). -/
def State.withFetchWord (s : State) (nbits w : Nat) : State := placeTableWord nbits w s

end Sys2Proof.Machine
end

