-- ==== Sys2Proof/Safety.lean ====
section
/-! DEFINITION. The terms claims are stated in: the outcome of a command as the rules give it, what stands at an offset of the
message (30_encoding.md R92, R97, R104), the chain of options as a relation without loops or fuel (R180), the encoder's check
(43 R200), the errors a command may end with (60 R283), and the invariant of the machine. -/

namespace Sys2Proof.Machine

/-! ### Outcomes -/

/-- `s` after a command that succeeds with these results and writes nothing else (R26, R28). -/
abbrev State.doneWith (s : State) (r0 r1 r2 : Word) : State :=
  { s with status := ⟨none, true, false⟩, res := ⟨r0, r1, r2⟩ }

/-- `s` after `raise e` (R285). -/
abbrev State.failedWith (s : State) (e : Err) : State :=
  { s with status := ⟨some e, true, false⟩, res := ⟨0, 0, 0⟩ }

/-! ### What stands at an offset of the message -/

/-- `E_d`, `E_l`: the number of extension bytes of a nibble (R92, R97). -/
def extCount (n : Nibble) : Nat := if n = 13 then 1 else if n = 14 then 2 else 0

/-- The resolved value of a nibble whose extension bytes start at `q` (R97). -/
def resolved (s : State) (n : Nibble) (q : Nat) : Nat :=
  if n = 13 then (s.bufByte q).toNat + 13
  else if n = 14 then (s.bufByte q).toNat * 256 + (s.bufByte (q + 1)).toNat + 269
  else n.toNat

/-- The message ends at `pos` (R104: "If remaining length is 0"). -/
abbrev AtEnd (s : State) (pos : Nat) : Prop := pos = s.len.toNat

/-- The payload marker stands at `pos`, where a TLV header byte is expected (R96, R104). -/
abbrev AtMarker (s : State) (pos : Nat) : Prop := pos < s.len.toNat ∧ s.bufByte pos = 0xFF

/-- A TLV header byte stands at `pos`, not the marker. -/
abbrev AtHeader (s : State) (pos : Nat) : Prop := pos < s.len.toNat ∧ s.bufByte pos ≠ 0xFF

/-- The offset where the value of the entry at `pos` starts: "1 + `E_d` + `E_l`" further (R92). -/
def valueStart (s : State) (pos : Nat) : Nat :=
  pos + 1 + extCount (hiNibble (s.bufByte pos)) + extCount (loNibble (s.bufByte pos))

/-- The resolved delta of the entry at `pos`. -/
def deltaAt (s : State) (pos : Nat) : Nat := resolved s (hiNibble (s.bufByte pos)) (pos + 1)

/-- The resolved length of the entry at `pos`: its extension bytes come after the delta's (R92). -/
def lengthAt (s : State) (pos : Nat) : Nat :=
  resolved s (loNibble (s.bufByte pos)) (pos + 1 + extCount (hiNibble (s.bufByte pos)))

/-- A whole TLV entry stands at `pos`: no nibble 15, and its end not past `LEN` (R92, R97, R104). -/
abbrev AtItem (s : State) (pos : Nat) : Prop :=
  AtHeader s pos ∧ hiNibble (s.bufByte pos) ≠ 15 ∧ loNibble (s.bufByte pos) ≠ 15 ∧
    valueStart s pos + lengthAt s pos ≤ s.len.toNat

/-- What stands at `pos` is a malformed or truncated entry: a nibble 15, or an extension or the value past `LEN` (R101,
R104). -/
abbrev Malformed (s : State) (pos : Nat) : Prop :=
  AtHeader s pos ∧ (hiNibble (s.bufByte pos) = 15 ∨ loNibble (s.bufByte pos) = 15 ∨
    s.len.toNat < valueStart s pos ∨ s.len.toNat < valueStart s pos + lengthAt s pos)

/-! ### The prefix and the option chain -/

/-- The message has its header and token, and the chain starts at `p0` = 4 + `tkl` (R65, R100). -/
abbrev HasPrefix (s : State) (p0 : Nat) : Prop :=
  s.len.toNat ≤ 1460 ∧ (tklField (s.bufByte 0)).toNat ≤ 8 ∧ p0 = 4 + (tklField (s.bufByte 0)).toNat ∧ p0 ≤ s.len.toNat

/-- The message has no prefix, with the error of it: the four tests of `Prefix()` in order (R100). -/
def PrefixFails (s : State) (e : Err) : Prop :=
  (1460 < s.len.toNat ∧ e = .insufficientBuffer) ∨
  (s.len.toNat < 4 ∧ e = .invalidPacket) ∨
  (4 ≤ s.len.toNat ∧ s.len.toNat ≤ 1460 ∧ 8 < (tklField (s.bufByte 0)).toNat ∧ e = .invalidTokenLength) ∨
  (4 ≤ s.len.toNat ∧ s.len.toNat ≤ 1460 ∧ (tklField (s.bufByte 0)).toNat ≤ 8 ∧
    s.len.toNat < 4 + (tklField (s.bufByte 0)).toNat ∧ e = .invalidPacket)

/-- From `p0` on, `cnt` whole TLV entries stand back to back up to `pos`, and their deltas add up to `num`, the number of the
last of them (R92, R113, R180). -/
inductive ChainTo (s : State) (p0 : Nat) : (cnt pos num : Nat) → Prop where
  | start : ChainTo s p0 0 p0 0
  | item {cnt pos num : Nat} : ChainTo s p0 cnt pos num → AtItem s pos →
      ChainTo s p0 (cnt + 1) (valueStart s pos + lengthAt s pos) (num + deltaAt s pos)

/-! ### The encoder's check (R200) -/

/-- `RESERVED_OPTS` (R8). -/
abbrev reservedNumbers : List Nat := [2, 9, 10, 128, 132, 136, 140]

/-- An option that can be encoded after an option numbered `prev`. -/
abbrev CanEncode (num vlen prev : Nat) : Prop :=
  prev ≤ num ∧ num ∉ reservedNumbers ∧ num - prev ≤ 65804 ∧ vlen ≤ 65804

/-- The error of an option that cannot be encoded: order first, then reserved, then range (R200). -/
def CannotEncode (num vlen prev : Nat) (e : Err) : Prop :=
  (num < prev ∧ e = .optionsOutOfOrder) ∨
  (prev ≤ num ∧ num ∈ reservedNumbers ∧ e = .invalidOption) ∨
  (prev ≤ num ∧ num ∉ reservedNumbers ∧ (65804 < num - prev ∨ 65804 < vlen) ∧ e = .invalidOption)

/-- The number of extension bytes the encoder uses for a delta or a length (R108, R203). -/
def extBytesOf (v : Nat) : Nat := if v ≤ 12 then 0 else if v ≤ 268 then 1 else 2

/-- The header length of a delta and a length (R203). -/
def headerLenOf (d l : Nat) : Nat := 1 + extBytesOf d + extBytesOf l

/-! ### Groups of commands -/

/-- The twenty commands of R115. -/
def commands : List Instr :=
  [.getVer, .getType, .getTkl, .getCode, .getMid, .setVer, .setType, .setTkl, .setCode, .setMid, .buildHdr] ++
  [.decOpt, .cntOpt, .getOpt, .optHlen, .optHbld, .addOpt, .getPayload, .setPayload, .validate]

/-- The decode commands, which read the message and write no memory and no `LEN` (R66). -/
def messageReaders : List Instr :=
  [.getVer, .getType, .getTkl, .getCode, .getMid, .decOpt, .cntOpt, .getOpt, .getPayload, .validate]

/-- The decode commands that advance nothing (R64). -/
def idempotentReaders : List Instr :=
  [.getVer, .getType, .getTkl, .getCode, .getMid, .cntOpt, .getOpt, .getPayload, .validate]

/-- Which command can end with which error (R283). -/
def allowedErrors : Instr → List Err
  | .getVer => [.invalidPacket, .invalidVersion, .insufficientBuffer]
  | .getType => [.invalidPacket, .insufficientBuffer]
  | .getTkl => [.invalidPacket, .invalidTokenLength, .insufficientBuffer]
  | .getCode => [.invalidPacket, .unknownCode, .insufficientBuffer]
  | .getMid => [.invalidPacket, .insufficientBuffer]
  | .setVer => [.invalidVersion]
  | .setType => [.invalidType]
  | .setTkl => [.invalidTokenLength]
  | .setCode => [.unknownCode]
  | .setMid => []
  | .buildHdr => [.invalidVersion, .invalidType, .invalidTokenLength, .unknownCode]
  | .decOpt => [.invalidPacket, .insufficientBuffer, .foundPayloadMarker, .endOfPacket]
  | .cntOpt => [.invalidPacket, .invalidTokenLength, .insufficientBuffer]
  | .getOpt => [.invalidPacket, .invalidTokenLength, .insufficientBuffer, .foundPayloadMarker, .endOfPacket]
  | .optHlen => [.invalidOption, .optionsOutOfOrder]
  | .optHbld => [.invalidPacket, .invalidOption, .optionsOutOfOrder, .insufficientBuffer]
  | .addOpt => [.invalidPacket, .invalidTokenLength, .invalidOption, .optionsOutOfOrder, .insufficientBuffer]
  | .getPayload => [.invalidPacket, .invalidTokenLength, .insufficientBuffer]
  | .setPayload => [.invalidPacket, .invalidTokenLength, .insufficientBuffer, .invalidPayload]
  | .validate =>
    [.invalidPacket, .invalidVersion, .invalidTokenLength, .unknownCode, .invalidOption, .insufficientBuffer]
  | .illegal _ => [.illegalCommand]
  | .wireHdrByte0 _ _ _ => [.invalidPacket, .invalidVersion, .invalidTokenLength, .insufficientBuffer]
  | .wireHdrByte1 _ => [.invalidPacket, .unknownCode, .insufficientBuffer]
  | .wireHdrMid _ => [.invalidPacket, .insufficientBuffer]
  | .wireMarker => [.insufficientBuffer, .invalidPacket, .endOfPacket, .foundPayloadMarker]
  | .wireTlv _ _ | .wireTlvReservedDelta15 _ | .wireTlvReservedLen15 _ => [.insufficientBuffer, .invalidPacket, .endOfPacket]
  | .wireTlvDlitLlit _ _ | .wireTlvDlitLext1 _ _ | .wireTlvDlitLext2 _ _ =>
    [.insufficientBuffer, .invalidPacket, .endOfPacket]
  | .wireTlvDext1Llit _ _ | .wireTlvDext1Lext1 _ _ | .wireTlvDext1Lext2 _ _ =>
    [.insufficientBuffer, .invalidPacket, .endOfPacket]
  | .wireTlvDext2Llit _ _ | .wireTlvDext2Lext1 _ _ | .wireTlvDext2Lext2 _ _ =>
    [.insufficientBuffer, .invalidPacket, .endOfPacket]

/-! ### The invariant -/

/-- What holds of every state a run goes through: both memories keep their canonical form (log 5), no command is in flight
between steps (R17, R318), "`DONE` and `BUSY` are never both 1" (R28), an error is only that of a completed command (R28), and
`OPTIDX` is 0 in every stage but `V_OPT`, where it is the index of an option the buffer can hold (R29, R112). -/
abbrev Invariant (s : State) : Prop :=
  Memory.wf s.buf = true ∧ Memory.wf s.val = true ∧ s.status.busy = false ∧
  (s.status.done && s.status.busy) = false ∧
  (s.status.err ≠ none → s.status.done = true) ∧
  (s.vstate.stage ≠ .vOpt → s.vstate.optIdx = 0) ∧ s.vstate.optIdx.toNat < 1456

/-- Every number of steps ends in a state: no fault and no refusal on the way. -/
def NeverStops (s : State) : Prop := ∀ n, ∃ t, Sys2Proof.core.run n s = .next t

end Sys2Proof.Machine
end

