-- ==== Sys2Proof/Certificates/Slice0/Obligations.lean ====
section
/-! DEFINITION. The statements for the provers. Each says which rule of spec/ it formalises. -/

open Sys2Proof Sys2Proof.Machine

/-! ### Header Codec, reading -/

/-- R130, with the length check of R133. -/
def Obligations.GetVerReadsVersion : Prop := decodeOpcode 0x01 = .getVer ∧ ∀ s : State,
  (1460 < s.len.toNat → exec .getVer s = .next (s.failedWith .insufficientBuffer)) ∧
  (s.len.toNat < 4 → exec .getVer s = .next (s.failedWith .invalidPacket)) ∧
  (4 ≤ s.len.toNat → s.len.toNat ≤ 1460 →
    ((s.bufByte 0).extractLsb' 6 2 ≠ 1#2 → exec .getVer s = .next (s.failedWith .invalidVersion)) ∧
    ((s.bufByte 0).extractLsb' 6 2 = 1#2 → exec .getVer s = .next (s.doneWith 1 0 0)))

/-- R131: the type is read whatever the version, and cannot be invalid. -/
def Obligations.GetTypeReadsType : Prop := decodeOpcode 0x02 = .getType ∧ ∀ s : State,
  (1460 < s.len.toNat → exec .getType s = .next (s.failedWith .insufficientBuffer)) ∧
  (s.len.toNat < 4 → exec .getType s = .next (s.failedWith .invalidPacket)) ∧
  (4 ≤ s.len.toNat → s.len.toNat ≤ 1460 →
    exec .getType s = .next (s.doneWith (((s.bufByte 0).extractLsb' 4 2).zeroExtend 32) 0 0))

/-- R132. -/
def Obligations.GetTklReadsTokenLength : Prop := decodeOpcode 0x03 = .getTkl ∧ ∀ s : State,
  (1460 < s.len.toNat → exec .getTkl s = .next (s.failedWith .insufficientBuffer)) ∧
  (s.len.toNat < 4 → exec .getTkl s = .next (s.failedWith .invalidPacket)) ∧
  (4 ≤ s.len.toNat → s.len.toNat ≤ 1460 →
    (8 < ((s.bufByte 0).extractLsb' 0 4).toNat → exec .getTkl s = .next (s.failedWith .invalidTokenLength)) ∧
    (((s.bufByte 0).extractLsb' 0 4).toNat ≤ 8 →
      exec .getTkl s = .next (s.doneWith (((s.bufByte 0).extractLsb' 0 4).zeroExtend 32) 0 0)))

/-- R134: the one error that leaves a result. -/
def Obligations.GetCodeReadsCode : Prop := decodeOpcode 0x04 = .getCode ∧ ∀ s : State,
  (1460 < s.len.toNat → exec .getCode s = .next (s.failedWith .insufficientBuffer)) ∧
  (s.len.toNat < 4 → exec .getCode s = .next (s.failedWith .invalidPacket)) ∧
  (4 ≤ s.len.toNat → s.len.toNat ≤ 1460 →
    exec .getCode s =
      .next { s with
        status := ⟨if Config.codeSet (s.bufByte 1) then none else some .unknownCode, true, false⟩
        res := ⟨(s.bufByte 1).zeroExtend 32, 0, 0⟩ })

/-- R135: big-endian. -/
def Obligations.GetMidReadsMessageId : Prop := decodeOpcode 0x05 = .getMid ∧ ∀ s : State,
  (1460 < s.len.toNat → exec .getMid s = .next (s.failedWith .insufficientBuffer)) ∧
  (s.len.toNat < 4 → exec .getMid s = .next (s.failedWith .invalidPacket)) ∧
  (4 ≤ s.len.toNat → s.len.toNat ≤ 1460 →
    exec .getMid s =
      .next (s.doneWith (BitVec.ofNat 32 ((s.bufByte 2).toNat * 256 + (s.bufByte 3).toNat)) 0 0))

/-! ### Header Codec, writing -/

/-- R140: bits 5:0 of byte 0 are kept. `COMMIT_VER` is 1 or 2 (R8). -/
def Obligations.SetVerWritesVersion : Prop := decodeOpcode 0x11 = .setVer ∧ ∀ s : State,
  (s.arg0.toNat ≠ 1 → exec .setVer s = .next (s.failedWith .invalidVersion)) ∧
  (s.arg0.toNat = 1 → ∃ t, exec .setVer s = .next t ∧
    t = { s.doneWith Config.commitVer 0 0 with buf := t.buf } ∧
    (Config.commitVer = 1 ∨ Config.commitVer = 2) ∧
    t.bufByte 0 = 1#2 ++ (s.bufByte 0).extractLsb' 0 6 ∧ ∀ a, a ≠ 0 → t.bufByte a = s.bufByte a)

/-- R141: bits 7:6 and 3:0 of byte 0 are kept. -/
def Obligations.SetTypeWritesType : Prop := decodeOpcode 0x12 = .setType ∧ ∀ s : State,
  (3 < s.arg0.toNat → exec .setType s = .next (s.failedWith .invalidType)) ∧
  (s.arg0.toNat ≤ 3 → ∃ t, exec .setType s = .next t ∧
    t = { s.doneWith Config.commitType 0 0 with buf := t.buf } ∧
    (Config.commitType = 1 ∨ Config.commitType = 2) ∧
    t.bufByte 0 = (s.bufByte 0).extractLsb' 6 2 ++ s.arg0.extractLsb' 0 2 ++ (s.bufByte 0).extractLsb' 0 4 ∧
    ∀ a, a ≠ 0 → t.bufByte a = s.bufByte a)

/-- R142: bits 7:4 of byte 0 are kept. -/
def Obligations.SetTklWritesTokenLength : Prop := decodeOpcode 0x13 = .setTkl ∧ ∀ s : State,
  (8 < s.arg0.toNat → exec .setTkl s = .next (s.failedWith .invalidTokenLength)) ∧
  (s.arg0.toNat ≤ 8 → ∃ t, exec .setTkl s = .next t ∧
    t = { s.doneWith Config.commitTkl 0 0 with buf := t.buf } ∧
    (Config.commitTkl = 1 ∨ Config.commitTkl = 2) ∧
    t.bufByte 0 = (s.bufByte 0).extractLsb' 4 4 ++ s.arg0.extractLsb' 0 4 ∧ ∀ a, a ≠ 0 → t.bufByte a = s.bufByte a)

/-- R143. -/
def Obligations.SetCodeWritesCode : Prop := decodeOpcode 0x14 = .setCode ∧ ∀ s : State,
  ((255 < s.arg0.toNat ∨ Config.codeSet (s.arg0.extractLsb' 0 8) = false) →
    exec .setCode s = .next (s.failedWith .unknownCode)) ∧
  (s.arg0.toNat ≤ 255 → Config.codeSet (s.arg0.extractLsb' 0 8) = true → ∃ t, exec .setCode s = .next t ∧
    t = { s.doneWith 2 0 0 with buf := t.buf } ∧
    t.bufByte 1 = s.arg0.extractLsb' 0 8 ∧ ∀ a, a ≠ 1 → t.bufByte a = s.bufByte a)

/-- R144: no error; `ARG0[31:16]` does not matter. -/
def Obligations.SetMidWritesMessageId : Prop := decodeOpcode 0x15 = .setMid ∧ ∀ s : State, ∃ t, exec .setMid s = .next t ∧
  t = { s.doneWith 4 0 0 with buf := t.buf } ∧
  t.bufByte 2 = s.arg0.extractLsb' 8 8 ∧ t.bufByte 3 = s.arg0.extractLsb' 0 8 ∧
  ∀ a, a ≠ 2 → a ≠ 3 → t.bufByte a = s.bufByte a

/-- R146: the checks in the documented order, nothing written on a failed one. -/
def Obligations.BuildHdrWritesHeader : Prop := ∀ s : State,
  (s.arg0.toNat ≠ 1 → exec .buildHdr s = .next (s.failedWith .invalidVersion)) ∧
  (s.arg0.toNat = 1 → 3 < s.arg1.toNat → exec .buildHdr s = .next (s.failedWith .invalidType)) ∧
  (s.arg0.toNat = 1 → s.arg1.toNat ≤ 3 → 8 < s.arg2.toNat →
    exec .buildHdr s = .next (s.failedWith .invalidTokenLength)) ∧
  (s.arg0.toNat = 1 → s.arg1.toNat ≤ 3 → s.arg2.toNat ≤ 8 →
    ((255 < s.arg3.toNat ∨ Config.codeSet (s.arg3.extractLsb' 0 8) = false) →
      exec .buildHdr s = .next (s.failedWith .unknownCode)) ∧
    (s.arg3.toNat ≤ 255 → Config.codeSet (s.arg3.extractLsb' 0 8) = true → ∃ t, exec .buildHdr s = .next t ∧
      t = { s.doneWith 4 0 0 with buf := t.buf } ∧
      t.bufByte 0 = 1#2 ++ s.arg1.extractLsb' 0 2 ++ s.arg2.extractLsb' 0 4 ∧
      t.bufByte 1 = s.arg3.extractLsb' 0 8 ∧
      t.bufByte 2 = s.arg4.extractLsb' 8 8 ∧ t.bufByte 3 = s.arg4.extractLsb' 0 8 ∧
      ∀ a, 4 ≤ a → t.bufByte a = s.bufByte a))

/-- R146: "On success the result equals that of the five field encoders issued in order, whatever `BUF[0..3]` held
before." -/
def Obligations.BuildHdrEqualsFiveEncoders : Prop := ∀ s : State,
  s.arg0.toNat = 1 → s.arg1.toNat ≤ 3 → s.arg2.toNat ≤ 8 → s.arg3.toNat ≤ 255 →
  Config.codeSet (s.arg3.extractLsb' 0 8) = true →
  ∃ t t1 t2 t3 t4 t5,
    exec .buildHdr s = .next t ∧ exec .setVer s = .next t1 ∧ exec .setType { t1 with arg0 := s.arg1 } = .next t2 ∧
    exec .setTkl { t2 with arg0 := s.arg2 } = .next t3 ∧ exec .setCode { t3 with arg0 := s.arg3 } = .next t4 ∧
    exec .setMid { t4 with arg0 := s.arg4 } = .next t5 ∧
    (t.status.err = none ∧ t1.status.err = none ∧ t2.status.err = none ∧ t3.status.err = none ∧
      t4.status.err = none ∧ t5.status.err = none) ∧
    ∀ a, t5.bufByte a = t.bufByte a

/-- R147: encoding a header and decoding it yields the original values. -/
def Obligations.HeaderRoundTrip : Prop := ∀ (s : State) (n : Half),
  s.arg0.toNat = 1 → s.arg1.toNat ≤ 3 → s.arg2.toNat ≤ 8 → s.arg3.toNat ≤ 255 →
  Config.codeSet (s.arg3.extractLsb' 0 8) = true → 4 ≤ n.toNat → n.toNat ≤ 1460 →
  ∃ t, exec .buildHdr s = .next t ∧
    exec .getVer { t with len := n } = .next ({ t with len := n }.doneWith s.arg0 0 0) ∧
    exec .getType { t with len := n } = .next ({ t with len := n }.doneWith s.arg1 0 0) ∧
    exec .getTkl { t with len := n } = .next ({ t with len := n }.doneWith s.arg2 0 0) ∧
    exec .getCode { t with len := n } = .next ({ t with len := n }.doneWith s.arg3 0 0) ∧
    exec .getMid { t with len := n } =
      .next ({ t with len := n }.doneWith ((s.arg4.extractLsb' 0 16).zeroExtend 32) 0 0)

/-! ### Option TLV Decoder -/

/-- R160, R163, R165 and every row of R166; `OPTNUM` is taken modulo 2^32 (R24). -/
def Obligations.DecOptDecodesItemAtCursor : Prop := decodeOpcode 0x20 = .decOpt ∧ ∀ s : State,
  (1460 < s.len.toNat → exec .decOpt s = .next (s.failedWith .insufficientBuffer)) ∧
  (s.len.toNat ≤ 1460 →
    (s.len.toNat < s.cursor.toNat → exec .decOpt s = .next (s.failedWith .invalidPacket)) ∧
    (AtEnd s s.cursor.toNat → exec .decOpt s = .next (s.failedWith .endOfPacket)) ∧
    (AtMarker s s.cursor.toNat → exec .decOpt s = .next (s.failedWith .foundPayloadMarker)) ∧
    (Malformed s s.cursor.toNat → exec .decOpt s = .next (s.failedWith .invalidPacket)) ∧
    (AtItem s s.cursor.toNat → ∃ t, exec .decOpt s = .next t ∧
      t = { s.doneWith (BitVec.ofNat 32 (lengthAt s s.cursor.toNat)) (BitVec.ofNat 32 (valueStart s s.cursor.toNat))
              (s.optnum + BitVec.ofNat 32 (deltaAt s s.cursor.toNat)) with
            cursor := t.cursor, optnum := s.optnum + BitVec.ofNat 32 (deltaAt s s.cursor.toNat) } ∧
      t.cursor.toNat = valueStart s s.cursor.toNat + lengthAt s s.cursor.toNat))

/-- R99 with R167: the header bytes of every delta and every length from 0 to 65804 decode to that delta and that length,
all nine classes of R207. -/
def Obligations.DecOptReadsEveryEncoding : Prop := ∀ (s : State) (d l : Nat),
  d ≤ 65804 → l ≤ 65804 → s.len.toNat ≤ 1460 →
  (∀ k, k < (optHeader d l).length → (optHeader d l)[k]? = some (s.bufByte (s.cursor.toNat + k))) →
  s.cursor.toNat + (optHeader d l).length + l ≤ s.len.toNat →
  ∃ t, exec .decOpt s = .next t ∧
    t = { s.doneWith (BitVec.ofNat 32 l) (BitVec.ofNat 32 (s.cursor.toNat + (optHeader d l).length))
            (s.optnum + BitVec.ofNat 32 d) with
          cursor := t.cursor, optnum := s.optnum + BitVec.ofNat 32 d } ∧
    t.cursor.toNat = s.cursor.toNat + (optHeader d l).length + l

/-- R99, R206: what `OPT_HBLD` writes, `DEC_OPT` reads back: the option number, the length and the value's place. `v` is the
length of the message the header lies in. -/
def Obligations.DecOptInvertsOptHbld : Prop := ∀ (s : State) (v : Half),
  CanEncode s.arg0.toNat s.arg1.toNat s.arg2.toNat →
  s.arg3.toNat = headerLenOf (s.arg0.toNat - s.arg2.toNat) s.arg1.toNat →
  s.cursor.toNat + s.arg3.toNat + s.arg1.toNat ≤ v.toNat → v.toNat ≤ 1460 →
  ∃ t u, exec .optHbld s = .next t ∧ t.status.err = none ∧
    exec .decOpt { t with len := v, cursor := s.cursor, optnum := s.arg2 } = .next u ∧
    u.status.err = none ∧ u.optnum = s.arg0 ∧ u.res = ⟨s.arg1, BitVec.ofNat 32 t.cursor.toNat, s.arg0⟩ ∧
    u.cursor.toNat = t.cursor.toNat + s.arg1.toNat ∧ t.cursor.toNat = s.cursor.toNat + s.arg3.toNat

/-! ### The walk -/

/-- R100: the four tests of `Prefix()` end every command that walks, before anything else it tests, with their error and
nothing else. (`SET_PAYLOAD` tests its own operand first, R236.) -/
def Obligations.PrefixErrorsEndEveryWalk : Prop := ∀ (s : State) (e : Err), PrefixFails s e →
  exec .cntOpt s = .next (s.failedWith e) ∧ exec .getOpt s = .next (s.failedWith e) ∧
  exec .addOpt s = .next (s.failedWith e) ∧ exec .getPayload s = .next (s.failedWith e) ∧
  (s.arg0.toNat ≠ 0 → exec .setPayload s = .next (s.failedWith e))

/-- R180: the chain of every message with a prefix ends, after at most `LEN` - 4 entries, at the end, at the marker or at a
malformed entry; and where it ends is unique. -/
def Obligations.EveryChainEnds : Prop := ∀ (s : State) (p0 : Nat), HasPrefix s p0 →
  (∃ n e last, ChainTo s p0 n e last ∧ n ≤ s.len.toNat - 4 ∧ e ≤ s.len.toNat ∧
    (AtEnd s e ∨ AtMarker s e ∨ Malformed s e)) ∧
  ∀ n e last n' e' last', ChainTo s p0 n e last → ChainTo s p0 n' e' last' →
    ¬ AtItem s e → ¬ AtItem s e' → n = n' ∧ e = e' ∧ last = last'

/-- R112: the running option number of a chain in a buffer of 1460 bytes is at most 31,914,952, so a 32-bit running number
started from 0 never wraps. -/
def Obligations.RunningNumberIsBounded : Prop := ∀ (s : State) (p0 n e num : Nat),
  HasPrefix s p0 → ChainTo s p0 n e num → num ≤ 31914952 ∧ num < 2 ^ 25

/-! ### Option Enumerator -/

/-- R182: `CNT_OPT` answers the number of entries up to the end or the marker, and fails if the chain ends in a malformed
entry. -/
def Obligations.CntOptCountsTheChain : Prop := ∀ (s : State) (p0 n e last : Nat),
  HasPrefix s p0 → ChainTo s p0 n e last →
  (AtEnd s e ∨ AtMarker s e → exec .cntOpt s = .next (s.doneWith (BitVec.ofNat 32 n) 0 0)) ∧
  (Malformed s e → exec .cntOpt s = .next (s.failedWith .invalidPacket))

/-- R184: `GET_OPT` answers number, value offset and length of the option with index `ARG0`; the first item on the way that is
not an option ends it with that item's error. -/
def Obligations.GetOptFetchesByIndex : Prop := ∀ (s : State) (p0 c e num : Nat),
  HasPrefix s p0 → ChainTo s p0 c e num →
  (c = s.arg0.toNat → AtItem s e →
    exec .getOpt s = .next (s.doneWith (BitVec.ofNat 32 (num + deltaAt s e)) (BitVec.ofNat 32 (valueStart s e))
      (BitVec.ofNat 32 (lengthAt s e)))) ∧
  (c ≤ s.arg0.toNat →
    (AtEnd s e → exec .getOpt s = .next (s.failedWith .endOfPacket)) ∧
    (AtMarker s e → exec .getOpt s = .next (s.failedWith .foundPayloadMarker)) ∧
    (Malformed s e → exec .getOpt s = .next (s.failedWith .invalidPacket)))

/-- R186: the count and the index agree; entries before a malformed one stay reachable, and the numbers returned never go
down (R113). -/
def Obligations.CountAndIndexAgree : Prop := ∀ s : State,
  (∀ (t : State) (i : Word), exec .cntOpt s = .next t → t.status.err = none →
    ∃ u, exec .getOpt { s with arg0 := i } = .next u ∧
      (i.toNat < t.res.r0.toNat → u.status.err = none) ∧
      (t.res.r0.toNat ≤ i.toNat → u.status.err = some .endOfPacket ∨ u.status.err = some .foundPayloadMarker)) ∧
  ∀ (p0 j e num : Nat) (i k : Word), HasPrefix s p0 → ChainTo s p0 j e num → i.toNat ≤ k.toNat → k.toNat < j →
    ∃ u v, exec .getOpt { s with arg0 := i } = .next u ∧ exec .getOpt { s with arg0 := k } = .next v ∧
      u.status.err = none ∧ v.status.err = none ∧ u.res.r0.toNat ≤ v.res.r0.toNat

/-! ### Option TLV Encoder -/

/-- R201 with R200 and R203: the header length of every class, and the errors in order. -/
def Obligations.OptHlenComputesHeaderLength : Prop := decodeOpcode 0x30 = .optHlen ∧ ∀ s : State,
  (∀ e, CannotEncode s.arg0.toNat s.arg1.toNat s.arg2.toNat e → exec .optHlen s = .next (s.failedWith e)) ∧
  (CanEncode s.arg0.toNat s.arg1.toNat s.arg2.toNat →
    exec .optHlen s =
      .next (s.doneWith (BitVec.ofNat 32 (headerLenOf (s.arg0.toNat - s.arg2.toNat) s.arg1.toNat)) 0 0))

/-- R207: the header bytes of every class; the encoder never writes a nibble 15, hence never the marker. -/
def Obligations.HeaderBytesOfEveryClass : Prop := ∀ d l : Nat, d ≤ 65804 → l ≤ 65804 →
  (d ≤ 12 → l ≤ 12 → optHeader d l = [BitVec.ofNat 8 (d * 16 + l)]) ∧
  (13 ≤ d → d ≤ 268 → l ≤ 12 → optHeader d l = [BitVec.ofNat 8 (0xD0 + l), BitVec.ofNat 8 (d - 13)]) ∧
  (269 ≤ d → l ≤ 12 →
    optHeader d l = [BitVec.ofNat 8 (0xE0 + l), BitVec.ofNat 8 ((d - 269) / 256), BitVec.ofNat 8 ((d - 269) % 256)]) ∧
  (d ≤ 12 → 13 ≤ l → l ≤ 268 → optHeader d l = [BitVec.ofNat 8 (d * 16 + 13), BitVec.ofNat 8 (l - 13)]) ∧
  (13 ≤ d → d ≤ 268 → 13 ≤ l → l ≤ 268 →
    optHeader d l = [0xDD, BitVec.ofNat 8 (d - 13), BitVec.ofNat 8 (l - 13)]) ∧
  (269 ≤ d → 13 ≤ l → l ≤ 268 →
    optHeader d l =
      [0xED, BitVec.ofNat 8 ((d - 269) / 256), BitVec.ofNat 8 ((d - 269) % 256), BitVec.ofNat 8 (l - 13)]) ∧
  (d ≤ 12 → 269 ≤ l →
    optHeader d l =
      [BitVec.ofNat 8 (d * 16 + 14), BitVec.ofNat 8 ((l - 269) / 256), BitVec.ofNat 8 ((l - 269) % 256)]) ∧
  (13 ≤ d → d ≤ 268 → 269 ≤ l →
    optHeader d l =
      [0xDE, BitVec.ofNat 8 (d - 13), BitVec.ofNat 8 ((l - 269) / 256), BitVec.ofNat 8 ((l - 269) % 256)]) ∧
  (269 ≤ d → 269 ≤ l →
    optHeader d l =
      [0xEE, BitVec.ofNat 8 ((d - 269) / 256), BitVec.ofNat 8 ((d - 269) % 256),
        BitVec.ofNat 8 ((l - 269) / 256), BitVec.ofNat 8 ((l - 269) % 256)]) ∧
  (∃ b bs, optHeader d l = b :: bs ∧ hiNibble b ≠ 15 ∧ loNibble b ≠ 15 ∧ b ≠ 0xFF)

/-- R206: the header goes to `CURSOR`, `CURSOR` moves past it, `LEN` is neither read nor written; the errors in order. -/
def Obligations.OptHbldWritesHeaderAtCursor : Prop := decodeOpcode 0x31 = .optHbld ∧ ∀ s : State,
  (∀ e, CannotEncode s.arg0.toNat s.arg1.toNat s.arg2.toNat e → exec .optHbld s = .next (s.failedWith e)) ∧
  (∀ d, CanEncode s.arg0.toNat s.arg1.toNat s.arg2.toNat → d = s.arg0.toNat - s.arg2.toNat →
    (s.arg3.toNat ≠ headerLenOf d s.arg1.toNat → exec .optHbld s = .next (s.failedWith .invalidPacket)) ∧
    (s.arg3.toNat = headerLenOf d s.arg1.toNat → 1460 < s.cursor.toNat + s.arg3.toNat →
      exec .optHbld s = .next (s.failedWith .insufficientBuffer)) ∧
    (s.arg3.toNat = headerLenOf d s.arg1.toNat → s.cursor.toNat + s.arg3.toNat ≤ 1460 →
      ∃ t, exec .optHbld s = .next t ∧
        t = { s.doneWith s.arg3 0 0 with buf := t.buf, cursor := t.cursor } ∧
        t.cursor.toNat = s.cursor.toNat + s.arg3.toNat ∧
        (∀ k, k < s.arg3.toNat → (optHeader d s.arg1.toNat)[k]? = some (t.bufByte (s.cursor.toNat + k))) ∧
        ∀ a, a < s.cursor.toNat ∨ s.cursor.toNat + s.arg3.toNat ≤ a → t.bufByte a = s.bufByte a))

/-- R210, R211, R213: a successful `ADD_OPT` appends the TLV entry and the value at `LEN` and changes nothing else. -/
def Obligations.AddOptAppendsOption : Prop := ∀ (s : State) (p0 n prev hl : Nat),
  HasPrefix s p0 → ChainTo s p0 n s.len.toNat prev → CanEncode s.arg0.toNat s.arg1.toNat prev →
  hl = headerLenOf (s.arg0.toNat - prev) s.arg1.toNat → s.len.toNat + hl + s.arg1.toNat ≤ 1460 →
  ∃ t, exec .addOpt s = .next t ∧
    t = { s.doneWith (BitVec.ofNat 32 (s.len.toNat + hl + s.arg1.toNat)) 0 0 with buf := t.buf, len := t.len } ∧
    t.len.toNat = s.len.toNat + hl + s.arg1.toNat ∧
    (∀ k, k < hl → (optHeader (s.arg0.toNat - prev) s.arg1.toNat)[k]? = some (t.bufByte (s.len.toNat + k))) ∧
    (∀ k, k < s.arg1.toNat → t.bufByte (s.len.toNat + hl + k) = s.valByte k) ∧
    ∀ a, a < s.len.toNat ∨ s.len.toNat + hl + s.arg1.toNat ≤ a → t.bufByte a = s.bufByte a

/-- R212, rows 5 to 10 in their order (rows 1 to 4 are `PrefixErrorsEndEveryWalk`): nothing is written. -/
def Obligations.AddOptErrorsInOrder : Prop := ∀ (s : State) (p0 n e prev : Nat),
  HasPrefix s p0 → ChainTo s p0 n e prev →
  (Malformed s e → exec .addOpt s = .next (s.failedWith .invalidPacket)) ∧
  (AtEnd s e ∨ AtMarker s e →
    (∀ err, CannotEncode s.arg0.toNat s.arg1.toNat prev err → exec .addOpt s = .next (s.failedWith err)) ∧
    (CanEncode s.arg0.toNat s.arg1.toNat prev →
      (1460 < e + headerLenOf (s.arg0.toNat - prev) s.arg1.toNat + s.arg1.toNat →
        exec .addOpt s = .next (s.failedWith .insufficientBuffer)) ∧
      (e + headerLenOf (s.arg0.toNat - prev) s.arg1.toNat + s.arg1.toNat ≤ 1460 → e ≠ s.len.toNat →
        exec .addOpt s = .next (s.failedWith .invalidPacket))))

/-- R213: after a successful `ADD_OPT`, `CNT_OPT` returns one more than before and `GET_OPT` of the new last index returns
the option added: its number, the place of its value, its length. -/
def Obligations.AddedOptionReadsBack : Prop := ∀ s t : State,
  exec .addOpt s = .next t → t.status.err = none →
  ∃ c c', exec .cntOpt s = .next c ∧ exec .cntOpt t = .next c' ∧ c.status.err = none ∧ c'.status.err = none ∧
    c'.res.r0 = c.res.r0 + 1 ∧
    exec .getOpt { t with arg0 := c.res.r0 } =
      .next ({ t with arg0 := c.res.r0 }.doneWith s.arg0 (BitVec.ofNat 32 (t.len.toNat - s.arg1.toNat)) s.arg1)

/-! ### Payload -/

/-- R231, R232: the view after the marker, or no payload at the end; one uniform test of the option count. -/
def Obligations.GetPayloadLocatesPayload : Prop := ∀ (s : State) (p0 n e last : Nat),
  HasPrefix s p0 → ChainTo s p0 n e last →
  (Malformed s e → exec .getPayload s = .next (s.failedWith .invalidPacket)) ∧
  (AtEnd s e ∨ AtMarker s e → n ≠ s.arg0.toNat → exec .getPayload s = .next (s.failedWith .invalidPacket)) ∧
  (AtEnd s e → n = s.arg0.toNat → exec .getPayload s = .next (s.doneWith 0 (BitVec.ofNat 32 s.len.toNat) 0)) ∧
  (AtMarker s e → n = s.arg0.toNat →
    exec .getPayload s =
      .next (s.doneWith (BitVec.ofNat 32 (s.len.toNat - e - 1)) (BitVec.ofNat 32 (e + 1)) 0))

/-- R235, R237: the marker and the staged bytes are appended at `LEN`, nothing else changes. -/
def Obligations.SetPayloadAppendsPayload : Prop := ∀ (s : State) (p0 n last : Nat),
  HasPrefix s p0 → ChainTo s p0 n s.len.toNat last → s.arg0.toNat ≠ 0 → s.len.toNat + 1 + s.arg0.toNat ≤ 1460 →
  ∃ t, exec .setPayload s = .next t ∧
    t = { s.doneWith (BitVec.ofNat 32 (s.len.toNat + 1 + s.arg0.toNat)) 0 0 with buf := t.buf, len := t.len } ∧
    t.len.toNat = s.len.toNat + 1 + s.arg0.toNat ∧ t.bufByte s.len.toNat = 0xFF ∧
    (∀ k, k < s.arg0.toNat → t.bufByte (s.len.toNat + 1 + k) = s.valByte k) ∧
    ∀ a, a < s.len.toNat ∨ s.len.toNat + 1 + s.arg0.toNat ≤ a → t.bufByte a = s.bufByte a

/-- R236: the errors of `SET_PAYLOAD` in order (those of the prefix are `PrefixErrorsEndEveryWalk`). -/
def Obligations.SetPayloadErrorsInOrder : Prop := ∀ s : State,
  (s.arg0.toNat = 0 → exec .setPayload s = .next (s.failedWith .invalidPayload)) ∧
  ∀ p0 n e last, s.arg0.toNat ≠ 0 → HasPrefix s p0 → ChainTo s p0 n e last →
    (Malformed s e → exec .setPayload s = .next (s.failedWith .invalidPacket)) ∧
    (AtMarker s e → exec .setPayload s = .next (s.failedWith .invalidPacket)) ∧
    (AtEnd s e → 1460 < s.len.toNat + 1 + s.arg0.toNat →
      exec .setPayload s = .next (s.failedWith .insufficientBuffer))

/-- R237: afterwards the count is the same, `GET_PAYLOAD` returns the payload set, a second `SET_PAYLOAD` fails, and every
`ADD_OPT` fails (R323: a payload closes the frame to further options). -/
def Obligations.SetPayloadReadsBack : Prop := ∀ s t : State,
  exec .setPayload s = .next t → t.status.err = none →
  ∃ c, exec .cntOpt s = .next c ∧ c.status.err = none ∧
    exec .cntOpt t = .next (t.doneWith c.res.r0 0 0) ∧
    exec .getPayload { t with arg0 := c.res.r0 } =
      .next ({ t with arg0 := c.res.r0 }.doneWith s.arg0 (BitVec.ofNat 32 (s.len.toNat + 1)) 0) ∧
    (∀ w : Word, w.toNat ≠ 0 →
      exec .setPayload { t with arg0 := w } = .next ({ t with arg0 := w }.failedWith .invalidPacket)) ∧
    ∀ num vlen : Word, ∃ e, exec .addOpt { t with arg0 := num, arg1 := vlen } =
      .next ({ t with arg0 := num, arg1 := vlen }.failedWith e)

/-! ### Packet Validator -/

/-- R253, the rows of `V_VER` to `V_PREFIX`, and R250's early end: the failing stage stays in `VSTATE`. -/
def Obligations.ValidateHeaderStages : Prop := ∀ s : State,
  (1460 < s.len.toNat → exec .validate s = .next { s.failedWith .insufficientBuffer with vstate := ⟨.vVer, 0⟩ }) ∧
  (s.len.toNat < 4 → exec .validate s = .next { s.failedWith .invalidPacket with vstate := ⟨.vVer, 0⟩ }) ∧
  (4 ≤ s.len.toNat → s.len.toNat ≤ 1460 →
    (verField (s.bufByte 0) ≠ 1 →
      exec .validate s = .next { s.failedWith .invalidVersion with vstate := ⟨.vVer, 0⟩ }) ∧
    (verField (s.bufByte 0) = 1 → 8 < (tklField (s.bufByte 0)).toNat →
      exec .validate s = .next { s.failedWith .invalidTokenLength with vstate := ⟨.vTkl, 0⟩ }) ∧
    (verField (s.bufByte 0) = 1 → (tklField (s.bufByte 0)).toNat ≤ 8 →
      (Config.codeSet (s.bufByte 1) = true ∨
        exec .validate s = .next { s.failedWith .unknownCode with vstate := ⟨.vCode, 0⟩ }) ∧
      (Config.codeSet (s.bufByte 1) = true → s.len.toNat < 4 + (tklField (s.bufByte 0)).toNat →
        exec .validate s = .next { s.failedWith .invalidPacket with vstate := ⟨.vPrefix, 0⟩ }) ∧
      (Config.codeSet (s.bufByte 1) = true → s.len.toNat = 4 + (tklField (s.bufByte 0)).toNat →
        exec .validate s = .next { s.doneWith 0 0 0 with vstate := ⟨.vOk, 0⟩ })))

/-- R250, R253, the stages `V_COUNT`, `V_OPT`, `V_OK` of a message longer than its prefix: a malformed entry anywhere comes
before a reserved number anywhere, and the lowest reserved index is reported. Option `i` has number `num` if the chain has
`i + 1` entries up to some offset, the last numbered `num`. -/
def Obligations.ValidateOptionStages : Prop := ∀ (s : State) (p0 n e last : Nat),
  HasPrefix s p0 → p0 < s.len.toNat → verField (s.bufByte 0) = 1 → Config.codeSet (s.bufByte 1) = true →
  ChainTo s p0 n e last →
  (Malformed s e → exec .validate s = .next { s.failedWith .invalidPacket with vstate := ⟨.vCount, 0⟩ }) ∧
  (AtEnd s e ∨ AtMarker s e →
    ((∀ i pos num, i < n → ChainTo s p0 (i + 1) pos num → num ∉ reservedNumbers) →
      exec .validate s = .next { s.doneWith (BitVec.ofNat 32 n) 0 0 with vstate := ⟨.vOk, 0⟩ }) ∧
    (∀ i pos num, i < n → ChainTo s p0 (i + 1) pos num → num ∈ reservedNumbers →
      (∀ j pos' num', j < i → ChainTo s p0 (j + 1) pos' num' → num' ∉ reservedNumbers) →
      exec .validate s = .next { s.failedWith .invalidOption with vstate := ⟨.vOpt, BitVec.ofNat 16 i⟩ }))

/-- R251, R255: success is stage `V_OK`, a failure is not; the only error of stage `V_OPT` is `InvalidOption`; `OPTIDX` is 0 in
every other stage (R29); and `VALIDATE` never ends in `V_IDLE` or `V_TYPE`. -/
def Obligations.ValidateStageTellsOutcome : Prop := ∀ s t : State, exec .validate s = .next t →
  (t.status.err = none ↔ t.vstate.stage = .vOk) ∧
  (t.vstate.stage = .vOpt → t.status.err = some .invalidOption) ∧
  (t.vstate.stage ≠ .vOpt → t.vstate.optIdx = 0) ∧
  t.vstate.stage ≠ .vIdle ∧ t.vstate.stage ≠ .vType

/-! ### Errors, outcomes, frames -/

/-- R28, R271: `STATUS` as a word, with the numeric codes in `ERR`; and the other registers the host cannot set: `CMD` (R27),
`RES0` to `RES2` (R26), `VSTATE` with the stage codes in bits 3:0 and `OPTIDX` in bits 31:16 (R29, R251); the output `done`
(R37). -/
def Obligations.StatusWordHoldsErrorCode : Prop := ∀ s : State,
  (hostReadReg s 1).toNat =
    (match s.status.err with
      | none => 0
      | some .invalidPacket => 1
      | some .invalidVersion => 2
      | some .invalidType => 3
      | some .invalidTokenLength => 4
      | some .unknownCode => 5
      | some .invalidOption => 6
      | some .optionsOutOfOrder => 7
      | some .insufficientBuffer => 8
      | some .foundPayloadMarker => 9
      | some .endOfPacket => 10
      | some .invalidPayload => 11
      | some .illegalCommand => 12) +
    (if s.status.done then 256 else 0) + (if s.status.busy then 512 else 0) ∧
  (hostReadReg s 0).toNat = s.cmd.toNat ∧
  hostReadReg s 10 = s.res.r0 ∧ hostReadReg s 11 = s.res.r1 ∧ hostReadReg s 12 = s.res.r2 ∧
  (hostReadReg s 13).toNat =
    (match s.vstate.stage with
      | .vIdle => 0
      | .vVer => 1
      | .vType => 2
      | .vTkl => 3
      | .vCode => 4
      | .vPrefix => 5
      | .vCount => 6
      | .vOpt => 7
      | .vOk => 8) + s.vstate.optIdx.toNat * 65536 ∧
  doneOut s = s.status.done

/-- R282: an opcode that is not one of the twenty completes at once with `IllegalCommand`, and nothing else changes. -/
def Obligations.IllegalOpcodesComplete : Prop := ∀ (o : Byte) (s : State),
  (o ∉ commandOpcodes → decodeOpcode o = .illegal o) ∧ exec (.illegal o) s = .next (s.failedWith .illegalCommand)

/-- R18, R292: every command, on every content of the state, completes: `DONE` set, `BUSY` clear. -/
def Obligations.EveryCommandCompletes : Prop := ∀ (i : Instr) (s : State),
  ∃ t, exec i s = .next t ∧ t.status.done = true ∧ t.status.busy = false

/-- R285: a command that ends with an error has written `STATUS`, `RES` and, for `VALIDATE`, `VSTATE`, and nothing else;
`RES0..2` are 0 but for `RES0` of `GET_CODE` with `UnknownCode`. -/
def Obligations.ErrorsLeaveNoTrace : Prop := ∀ (i : Instr) (s t : State) (e : Err),
  i ∈ commands → exec i s = .next t → t.status.err = some e →
  t = { s with status := ⟨some e, true, false⟩, res := t.res, vstate := t.vstate } ∧
  (i ≠ .validate → t.vstate = s.vstate) ∧
  (t.res = ⟨0, 0, 0⟩ ∨ (i = .getCode ∧ e = .unknownCode ∧ t.res = ⟨(s.bufByte 1).zeroExtend 32, 0, 0⟩))

/-- R283: "An error not marked for a command cannot be produced by it", and `IllegalCommand` belongs to no command. -/
def Obligations.CommandsRaiseOnlyTheirErrors : Prop := ∀ (i : Instr) (s t : State) (e : Err),
  exec i s = .next t → t.status.err = some e → e ∈ allowedErrors i

/-- R35: what each command writes; and the wire rows write what the commands that decode them do (logs 10, 11). -/
def Obligations.CommandsWriteOnlyTheirState : Prop := ∀ (i : Instr) (s t : State), exec i s = .next t →
  (i ∈ [.getVer, .getType, .getTkl, .getCode, .getMid, .cntOpt, .getOpt, .optHlen, .getPayload] →
    t = { s with status := t.status, res := t.res }) ∧
  (∀ o, i = .illegal o → t = { s with status := t.status, res := t.res }) ∧
  (i = .validate → t = { s with status := t.status, res := t.res, vstate := t.vstate }) ∧
  (i = .decOpt → t = { s with status := t.status, res := t.res, cursor := t.cursor, optnum := t.optnum }) ∧
  (i ∈ [.setVer, .setType, .setTkl] →
    t = { s with status := t.status, res := t.res, buf := t.buf } ∧ ∀ a, a ≠ 0 → t.bufByte a = s.bufByte a) ∧
  (i = .setCode →
    t = { s with status := t.status, res := t.res, buf := t.buf } ∧ ∀ a, a ≠ 1 → t.bufByte a = s.bufByte a) ∧
  (i = .setMid → t = { s with status := t.status, res := t.res, buf := t.buf } ∧
    ∀ a, a ≠ 2 → a ≠ 3 → t.bufByte a = s.bufByte a) ∧
  (i = .buildHdr →
    t = { s with status := t.status, res := t.res, buf := t.buf } ∧ ∀ a, 4 ≤ a → t.bufByte a = s.bufByte a) ∧
  (i = .optHbld → t = { s with status := t.status, res := t.res, buf := t.buf, cursor := t.cursor } ∧
    ∀ a, a < s.cursor.toNat ∨ t.cursor.toNat ≤ a → t.bufByte a = s.bufByte a) ∧
  (i ∈ [.addOpt, .setPayload] → t = { s with status := t.status, res := t.res, buf := t.buf, len := t.len } ∧
    ∀ a, a < s.len.toNat ∨ t.len.toNat ≤ a → t.bufByte a = s.bufByte a) ∧
  (formatOf i ∈ [.hdrByte0, .hdrByte1, .hdrMid] → t = { s with status := t.status, res := t.res }) ∧
  (formatOf i ∈ [.item, .tlvHeader] →
    t = { s with status := t.status, res := t.res, cursor := t.cursor, optnum := t.optnum })

/-- R64: repeating a decode command gives the same results and leaves the same state. -/
def Obligations.DecodeCommandsAreIdempotent : Prop := ∀ (i : Instr) (s t : State),
  i ∈ idempotentReaders → exec i s = .next t → exec i t = .next t

/-- R66: a decode command reads no byte of `BUF` at or beyond `LEN` and no byte of `VAL`: two states that agree on the message
end alike, whatever the rest of the memories holds. -/
def Obligations.DecodeReadsOnlyTheMessage : Prop :=
  ∀ (i : Instr) (s t : State) (buf' val' : Memory) (draw' : Nat),
  i ∈ messageReaders →
  (∀ a, a < s.len.toNat → { s with buf := buf', val := val', draw := draw' }.bufByte a = s.bufByte a) →
  exec i s = .next t →
  exec i { s with buf := buf', val := val', draw := draw' } = .next { t with buf := buf', val := val', draw := draw' }

/-- R32: a command is a function of `BUF`, `VAL`, `LEN`, `CURSOR`, `OPTNUM` and the operands alone; and so are the wire rows,
whose execution is the model's reading (logs 10, 11). -/
def Obligations.CommandsDependOnTheirInputsAlone : Prop :=
  ∀ (i : Instr) (s t : State) (cmd' : Byte) (status' : Status) (res' : Results) (vstate' : VState)
    (hostIn' : List HostAction),
  exec i s = .next t →
  ∃ t', exec i { s with cmd := cmd', status := status', res := res', vstate := vstate', hostIn := hostIn' } = .next t' ∧
    t'.status = t.status ∧ t'.res = t.res ∧ t'.buf = t.buf ∧ t'.val = t.val ∧ t'.len = t.len ∧
    t'.cursor = t.cursor ∧ t'.optnum = t.optnum ∧ (i = .validate → t'.vstate = t.vstate)

/-! ### The step, the host port, reset -/

/-- R17, R27, R115, R117: on an idle block a pending write of `CMD` whose low byte decodes to `i` runs `i`, from the state in
which the opcode is stored, `ERR` and `DONE` are clear and `BUSY` is set; bits 31:8 do not matter. -/
def Obligations.StepRunsTheDecodedCommand : Prop := ∀ (s : State) (v : Word) (rest : List HostAction) (i : Instr),
  s.hostIn = .writeReg 0 v :: rest → s.status.busy = false →
  decode .cmd [v.extractLsb' 0 8] = .ok (i, []) →
  step s = exec i { s with cmd := v.extractLsb' 0 8, status := ⟨none, false, true⟩, hostIn := rest }

/-- R318, R319: while `BUSY` is set every access but a reset is held off: the step runs the command in flight to completion and
takes nothing from the pending accesses. -/
def Obligations.BusyHoldsAccessesOff : Prop := ∀ s : State,
  s.status.busy = true → s.hostIn.head? ≠ some .reset →
  ∃ t, step s = .next t ∧ exec (decodeOpcode s.cmd) s = .next t ∧ t.hostIn = s.hostIn ∧ t.cmd = s.cmd ∧
    t.status.done = true ∧ t.status.busy = false

/-- R21: what a host write of a register does: the writable registers take the bits of their width, every other number ignores
the write (for the read-only ones that is the model's reading, log 9). -/
def Obligations.HostWritesRegisters : Prop := ∀ (s : State) (n : Nat) (v : Word) (rest : List HostAction),
  s.hostIn = .writeReg n v :: rest → s.status.busy = false → n ≠ 0 →
  ∃ t, step s = .next t ∧ t.hostIn = rest ∧
    (n = 2 → t = { s with hostIn := rest, len := v.extractLsb' 0 16 }) ∧
    (n = 3 → t = { s with hostIn := rest, cursor := v.extractLsb' 0 16 }) ∧
    (n = 4 → t = { s with hostIn := rest, optnum := v }) ∧
    (n = 5 → t = { s with hostIn := rest, arg0 := v }) ∧
    (n = 6 → t = { s with hostIn := rest, arg1 := v }) ∧
    (n = 7 → t = { s with hostIn := rest, arg2 := v }) ∧
    (n = 8 → t = { s with hostIn := rest, arg3 := v }) ∧
    (n = 9 → t = { s with hostIn := rest, arg4 := v }) ∧
    (n = 1 ∨ 10 ≤ n → t = { s with hostIn := rest }) ∧
    (2 ≤ n → n ≤ 9 → hostReadReg t n = if n ≤ 3 then (v.extractLsb' 0 16).zeroExtend 32 else v) ∧
    (14 ≤ n → hostReadReg t n = 0)

/-- R30, R31: the two memory windows: an access at or above `MAX_BUF` reads 0 and writes nothing. -/
def Obligations.HostWritesMemoryWindows : Prop := ∀ (s : State) (a : Nat) (b : Byte) (rest : List HostAction),
  s.status.busy = false →
  (s.hostIn = .writeBuf a b :: rest → ∃ t, step s = .next t ∧ t = { s with hostIn := rest, buf := t.buf } ∧
    hostReadBuf t a = (if a < 1460 then b else 0) ∧ ∀ c, c ≠ a → hostReadBuf t c = hostReadBuf s c) ∧
  (s.hostIn = .writeVal a b :: rest → ∃ t, step s = .next t ∧ t = { s with hostIn := rest, val := t.val } ∧
    hostReadVal t a = (if a < 1460 then b else 0) ∧ ∀ c, c ≠ a → hostReadVal t c = hostReadVal s c)

/-- R310, R311, R34: a reset, a command in flight or not, puts every register at its reset value; the memories are unspecified
again, in the model the next draw (log 4); the accesses still to come stay. -/
def Obligations.ResetRestoresEveryRegister : Prop := ∀ (s : State) (rest : List HostAction),
  s.hostIn = .reset :: rest →
  ∃ t, step s = .next t ∧ t.hostIn = rest ∧
    t.status = ⟨none, false, false⟩ ∧ t.vstate = ⟨.vIdle, 0⟩ ∧ t.res = ⟨0, 0, 0⟩ ∧ t.cmd = 0 ∧ t.len = 0 ∧
    t.cursor = 0 ∧ t.optnum = 0 ∧ t.arg0 = 0 ∧ t.arg1 = 0 ∧ t.arg2 = 0 ∧ t.arg3 = 0 ∧ t.arg4 = 0 ∧
    (∀ n, hostReadReg t n = 0) ∧
    ∀ a, a < 1460 → t.bufByte a = Config.bufDraw (s.draw + 1) a ∧ t.valByte a = Config.valDraw (s.draw + 1) a

/-- R34, R313: the state after reset: every register reads 0, `done` is low, and the first command of each kind that needs a
message fails with `InvalidPacket` without reading the unspecified memory; `DEC_OPT` gives `EndOfPacket`. -/
def Obligations.AfterResetNoMessage : Prop :=
  (∀ n, hostReadReg State.reset n = 0) ∧ doneOut State.reset = false ∧
  (∀ (i : Instr) (draw' : Nat),
    i ∈ [.getVer, .getType, .getTkl, .getCode, .getMid, .cntOpt, .getOpt, .getPayload, .addOpt] →
    exec i { State.reset with draw := draw' } = .next ({ State.reset with draw := draw' }.failedWith .invalidPacket)) ∧
  (∀ draw' : Nat, exec .decOpt { State.reset with draw := draw' } =
    .next ({ State.reset with draw := draw' }.failedWith .endOfPacket)) ∧
  (∀ draw' : Nat, exec .validate { State.reset with draw := draw' } =
    .next { { State.reset with draw := draw' }.failedWith .invalidPacket with vstate := ⟨.vVer, 0⟩ })

/-- R18, R292: no run ever stops, from any state and for any accesses of the host. -/
def Obligations.NoRunStops : Prop := ∀ s : State, NeverStops s

/-! ### The invariant -/

/-- The invariant holds after reset. -/
def Obligations.ResetMeetsInvariant : Prop := Invariant State.reset

/-- R17, R28, R29, R318 and the canonical form of the memories (log 5): every step keeps the invariant; and a step from a state
with a command in flight (log 3) that meets the rest of the invariant ends in a state that meets all of it, `BUSY` clear. -/
def Obligations.EveryStepKeepsInvariant : Prop :=
  (∀ s t : State, Invariant s → step s = .next t → Invariant t) ∧
  ∀ s t : State, s.status.busy = true → Invariant { s with status := { s.status with busy := false } } →
    step s = .next t → Invariant t

/-! ### Encodings -/

/-- R91, R92, R99, R115, R207: decoding what an instruction encodes to gives it back, whatever bytes follow. -/
def Obligations.DecodeInvertsEncode : Prop := ∀ (i : Instr) (rest : List Byte),
  WellFormed i = true → decode (formatOf i) (encode i ++ rest) = .ok (i, rest)

/-- R99: "encode(decode(bytes)) = bytes": what a format decodes is well-formed, of that format, and encodes back to the bytes
it was read from; no two encodings read alike. -/
def Obligations.EncodeInvertsDecode : Prop := ∀ (f : Format) (bs rest : List Byte) (i : Instr),
  decode f bs = .ok (i, rest) → WellFormed i = true ∧ formatOf i = f ∧ encode i ++ rest = bs

/-- R115, the twenty opcodes; and words of the wire format written out from the spec's vectors (95_test_vectors.md sections 1,
4, 5). -/
def Obligations.WordsDecode : Prop :=
  (decodeOpcode 0x01 = .getVer ∧ decodeOpcode 0x02 = .getType ∧ decodeOpcode 0x03 = .getTkl ∧
    decodeOpcode 0x04 = .getCode ∧ decodeOpcode 0x05 = .getMid ∧ decodeOpcode 0x11 = .setVer ∧
    decodeOpcode 0x12 = .setType ∧ decodeOpcode 0x13 = .setTkl ∧ decodeOpcode 0x14 = .setCode ∧
    decodeOpcode 0x15 = .setMid ∧ decodeOpcode 0x16 = .buildHdr ∧ decodeOpcode 0x20 = .decOpt ∧
    decodeOpcode 0x21 = .cntOpt ∧ decodeOpcode 0x22 = .getOpt ∧ decodeOpcode 0x30 = .optHlen ∧
    decodeOpcode 0x31 = .optHbld ∧ decodeOpcode 0x32 = .addOpt ∧ decodeOpcode 0x40 = .getPayload ∧
    decodeOpcode 0x41 = .setPayload ∧ decodeOpcode 0x50 = .validate) ∧
  decode .hdrByte0 [0x52] = .ok (.wireHdrByte0 1 1 2, []) ∧ decode .hdrByte1 [0x45] = .ok (.wireHdrByte1 0x45, []) ∧
  decode .hdrMid [0x12, 0x34] = .ok (.wireHdrMid 0x1234, []) ∧ decode .item [0xFF] = .ok (.wireMarker, []) ∧
  decode .item [0xF0] = .ok (.wireTlvReservedDelta15 0, []) ∧ decode .item [0xEF] = .ok (.wireTlvReservedLen15 14, []) ∧
  decode .tlvHeader [0xB1, 0x61] = .ok (.wireTlvDlitLlit 11 1, [0x61]) ∧
  decode .tlvHeader [0xED, 0x00, 0x14, 0x01] = .ok (.wireTlvDext2Lext1 20 1, []) ∧
  decode .tlvHeader [0xE0, 0x00] = .error .truncated

/-! ### Wire items as instructions (logs 10, 11) -/

/-- R207 with R163, R166: a TLV entry of each of the nine classes at `CURSOR`, its header and value below `LEN`, advances
`OPTNUM` by its delta and `CURSOR` past it. That a wire row is executed so is the model's reading of R23 (log 10). -/
def Obligations.TlvClassesAdvance : Prop :=
  ∀ (s : State) (i : Instr) (size d l : Nat),
  (∃ a b : Nibble, i = .wireTlvDlitLlit a b ∧ size = 1 ∧ d = a.toNat ∧ l = b.toNat) ∨
  (∃ (a : Nibble) (b : Byte), i = .wireTlvDlitLext1 a b ∧ size = 2 ∧ d = a.toNat ∧ l = b.toNat + 13) ∨
  (∃ (a : Nibble) (b : Half), i = .wireTlvDlitLext2 a b ∧ size = 3 ∧ d = a.toNat ∧ l = b.toNat + 269) ∨
  (∃ (a : Byte) (b : Nibble), i = .wireTlvDext1Llit b a ∧ size = 2 ∧ d = a.toNat + 13 ∧ l = b.toNat) ∨
  (∃ a b : Byte, i = .wireTlvDext1Lext1 a b ∧ size = 3 ∧ d = a.toNat + 13 ∧ l = b.toNat + 13) ∨
  (∃ (a : Byte) (b : Half), i = .wireTlvDext1Lext2 a b ∧ size = 4 ∧ d = a.toNat + 13 ∧ l = b.toNat + 269) ∨
  (∃ (a : Half) (b : Nibble), i = .wireTlvDext2Llit b a ∧ size = 3 ∧ d = a.toNat + 269 ∧ l = b.toNat) ∨
  (∃ (a : Half) (b : Byte), i = .wireTlvDext2Lext1 a b ∧ size = 4 ∧ d = a.toNat + 269 ∧ l = b.toNat + 13) ∨
  (∃ a b : Half, i = .wireTlvDext2Lext2 a b ∧ size = 5 ∧ d = a.toNat + 269 ∧ l = b.toNat + 269) →
  s.len.toNat ≤ 1460 → s.cursor.toNat < s.len.toNat →
  (s.cursor.toNat + size + l ≤ s.len.toNat →
    exec i s = .next
      { s.doneWith (BitVec.ofNat 32 l) (BitVec.ofNat 32 (s.cursor.toNat + size)) (s.optnum + BitVec.ofNat 32 d) with
        cursor := BitVec.ofNat 16 (s.cursor.toNat + size + l), optnum := s.optnum + BitVec.ofNat 32 d }) ∧
  (s.len.toNat < s.cursor.toNat + size + l → exec i s = .next (s.failedWith .invalidPacket))

/-- R101, R104: the marker, the reserved nibbles, and a TLV header byte whose extension bytes stand after it in the buffer
(log 10). -/
def Obligations.ItemHeadsEnd : Prop := ∀ (s : State) (d l : Nibble),
  s.len.toNat ≤ 1460 → s.cursor.toNat < s.len.toNat →
  exec .wireMarker s = .next (s.failedWith .foundPayloadMarker) ∧
  exec (.wireTlvReservedDelta15 l) s = .next (s.failedWith .invalidPacket) ∧
  exec (.wireTlvReservedLen15 d) s = .next (s.failedWith .invalidPacket) ∧
  ∀ v n : Nat, d ≠ 15 → l ≠ 15 → v = s.cursor.toNat + 1 + extCount d + extCount l →
    n = resolved s l (s.cursor.toNat + 1 + extCount d) → v + n ≤ s.len.toNat →
    exec (.wireTlv d l) s = .next
      { s.doneWith (BitVec.ofNat 32 n) (BitVec.ofNat 32 v)
          (s.optnum + BitVec.ofNat 32 (resolved s d (s.cursor.toNat + 1))) with
        cursor := BitVec.ofNat 16 (v + n)
        optnum := s.optnum + BitVec.ofNat 32 (resolved s d (s.cursor.toNat + 1)) }

/-- R23, R104, R160: `DEC_OPT` is the execution of the wire item at `CURSOR`: whichever wire row the bytes from `CURSOR` to the
end of the message decode to, `DEC_OPT` does what that row does (log 10). -/
def Obligations.DecOptRunsTheItemAtCursor : Prop := ∀ (s : State) (i : Instr) (rest : List Byte),
  s.cursor.toNat < s.len.toNat →
  decode .item ((List.range' s.cursor.toNat (s.len.toNat - s.cursor.toNat)).map s.bufByte) = .ok (i, rest) ∨
  decode .tlvHeader ((List.range' s.cursor.toNat (s.len.toNat - s.cursor.toNat)).map s.bufByte) = .ok (i, rest) →
  exec .decOpt s = exec i s

/-- R130 to R135 on the header rows (log 11): a header item does what the commands that decode it do when it stands in the
header; byte 0 the first failing one of `GET_VER`, `GET_TYPE`, `GET_TKL`, and otherwise `GET_TKL`. They complete on a message of 4
to 1460 bytes with the fields in their ranges. -/
def Obligations.HeaderItemsAreTheirCommands : Prop := ∀ s : State,
  exec (.wireHdrByte1 (s.bufByte 1)) s = exec .getCode s ∧
  exec (.wireHdrMid (halfOf (s.bufByte 2) (s.bufByte 3))) s = exec .getMid s ∧
  (verField (s.bufByte 0) = 1 →
    exec (.wireHdrByte0 (verField (s.bufByte 0)) (typeField (s.bufByte 0)) (tklField (s.bufByte 0))) s =
      exec .getTkl s) ∧
  (verField (s.bufByte 0) ≠ 1 →
    exec (.wireHdrByte0 (verField (s.bufByte 0)) (typeField (s.bufByte 0)) (tklField (s.bufByte 0))) s =
      exec .getVer s) ∧
  ∀ (t : BitVec 2) (k : Nibble) (c : Byte) (m : Half), 4 ≤ s.len.toNat → s.len.toNat ≤ 1460 →
    (k.toNat ≤ 8 → exec (.wireHdrByte0 1 t k) s = .next (s.doneWith (k.zeroExtend 32) 0 0)) ∧
    (Config.codeSet c = true → exec (.wireHdrByte1 c) s = .next (s.doneWith (c.zeroExtend 32) 0 0)) ∧
    exec (.wireHdrMid m) s = .next (s.doneWith (m.zeroExtend 32) 0 0)
end

