-- ==== Sys2Proof/Laws/Decode.lean ====
section
/-! SUPPORT. The small laws of the bit-field helpers of Decode.lean. -/

namespace Sys2Proof

@[simp] theorem hiNibble_nibbles (d l : Nibble) : hiNibble (nibbles d l) = d := by
  revert d l; decide

@[simp] theorem loNibble_nibbles (d l : Nibble) : loNibble (nibbles d l) = l := by
  revert d l; decide

@[simp] theorem nibbles_hi_lo (b : Byte) : nibbles (hiNibble b) (loNibble b) = b := by
  revert b; decide

@[simp] theorem verField_hdrByte (v t : BitVec 2) (k : Nibble) : verField (hdrByte v t k) = v := by
  revert v t k; decide

@[simp] theorem typeField_hdrByte (v t : BitVec 2) (k : Nibble) : typeField (hdrByte v t k) = t := by
  revert v t k; decide

@[simp] theorem tklField_hdrByte (v t : BitVec 2) (k : Nibble) : tklField (hdrByte v t k) = k := by
  revert v t k; decide

@[simp] theorem hdrByte_fields (b : Byte) : hdrByte (verField b) (typeField b) (tklField b) = b := by
  revert b; decide

/-- The two-byte quantity is the big-endian sum (R60). -/
theorem halfOf_toNat (x y : Byte) : (halfOf x y).toNat = x.toNat * 256 + y.toNat := by
  simp only [halfOf, BitVec.toNat_append]
  rw [← Nat.shiftLeft_add_eq_or_of_lt y.isLt, Nat.shiftLeft_eq]

theorem hiByte_toNat (h : Half) : (hiByte h).toNat = h.toNat / 256 := by
  have := h.isLt
  simp only [hiByte, BitVec.extractLsb'_toNat, Nat.shiftRight_eq_div_pow]
  omega

theorem loByte_toNat (h : Half) : (loByte h).toNat = h.toNat % 256 := by
  simp only [loByte, BitVec.extractLsb'_toNat, Nat.shiftRight_zero]

@[simp] theorem hiByte_halfOf (x y : Byte) : hiByte (halfOf x y) = x := by
  apply BitVec.eq_of_toNat_eq
  have := y.isLt
  rw [hiByte_toNat, halfOf_toNat]
  omega

@[simp] theorem loByte_halfOf (x y : Byte) : loByte (halfOf x y) = y := by
  apply BitVec.eq_of_toNat_eq
  have := y.isLt
  rw [loByte_toNat, halfOf_toNat]
  omega

@[simp] theorem halfOf_hi_lo (h : Half) : halfOf (hiByte h) (loByte h) = h := by
  apply BitVec.eq_of_toNat_eq
  rw [halfOf_toNat, hiByte_toNat, loByte_toNat]
  omega

/-- The marker is the one byte with both nibbles 15. -/
theorem eq_marker_iff (b : Byte) : b = 0xFF ↔ hiNibble b = 15 ∧ loNibble b = 15 := by
  revert b; decide

end Sys2Proof
end

