-- ==== Sys2Proof/Laws/State.lean ====
section
/-! SUPPORT. One lemma per field per update of the state, so that no proof unfolds a record update. -/

namespace Sys2Proof.Machine

/-! ### complete -/

@[simp] theorem complete_buf (r : Results) (s : State) : (complete r s).buf = s.buf := rfl
@[simp] theorem complete_val (r : Results) (s : State) : (complete r s).val = s.val := rfl
@[simp] theorem complete_cmd (r : Results) (s : State) : (complete r s).cmd = s.cmd := rfl
@[simp] theorem complete_status (r : Results) (s : State) : (complete r s).status = Status.ended none := rfl
@[simp] theorem complete_len (r : Results) (s : State) : (complete r s).len = s.len := rfl
@[simp] theorem complete_cursor (r : Results) (s : State) : (complete r s).cursor = s.cursor := rfl
@[simp] theorem complete_optnum (r : Results) (s : State) : (complete r s).optnum = s.optnum := rfl
@[simp] theorem complete_arg0 (r : Results) (s : State) : (complete r s).arg0 = s.arg0 := rfl
@[simp] theorem complete_arg1 (r : Results) (s : State) : (complete r s).arg1 = s.arg1 := rfl
@[simp] theorem complete_arg2 (r : Results) (s : State) : (complete r s).arg2 = s.arg2 := rfl
@[simp] theorem complete_arg3 (r : Results) (s : State) : (complete r s).arg3 = s.arg3 := rfl
@[simp] theorem complete_arg4 (r : Results) (s : State) : (complete r s).arg4 = s.arg4 := rfl
@[simp] theorem complete_res (r : Results) (s : State) : (complete r s).res = r := rfl
@[simp] theorem complete_vstate (r : Results) (s : State) : (complete r s).vstate = s.vstate := rfl
@[simp] theorem complete_draw (r : Results) (s : State) : (complete r s).draw = s.draw := rfl
@[simp] theorem complete_hostIn (r : Results) (s : State) : (complete r s).hostIn = s.hostIn := rfl

/-! ### raiseWith -/

@[simp] theorem raiseWith_buf (e : Err) (r0 : Word) (s : State) : (raiseWith e r0 s).buf = s.buf := rfl
@[simp] theorem raiseWith_val (e : Err) (r0 : Word) (s : State) : (raiseWith e r0 s).val = s.val := rfl
@[simp] theorem raiseWith_cmd (e : Err) (r0 : Word) (s : State) : (raiseWith e r0 s).cmd = s.cmd := rfl
@[simp] theorem raiseWith_status (e : Err) (r0 : Word) (s : State) : (raiseWith e r0 s).status = Status.ended (some e) := rfl
@[simp] theorem raiseWith_len (e : Err) (r0 : Word) (s : State) : (raiseWith e r0 s).len = s.len := rfl
@[simp] theorem raiseWith_cursor (e : Err) (r0 : Word) (s : State) : (raiseWith e r0 s).cursor = s.cursor := rfl
@[simp] theorem raiseWith_optnum (e : Err) (r0 : Word) (s : State) : (raiseWith e r0 s).optnum = s.optnum := rfl
@[simp] theorem raiseWith_arg0 (e : Err) (r0 : Word) (s : State) : (raiseWith e r0 s).arg0 = s.arg0 := rfl
@[simp] theorem raiseWith_arg1 (e : Err) (r0 : Word) (s : State) : (raiseWith e r0 s).arg1 = s.arg1 := rfl
@[simp] theorem raiseWith_arg2 (e : Err) (r0 : Word) (s : State) : (raiseWith e r0 s).arg2 = s.arg2 := rfl
@[simp] theorem raiseWith_arg3 (e : Err) (r0 : Word) (s : State) : (raiseWith e r0 s).arg3 = s.arg3 := rfl
@[simp] theorem raiseWith_arg4 (e : Err) (r0 : Word) (s : State) : (raiseWith e r0 s).arg4 = s.arg4 := rfl
@[simp] theorem raiseWith_res (e : Err) (r0 : Word) (s : State) : (raiseWith e r0 s).res = ⟨r0, 0, 0⟩ := rfl
@[simp] theorem raiseWith_vstate (e : Err) (r0 : Word) (s : State) : (raiseWith e r0 s).vstate = s.vstate := rfl
@[simp] theorem raiseWith_draw (e : Err) (r0 : Word) (s : State) : (raiseWith e r0 s).draw = s.draw := rfl
@[simp] theorem raiseWith_hostIn (e : Err) (r0 : Word) (s : State) : (raiseWith e r0 s).hostIn = s.hostIn := rfl

/-! ### raise -/

@[simp] theorem raise_buf (e : Err) (s : State) : (raise e s).buf = s.buf := rfl
@[simp] theorem raise_val (e : Err) (s : State) : (raise e s).val = s.val := rfl
@[simp] theorem raise_cmd (e : Err) (s : State) : (raise e s).cmd = s.cmd := rfl
@[simp] theorem raise_status (e : Err) (s : State) : (raise e s).status = Status.ended (some e) := rfl
@[simp] theorem raise_len (e : Err) (s : State) : (raise e s).len = s.len := rfl
@[simp] theorem raise_cursor (e : Err) (s : State) : (raise e s).cursor = s.cursor := rfl
@[simp] theorem raise_optnum (e : Err) (s : State) : (raise e s).optnum = s.optnum := rfl
@[simp] theorem raise_arg0 (e : Err) (s : State) : (raise e s).arg0 = s.arg0 := rfl
@[simp] theorem raise_arg1 (e : Err) (s : State) : (raise e s).arg1 = s.arg1 := rfl
@[simp] theorem raise_arg2 (e : Err) (s : State) : (raise e s).arg2 = s.arg2 := rfl
@[simp] theorem raise_arg3 (e : Err) (s : State) : (raise e s).arg3 = s.arg3 := rfl
@[simp] theorem raise_arg4 (e : Err) (s : State) : (raise e s).arg4 = s.arg4 := rfl
@[simp] theorem raise_res (e : Err) (s : State) : (raise e s).res = ⟨0, 0, 0⟩ := rfl
@[simp] theorem raise_vstate (e : Err) (s : State) : (raise e s).vstate = s.vstate := rfl
@[simp] theorem raise_draw (e : Err) (s : State) : (raise e s).draw = s.draw := rfl
@[simp] theorem raise_hostIn (e : Err) (s : State) : (raise e s).hostIn = s.hostIn := rfl

/-! ### startCommand -/

@[simp] theorem startCommand_buf (o : Byte) (s : State) : (startCommand o s).buf = s.buf := rfl
@[simp] theorem startCommand_val (o : Byte) (s : State) : (startCommand o s).val = s.val := rfl
@[simp] theorem startCommand_cmd (o : Byte) (s : State) : (startCommand o s).cmd = o := rfl
@[simp] theorem startCommand_status (o : Byte) (s : State) : (startCommand o s).status = Status.started := rfl
@[simp] theorem startCommand_len (o : Byte) (s : State) : (startCommand o s).len = s.len := rfl
@[simp] theorem startCommand_cursor (o : Byte) (s : State) : (startCommand o s).cursor = s.cursor := rfl
@[simp] theorem startCommand_optnum (o : Byte) (s : State) : (startCommand o s).optnum = s.optnum := rfl
@[simp] theorem startCommand_arg0 (o : Byte) (s : State) : (startCommand o s).arg0 = s.arg0 := rfl
@[simp] theorem startCommand_arg1 (o : Byte) (s : State) : (startCommand o s).arg1 = s.arg1 := rfl
@[simp] theorem startCommand_arg2 (o : Byte) (s : State) : (startCommand o s).arg2 = s.arg2 := rfl
@[simp] theorem startCommand_arg3 (o : Byte) (s : State) : (startCommand o s).arg3 = s.arg3 := rfl
@[simp] theorem startCommand_arg4 (o : Byte) (s : State) : (startCommand o s).arg4 = s.arg4 := rfl
@[simp] theorem startCommand_res (o : Byte) (s : State) : (startCommand o s).res = s.res := rfl
@[simp] theorem startCommand_vstate (o : Byte) (s : State) : (startCommand o s).vstate = s.vstate := rfl
@[simp] theorem startCommand_draw (o : Byte) (s : State) : (startCommand o s).draw = s.draw := rfl
@[simp] theorem startCommand_hostIn (o : Byte) (s : State) : (startCommand o s).hostIn = s.hostIn := rfl

/-! ### enterStage -/

@[simp] theorem enterStage_buf (st : Stage) (i : Nat) (s : State) : (enterStage st i s).buf = s.buf := rfl
@[simp] theorem enterStage_val (st : Stage) (i : Nat) (s : State) : (enterStage st i s).val = s.val := rfl
@[simp] theorem enterStage_cmd (st : Stage) (i : Nat) (s : State) : (enterStage st i s).cmd = s.cmd := rfl
@[simp] theorem enterStage_status (st : Stage) (i : Nat) (s : State) : (enterStage st i s).status = s.status := rfl
@[simp] theorem enterStage_len (st : Stage) (i : Nat) (s : State) : (enterStage st i s).len = s.len := rfl
@[simp] theorem enterStage_cursor (st : Stage) (i : Nat) (s : State) : (enterStage st i s).cursor = s.cursor := rfl
@[simp] theorem enterStage_optnum (st : Stage) (i : Nat) (s : State) : (enterStage st i s).optnum = s.optnum := rfl
@[simp] theorem enterStage_arg0 (st : Stage) (i : Nat) (s : State) : (enterStage st i s).arg0 = s.arg0 := rfl
@[simp] theorem enterStage_arg1 (st : Stage) (i : Nat) (s : State) : (enterStage st i s).arg1 = s.arg1 := rfl
@[simp] theorem enterStage_arg2 (st : Stage) (i : Nat) (s : State) : (enterStage st i s).arg2 = s.arg2 := rfl
@[simp] theorem enterStage_arg3 (st : Stage) (i : Nat) (s : State) : (enterStage st i s).arg3 = s.arg3 := rfl
@[simp] theorem enterStage_arg4 (st : Stage) (i : Nat) (s : State) : (enterStage st i s).arg4 = s.arg4 := rfl
@[simp] theorem enterStage_res (st : Stage) (i : Nat) (s : State) : (enterStage st i s).res = s.res := rfl
@[simp] theorem enterStage_vstate (st : Stage) (i : Nat) (s : State) : (enterStage st i s).vstate = ⟨st, BitVec.ofNat 16 i⟩ := rfl
@[simp] theorem enterStage_draw (st : Stage) (i : Nat) (s : State) : (enterStage st i s).draw = s.draw := rfl
@[simp] theorem enterStage_hostIn (st : Stage) (i : Nat) (s : State) : (enterStage st i s).hostIn = s.hostIn := rfl

/-! ### resetPin -/

@[simp] theorem resetPin_buf (s : State) : (resetPin s).buf = State.reset.buf := rfl
@[simp] theorem resetPin_val (s : State) : (resetPin s).val = State.reset.val := rfl
@[simp] theorem resetPin_cmd (s : State) : (resetPin s).cmd = State.reset.cmd := rfl
@[simp] theorem resetPin_status (s : State) : (resetPin s).status = State.reset.status := rfl
@[simp] theorem resetPin_len (s : State) : (resetPin s).len = State.reset.len := rfl
@[simp] theorem resetPin_cursor (s : State) : (resetPin s).cursor = State.reset.cursor := rfl
@[simp] theorem resetPin_optnum (s : State) : (resetPin s).optnum = State.reset.optnum := rfl
@[simp] theorem resetPin_arg0 (s : State) : (resetPin s).arg0 = State.reset.arg0 := rfl
@[simp] theorem resetPin_arg1 (s : State) : (resetPin s).arg1 = State.reset.arg1 := rfl
@[simp] theorem resetPin_arg2 (s : State) : (resetPin s).arg2 = State.reset.arg2 := rfl
@[simp] theorem resetPin_arg3 (s : State) : (resetPin s).arg3 = State.reset.arg3 := rfl
@[simp] theorem resetPin_arg4 (s : State) : (resetPin s).arg4 = State.reset.arg4 := rfl
@[simp] theorem resetPin_res (s : State) : (resetPin s).res = State.reset.res := rfl
@[simp] theorem resetPin_vstate (s : State) : (resetPin s).vstate = State.reset.vstate := rfl
@[simp] theorem resetPin_draw (s : State) : (resetPin s).draw = s.draw + 1 := rfl
@[simp] theorem resetPin_hostIn (s : State) : (resetPin s).hostIn = s.hostIn := rfl

/-! ### writeBuf -/

@[simp] theorem writeBuf_val (a : Nat) (b : Byte) (s : State) : (writeBuf a b s).val = s.val := by unfold writeBuf; split <;> rfl
@[simp] theorem writeBuf_cmd (a : Nat) (b : Byte) (s : State) : (writeBuf a b s).cmd = s.cmd := by unfold writeBuf; split <;> rfl
@[simp] theorem writeBuf_status (a : Nat) (b : Byte) (s : State) : (writeBuf a b s).status = s.status := by unfold writeBuf; split <;> rfl
@[simp] theorem writeBuf_len (a : Nat) (b : Byte) (s : State) : (writeBuf a b s).len = s.len := by unfold writeBuf; split <;> rfl
@[simp] theorem writeBuf_cursor (a : Nat) (b : Byte) (s : State) : (writeBuf a b s).cursor = s.cursor := by unfold writeBuf; split <;> rfl
@[simp] theorem writeBuf_optnum (a : Nat) (b : Byte) (s : State) : (writeBuf a b s).optnum = s.optnum := by unfold writeBuf; split <;> rfl
@[simp] theorem writeBuf_arg0 (a : Nat) (b : Byte) (s : State) : (writeBuf a b s).arg0 = s.arg0 := by unfold writeBuf; split <;> rfl
@[simp] theorem writeBuf_arg1 (a : Nat) (b : Byte) (s : State) : (writeBuf a b s).arg1 = s.arg1 := by unfold writeBuf; split <;> rfl
@[simp] theorem writeBuf_arg2 (a : Nat) (b : Byte) (s : State) : (writeBuf a b s).arg2 = s.arg2 := by unfold writeBuf; split <;> rfl
@[simp] theorem writeBuf_arg3 (a : Nat) (b : Byte) (s : State) : (writeBuf a b s).arg3 = s.arg3 := by unfold writeBuf; split <;> rfl
@[simp] theorem writeBuf_arg4 (a : Nat) (b : Byte) (s : State) : (writeBuf a b s).arg4 = s.arg4 := by unfold writeBuf; split <;> rfl
@[simp] theorem writeBuf_res (a : Nat) (b : Byte) (s : State) : (writeBuf a b s).res = s.res := by unfold writeBuf; split <;> rfl
@[simp] theorem writeBuf_vstate (a : Nat) (b : Byte) (s : State) : (writeBuf a b s).vstate = s.vstate := by unfold writeBuf; split <;> rfl
@[simp] theorem writeBuf_draw (a : Nat) (b : Byte) (s : State) : (writeBuf a b s).draw = s.draw := by unfold writeBuf; split <;> rfl
@[simp] theorem writeBuf_hostIn (a : Nat) (b : Byte) (s : State) : (writeBuf a b s).hostIn = s.hostIn := by unfold writeBuf; split <;> rfl

/-! ### writeVal -/

@[simp] theorem writeVal_buf (a : Nat) (b : Byte) (s : State) : (writeVal a b s).buf = s.buf := by unfold writeVal; split <;> rfl
@[simp] theorem writeVal_cmd (a : Nat) (b : Byte) (s : State) : (writeVal a b s).cmd = s.cmd := by unfold writeVal; split <;> rfl
@[simp] theorem writeVal_status (a : Nat) (b : Byte) (s : State) : (writeVal a b s).status = s.status := by unfold writeVal; split <;> rfl
@[simp] theorem writeVal_len (a : Nat) (b : Byte) (s : State) : (writeVal a b s).len = s.len := by unfold writeVal; split <;> rfl
@[simp] theorem writeVal_cursor (a : Nat) (b : Byte) (s : State) : (writeVal a b s).cursor = s.cursor := by unfold writeVal; split <;> rfl
@[simp] theorem writeVal_optnum (a : Nat) (b : Byte) (s : State) : (writeVal a b s).optnum = s.optnum := by unfold writeVal; split <;> rfl
@[simp] theorem writeVal_arg0 (a : Nat) (b : Byte) (s : State) : (writeVal a b s).arg0 = s.arg0 := by unfold writeVal; split <;> rfl
@[simp] theorem writeVal_arg1 (a : Nat) (b : Byte) (s : State) : (writeVal a b s).arg1 = s.arg1 := by unfold writeVal; split <;> rfl
@[simp] theorem writeVal_arg2 (a : Nat) (b : Byte) (s : State) : (writeVal a b s).arg2 = s.arg2 := by unfold writeVal; split <;> rfl
@[simp] theorem writeVal_arg3 (a : Nat) (b : Byte) (s : State) : (writeVal a b s).arg3 = s.arg3 := by unfold writeVal; split <;> rfl
@[simp] theorem writeVal_arg4 (a : Nat) (b : Byte) (s : State) : (writeVal a b s).arg4 = s.arg4 := by unfold writeVal; split <;> rfl
@[simp] theorem writeVal_res (a : Nat) (b : Byte) (s : State) : (writeVal a b s).res = s.res := by unfold writeVal; split <;> rfl
@[simp] theorem writeVal_vstate (a : Nat) (b : Byte) (s : State) : (writeVal a b s).vstate = s.vstate := by unfold writeVal; split <;> rfl
@[simp] theorem writeVal_draw (a : Nat) (b : Byte) (s : State) : (writeVal a b s).draw = s.draw := by unfold writeVal; split <;> rfl
@[simp] theorem writeVal_hostIn (a : Nat) (b : Byte) (s : State) : (writeVal a b s).hostIn = s.hostIn := by unfold writeVal; split <;> rfl

/-! ### writeBufBytes -/

/-- Storing bytes changes `BUF` alone. -/
theorem writeBufBytes_eq (bs : List Byte) : ∀ (a : Nat) (s : State),
    writeBufBytes a bs s = { s with buf := (writeBufBytes a bs s).buf } := by
  induction bs with
  | nil => intro a s; rfl
  | cons b bs ih =>
    intro a s
    have h := ih (a + 1) (writeBuf a b s)
    simp only [writeBufBytes]
    rw [h]
    simp

@[simp] theorem writeBufBytes_val (a : Nat) (bs : List Byte) (s : State) : (writeBufBytes a bs s).val = s.val := by
  rw [writeBufBytes_eq]
@[simp] theorem writeBufBytes_cmd (a : Nat) (bs : List Byte) (s : State) : (writeBufBytes a bs s).cmd = s.cmd := by
  rw [writeBufBytes_eq]
@[simp] theorem writeBufBytes_status (a : Nat) (bs : List Byte) (s : State) : (writeBufBytes a bs s).status = s.status := by
  rw [writeBufBytes_eq]
@[simp] theorem writeBufBytes_len (a : Nat) (bs : List Byte) (s : State) : (writeBufBytes a bs s).len = s.len := by
  rw [writeBufBytes_eq]
@[simp] theorem writeBufBytes_cursor (a : Nat) (bs : List Byte) (s : State) : (writeBufBytes a bs s).cursor = s.cursor := by
  rw [writeBufBytes_eq]
@[simp] theorem writeBufBytes_optnum (a : Nat) (bs : List Byte) (s : State) : (writeBufBytes a bs s).optnum = s.optnum := by
  rw [writeBufBytes_eq]
@[simp] theorem writeBufBytes_arg0 (a : Nat) (bs : List Byte) (s : State) : (writeBufBytes a bs s).arg0 = s.arg0 := by
  rw [writeBufBytes_eq]
@[simp] theorem writeBufBytes_arg1 (a : Nat) (bs : List Byte) (s : State) : (writeBufBytes a bs s).arg1 = s.arg1 := by
  rw [writeBufBytes_eq]
@[simp] theorem writeBufBytes_arg2 (a : Nat) (bs : List Byte) (s : State) : (writeBufBytes a bs s).arg2 = s.arg2 := by
  rw [writeBufBytes_eq]
@[simp] theorem writeBufBytes_arg3 (a : Nat) (bs : List Byte) (s : State) : (writeBufBytes a bs s).arg3 = s.arg3 := by
  rw [writeBufBytes_eq]
@[simp] theorem writeBufBytes_arg4 (a : Nat) (bs : List Byte) (s : State) : (writeBufBytes a bs s).arg4 = s.arg4 := by
  rw [writeBufBytes_eq]
@[simp] theorem writeBufBytes_res (a : Nat) (bs : List Byte) (s : State) : (writeBufBytes a bs s).res = s.res := by
  rw [writeBufBytes_eq]
@[simp] theorem writeBufBytes_vstate (a : Nat) (bs : List Byte) (s : State) : (writeBufBytes a bs s).vstate = s.vstate := by
  rw [writeBufBytes_eq]
@[simp] theorem writeBufBytes_draw (a : Nat) (bs : List Byte) (s : State) : (writeBufBytes a bs s).draw = s.draw := by
  rw [writeBufBytes_eq]
@[simp] theorem writeBufBytes_hostIn (a : Nat) (bs : List Byte) (s : State) : (writeBufBytes a bs s).hostIn = s.hostIn := by
  rw [writeBufBytes_eq]

/-! ### Reading a byte after an update that leaves the memories alone -/

@[simp] theorem bufByte_complete (r : Results) (s : State) (a : Nat) : (complete r s).bufByte a = s.bufByte a := rfl
@[simp] theorem bufByte_raiseWith (e : Err) (r0 : Word) (s : State) (a : Nat) :
    (raiseWith e r0 s).bufByte a = s.bufByte a := rfl
@[simp] theorem bufByte_raise (e : Err) (s : State) (a : Nat) : (raise e s).bufByte a = s.bufByte a := rfl
@[simp] theorem bufByte_startCommand (o : Byte) (s : State) (a : Nat) :
    (startCommand o s).bufByte a = s.bufByte a := rfl
@[simp] theorem bufByte_enterStage (st : Stage) (i : Nat) (s : State) (a : Nat) :
    (enterStage st i s).bufByte a = s.bufByte a := rfl

/-- Two states with the same `BUF` and the same draw read alike. -/
theorem bufByte_congr {s t : State} (hb : t.buf = s.buf) (hd : t.draw = s.draw) (a : Nat) :
    t.bufByte a = s.bufByte a := by simp [State.bufByte, hb, hd]

/-! ### The registers the host reads as packed words -/

theorem errCode_le (e : Option Err) : errCode e ≤ 12 := by
  rcases e with _ | e
  · decide
  · cases e <;> decide

theorem Stage.code_le (st : Stage) : st.code ≤ 8 := by cases st <;> decide

/-- No field of `STATUS` overlaps another (R28). -/
theorem toNat_statusWord (t : Status) :
    t.word.toNat = errCode t.err + (if t.done then 256 else 0) + (if t.busy then 512 else 0) := by
  have := errCode_le t.err
  rw [Status.word, BitVec.toNat_ofNat]
  exact Nat.mod_eq_of_lt (by split_ifs <;> omega)

/-- No field of `VSTATE` overlaps the other (R29). -/
theorem toNat_vstateWord (v : VState) : v.word.toNat = v.stage.code + v.optIdx.toNat * 65536 := by
  have := v.stage.code_le
  rw [VState.word, BitVec.toNat_ofNat]
  exact Nat.mod_eq_of_lt (by omega)

end Sys2Proof.Machine
end

