-- ==== Sys2Proof/Laws/Memory.lean ====
section
/-! SUPPORT. What the memory operations do: a read after a write, the bytes left alone, and the canonical form. -/

namespace Sys2Proof.Machine

/-! ### One byte of a memory -/

theorem lookup_store_same (m : Memory) (a : Nat) (b : Byte) : Memory.lookup (Memory.store m a b) a = some b := by
  induction m with
  | nil => simp [Memory.store, Memory.lookup]
  | cons c m ih =>
    obtain ⟨k, x⟩ := c
    by_cases h1 : a < k
    · simp [Memory.store, Memory.lookup, h1]
    · by_cases h2 : a = k
      · simp [Memory.store, Memory.lookup, h2]
      · have h3 : k ≠ a := fun h => h2 h.symm
        simp [Memory.store, Memory.lookup, h1, h2, h3, ih]

theorem lookup_store_ne (m : Memory) {a c : Nat} (b : Byte) (h : c ≠ a) :
    Memory.lookup (Memory.store m a b) c = Memory.lookup m c := by
  induction m with
  | nil => simp [Memory.store, Memory.lookup, Ne.symm h]
  | cons d m ih =>
    obtain ⟨k, x⟩ := d
    by_cases h1 : a < k
    · simp [Memory.store, Memory.lookup, h1, Ne.symm h]
    · by_cases h2 : a = k
      · subst h2; simp [Memory.store, Memory.lookup, Ne.symm h]
      · simp [Memory.store, Memory.lookup, h1, h2, ih]

/-- Storing a byte inside the memory keeps the canonical form from any lower bound. -/
theorem wfFrom_store (m : Memory) : ∀ (lo a : Nat) (b : Byte), lo ≤ a → a < Config.maxBuf →
    Memory.wfFrom lo m = true → Memory.wfFrom lo (Memory.store m a b) = true := by
  induction m with
  | nil => intro lo a b h1 h2 _; simp [Memory.store, Memory.wfFrom, h1, h2]
  | cons c m ih =>
    obtain ⟨k, x⟩ := c
    intro lo a b h1 h2 h3
    simp only [Memory.wfFrom, Bool.and_eq_true, decide_eq_true_eq] at h3
    obtain ⟨⟨h4, h5⟩, h6⟩ := h3
    by_cases h7 : a < k
    · simp [Memory.store, Memory.wfFrom, h7, h1, h2, h5, h6, Nat.succ_le_of_lt h7]
    · by_cases h8 : a = k
      · subst h8; simp [Memory.store, Memory.wfFrom, h1, h2, h6]
      · have h9 : k + 1 ≤ a := by omega
        simp [Memory.store, Memory.wfFrom, h7, h8, h4, h5, ih (k + 1) a b h9 h2 h6]

/-! ### The byte accessors of the state -/

theorem bufByte_writeBuf_same {a : Nat} (h : a < Config.maxBuf) (b : Byte) (s : State) :
    (writeBuf a b s).bufByte a = b := by
  simp [writeBuf, State.bufByte, h, lookup_store_same]

theorem bufByte_writeBuf_ne {a c : Nat} (h : c ≠ a) (b : Byte) (s : State) :
    (writeBuf a b s).bufByte c = s.bufByte c := by
  unfold writeBuf
  split
  · simp [State.bufByte, lookup_store_ne _ _ h]
  · rfl

theorem valByte_writeVal_same {a : Nat} (h : a < Config.maxBuf) (b : Byte) (s : State) :
    (writeVal a b s).valByte a = b := by
  simp [writeVal, State.valByte, h, lookup_store_same]

theorem valByte_writeVal_ne {a c : Nat} (h : c ≠ a) (b : Byte) (s : State) :
    (writeVal a b s).valByte c = s.valByte c := by
  unfold writeVal
  split
  · simp [State.valByte, lookup_store_ne _ _ h]
  · rfl

theorem bufByte_of_ge {a : Nat} (h : Config.maxBuf ≤ a) (s : State) : s.bufByte a = 0 := by
  simp [State.bufByte, Nat.not_lt.mpr h]

/-- Bytes outside the stored ones read as before. -/
theorem bufByte_writeBufBytes_outside (bs : List Byte) : ∀ (a c : Nat) (s : State),
    (c < a ∨ a + bs.length ≤ c) → (writeBufBytes a bs s).bufByte c = s.bufByte c := by
  induction bs with
  | nil => intro a c s _; rfl
  | cons b bs ih =>
    intro a c s h
    simp only [List.length_cons] at h
    simp only [writeBufBytes]
    rw [ih (a + 1) c _ (by omega), bufByte_writeBuf_ne (by omega)]

/-- The stored bytes read back. -/
theorem bufByte_writeBufBytes_inside (bs : List Byte) : ∀ (a k : Nat) (s : State),
    a + bs.length ≤ Config.maxBuf → k < bs.length → bs[k]? = some ((writeBufBytes a bs s).bufByte (a + k)) := by
  induction bs with
  | nil => intro a k s _ h; simp at h
  | cons b bs ih =>
    intro a k s h hk
    simp only [List.length_cons] at h hk
    simp only [writeBufBytes]
    cases k with
    | zero =>
      have e := bufByte_writeBuf_same (a := a) (by omega) b s
      have o := bufByte_writeBufBytes_outside bs (a + 1) a (writeBuf a b s) (by omega)
      simp [o, e]
    | succ k =>
      have := ih (a + 1) k (writeBuf a b s) (by omega) (by omega)
      rw [show a + (k + 1) = a + 1 + k by omega, ← this]
      rfl

/-! ### The canonical form is kept -/

theorem wf_writeBuf (a : Nat) (b : Byte) (s : State) (h : Memory.wf s.buf = true) :
    Memory.wf (writeBuf a b s).buf = true := by
  unfold writeBuf
  split
  · next ha => exact wfFrom_store _ _ _ _ (Nat.zero_le _) ha h
  · exact h

theorem wf_writeVal (a : Nat) (b : Byte) (s : State) (h : Memory.wf s.val = true) :
    Memory.wf (writeVal a b s).val = true := by
  unfold writeVal
  split
  · next ha => exact wfFrom_store _ _ _ _ (Nat.zero_le _) ha h
  · exact h

theorem wf_writeBufBytes (bs : List Byte) : ∀ (a : Nat) (s : State), Memory.wf s.buf = true →
    Memory.wf (writeBufBytes a bs s).buf = true := by
  induction bs with
  | nil => intro a s h; exact h
  | cons b bs ih => intro a s h; exact ih _ _ (wf_writeBuf a b s h)

theorem wf_reset : Memory.wf State.reset.buf = true ∧ Memory.wf State.reset.val = true := by decide

/-! ### Lengths -/

@[simp] theorem length_beBytes (n : Nat) : ∀ v, (beBytes n v).length = n := by
  induction n with
  | zero => intro v; rfl
  | succ n ih => intro v; simp [beBytes, ih]

@[simp] theorem length_valBytes (s : State) (n : Nat) : (valBytes s n).length = n := by simp [valBytes]

theorem length_extBytes (v : Nat) : (extBytes v).length = extLen v := by
  unfold extBytes extLen
  split
  · rfl
  · split <;> simp

theorem length_optHeader (d l : Nat) : (optHeader d l).length = headerLen d l := by
  simp [optHeader, headerLen, length_extBytes]; omega

end Sys2Proof.Machine
end

