-- ==== Sys2Proof/Laws/Item.lean ====
section
/-! SUPPORT. What `tlv` answers, said once in the terms of Safety.lean: the loops and the commands cite these and never
unfold it. -/

namespace Sys2Proof.Machine

theorem memRead_one (s : State) (q : Nat) : memRead s q 1 = (s.bufByte q).toNat := by simp [memRead]

theorem memRead_two (s : State) (q : Nat) :
    memRead s q 2 = (s.bufByte q).toNat * 256 + (s.bufByte (q + 1)).toNat := by simp [memRead]

theorem extCount_le (n : Nibble) : extCount n ≤ 2 := by unfold extCount; split <;> [omega; (split <;> omega)]

/-- The nibble rule inside the message: the extension must lie below `LEN`. -/
theorem resolveNibble_eq (s : State) (n : Nibble) (q : Nat) (hq : q ≤ s.len.toNat) :
    resolveNibble s n q =
      if n = 15 ∨ s.len.toNat < q + extCount n then .error .invalidPacket
      else .ok (resolved s n q, q + extCount n) := by
  unfold resolveNibble resolved extCount
  by_cases h15 : n = 15
  · simp [h15]
  · by_cases h13 : n = 13
    · simp [h13, memRead_one, Config.ext8Base]
    · by_cases h14 : n = 14
      · simp [h14, memRead_two, Config.ext16Base]
      · have h : ¬ (n = 15 ∨ s.len.toNat < q) := by simp only [h15, false_or]; omega
        simp only [if_neg h15, if_neg h13, if_neg h14, if_neg h, Nat.add_zero]

/-- `Tlv` after the header byte, from an offset inside the message. -/
theorem tlvBody_eq (s : State) (dn ln : Nibble) (q : Nat) (hq : q ≤ s.len.toNat) :
    tlvBody s dn ln q =
      if dn = 15 ∨ ln = 15 ∨
          s.len.toNat < q + extCount dn + extCount ln + resolved s ln (q + extCount dn) then .error .invalidPacket
      else .ok ⟨resolved s dn q, resolved s ln (q + extCount dn), q + extCount dn + extCount ln,
        q + extCount dn + extCount ln + resolved s ln (q + extCount dn)⟩ := by
  unfold tlvBody
  rw [resolveNibble_eq s dn q hq]
  by_cases h1 : dn = 15 ∨ s.len.toNat < q + extCount dn
  · have h2 : dn = 15 ∨ ln = 15 ∨
        s.len.toNat < q + extCount dn + extCount ln + resolved s ln (q + extCount dn) := by
      rcases h1 with h | h
      · exact .inl h
      · exact .inr (.inr (by omega))
    rw [if_pos h1, if_pos h2]
  · rw [if_neg h1]
    rw [not_or] at h1
    dsimp only
    rw [resolveNibble_eq s ln _ (by omega)]
    by_cases h3 : ln = 15 ∨ s.len.toNat < q + extCount dn + extCount ln
    · have h4 : dn = 15 ∨ ln = 15 ∨
          s.len.toNat < q + extCount dn + extCount ln + resolved s ln (q + extCount dn) := by
        rcases h3 with h | h
        · exact .inr (.inl h)
        · exact .inr (.inr (by omega))
      rw [if_pos h3, if_pos h4]
    · rw [if_neg h3]
      rw [not_or] at h3
      by_cases h5 : s.len.toNat < q + extCount dn + extCount ln + resolved s ln (q + extCount dn)
      · simp [h5]
      · rw [if_neg]
        · simp only [gt_iff_lt, if_neg h5]
        · simp only [h1.1, h3.1, h5, or_self, not_false_eq_true]

theorem tlv_past_end (s : State) (pos : Nat) (h : s.len.toNat < pos) : tlv s pos = .error .invalidPacket := by
  simp [tlv, h]

theorem tlv_atEnd (s : State) (pos : Nat) (h : AtEnd s pos) : tlv s pos = .error .endOfPacket := by
  simp [tlv, h]

theorem tlv_atMarker (s : State) (pos : Nat) (h : AtMarker s pos) : tlv s pos = .error .foundPayloadMarker := by
  have h1 : ¬ pos > s.len.toNat := by omega
  have h2 : pos ≠ s.len.toNat := by omega
  simp [tlv, h1, h2, h.2, Config.marker]

theorem tlv_atHeader (s : State) (pos : Nat) (h : AtHeader s pos) :
    tlv s pos = tlvBody s (hiNibble (s.bufByte pos)) (loNibble (s.bufByte pos)) (pos + 1) := by
  have h1 : ¬ pos > s.len.toNat := by omega
  have h2 : pos ≠ s.len.toNat := by omega
  have h3 : s.bufByte pos ≠ 0xFF#8 := h.2
  simp [tlv, h1, h2, Config.marker, h3]

/-- A whole entry decodes to what stands there. -/
theorem tlv_atItem (s : State) (pos : Nat) (h : AtItem s pos) :
    tlv s pos = .ok ⟨deltaAt s pos, lengthAt s pos, valueStart s pos, valueStart s pos + lengthAt s pos⟩ := by
  obtain ⟨h0, h1, h2, h3⟩ := h
  rw [tlv_atHeader s pos h0, tlvBody_eq _ _ _ _ (by omega), if_neg]
  · rfl
  · rintro (h | h | h)
    · exact h1 h
    · exact h2 h
    · simp only [valueStart, lengthAt] at h3; omega

/-- A malformed or truncated entry is `InvalidPacket`. -/
theorem tlv_malformed (s : State) (pos : Nat) (h : Malformed s pos) : tlv s pos = .error .invalidPacket := by
  obtain ⟨h0, h1⟩ := h
  rw [tlv_atHeader s pos h0, tlvBody_eq _ _ _ _ (by omega), if_pos]
  simp only [valueStart, lengthAt] at h1
  rcases h1 with h | h | h | h
  · exact .inl h
  · exact .inr (.inl h)
  · exact .inr (.inr (by omega))
  · exact .inr (.inr h)

/-- Every offset of the message is one of the four. -/
theorem place_cases (s : State) (pos : Nat) (h : pos ≤ s.len.toNat) :
    AtEnd s pos ∨ AtMarker s pos ∨ Malformed s pos ∨ AtItem s pos := by
  by_cases h1 : pos = s.len.toNat
  · exact .inl h1
  have h2 : pos < s.len.toNat := by omega
  by_cases h3 : s.bufByte pos = 0xFF
  · exact .inr (.inl ⟨h2, h3⟩)
  by_cases h4 : hiNibble (s.bufByte pos) = 15
  · exact .inr (.inr (.inl ⟨⟨h2, h3⟩, .inl h4⟩))
  by_cases h5 : loNibble (s.bufByte pos) = 15
  · exact .inr (.inr (.inl ⟨⟨h2, h3⟩, .inr (.inl h5)⟩))
  by_cases h6 : valueStart s pos + lengthAt s pos ≤ s.len.toNat
  · exact .inr (.inr (.inr ⟨⟨h2, h3⟩, h4, h5, h6⟩))
  · exact .inr (.inr (.inl ⟨⟨h2, h3⟩, .inr (.inr (.inr (by omega)))⟩))

/-- What an error of `tlv` says about the place. -/
theorem tlv_error (s : State) (pos : Nat) (e : Err) (h : tlv s pos = .error e) :
    (s.len.toNat < pos ∧ e = .invalidPacket) ∨ (AtEnd s pos ∧ e = .endOfPacket) ∨
    (AtMarker s pos ∧ e = .foundPayloadMarker) ∨ (Malformed s pos ∧ e = .invalidPacket) := by
  by_cases h0 : s.len.toNat < pos
  · rw [tlv_past_end s pos h0] at h
    cases h
    exact .inl ⟨h0, rfl⟩
  · rcases place_cases s pos (by omega) with hp | hp | hp | hp
    · rw [tlv_atEnd s pos hp] at h; cases h; exact .inr (.inl ⟨hp, rfl⟩)
    · rw [tlv_atMarker s pos hp] at h; cases h; exact .inr (.inr (.inl ⟨hp, rfl⟩))
    · rw [tlv_malformed s pos hp] at h; cases h; exact .inr (.inr (.inr ⟨hp, rfl⟩))
    · rw [tlv_atItem s pos hp] at h; cases h

/-- What a success of `tlv` says about the place. -/
theorem tlv_ok (s : State) (pos : Nat) (it : TlvItem) (h : tlv s pos = .ok it) :
    AtItem s pos ∧ it = ⟨deltaAt s pos, lengthAt s pos, valueStart s pos, valueStart s pos + lengthAt s pos⟩ := by
  by_cases h0 : s.len.toNat < pos
  · rw [tlv_past_end s pos h0] at h; cases h
  · rcases place_cases s pos (by omega) with hp | hp | hp | hp
    · rw [tlv_atEnd s pos hp] at h; cases h
    · rw [tlv_atMarker s pos hp] at h; cases h
    · rw [tlv_malformed s pos hp] at h; cases h
    · rw [tlv_atItem s pos hp] at h; cases h; exact ⟨hp, rfl⟩

theorem lt_valueStart (s : State) (pos : Nat) : pos < valueStart s pos := by unfold valueStart; omega

end Sys2Proof.Machine
end

