-- ==== Sys2Proof/Laws/Walk.lean ====
section
/-! SUPPORT. The two loops over the option chain follow the relation `ChainTo` of Safety.lean: what a walk answers from the
place a chain reaches, and that their fuel is enough (log 16). -/

namespace Sys2Proof.Machine

theorem maxBuf_eq : Config.maxBuf = 1460 := rfl
theorem tklMax_eq : Config.tklMax = 8 := rfl

theorem prefixEnd_ok {s : State} {p0 : Nat} (h : HasPrefix s p0) : prefixEnd s = .ok p0 := by
  obtain ⟨h1, h2, h3, h4⟩ := h
  have := maxBuf_eq
  have := tklMax_eq
  unfold prefixEnd
  split_ifs <;> first | rw [h3] | omega

theorem prefixEnd_error {s : State} {e : Err} (h : PrefixFails s e) : prefixEnd s = .error e := by
  have := maxBuf_eq
  have := tklMax_eq
  unfold prefixEnd
  rcases h with ⟨h1, rfl⟩ | ⟨h1, rfl⟩ | ⟨h1, h2, h3, rfl⟩ | ⟨h1, h2, h3, h4, rfl⟩ <;>
    split_ifs <;> first | rfl | omega

/-- A message either has its prefix or fails one of the four tests. -/
theorem prefix_cases (s : State) :
    (∃ p0, HasPrefix s p0 ∧ prefixEnd s = .ok p0) ∨ (∃ e, PrefixFails s e ∧ prefixEnd s = .error e) := by
  by_cases h1 : 1460 < s.len.toNat
  · exact .inr ⟨_, .inl ⟨h1, rfl⟩, prefixEnd_error (.inl ⟨h1, rfl⟩)⟩
  by_cases h2 : s.len.toNat < 4
  · exact .inr ⟨_, .inr (.inl ⟨h2, rfl⟩), prefixEnd_error (.inr (.inl ⟨h2, rfl⟩))⟩
  by_cases h3 : 8 < (tklField (s.bufByte 0)).toNat
  · have h : PrefixFails s .invalidTokenLength := .inr (.inr (.inl ⟨by omega, by omega, h3, rfl⟩))
    exact .inr ⟨_, h, prefixEnd_error h⟩
  by_cases h4 : s.len.toNat < 4 + (tklField (s.bufByte 0)).toNat
  · have h : PrefixFails s .invalidPacket := .inr (.inr (.inr ⟨by omega, by omega, by omega, h4, rfl⟩))
    exact .inr ⟨_, h, prefixEnd_error h⟩
  · have h : HasPrefix s (4 + (tklField (s.bufByte 0)).toNat) := ⟨by omega, by omega, rfl, by omega⟩
    exact .inl ⟨_, h, prefixEnd_ok h⟩

/-- A chain moves on by at least one byte per entry and stays inside the message. -/
theorem ChainTo.bounds {s : State} {p0 cnt pos num : Nat} (hp : p0 ≤ s.len.toNat) (h : ChainTo s p0 cnt pos num) :
    p0 + cnt ≤ pos ∧ pos ≤ s.len.toNat := by
  induction h with
  | start => exact ⟨by omega, hp⟩
  | @item c p n hc hi ih =>
    have := lt_valueStart s p
    obtain ⟨-, -, -, h4⟩ := hi
    exact ⟨by omega, h4⟩

/-- Walking on from the place a chain reaches is walking from its start. -/
theorem walkFrom_chain {s : State} {p0 cnt pos num : Nat} (h : ChainTo s p0 cnt pos num) (fuel : Nat) :
    walkFrom s (fuel + cnt) p0 0 0 = walkFrom s fuel pos num cnt := by
  induction h generalizing fuel with
  | start => rfl
  | item hc hi ih =>
    have := ih (fuel + 1)
    rw [Nat.add_right_comm] at this
    rw [← Nat.add_assoc, this, walkFrom, tlv_atItem _ _ hi]

/-- The same of the `GET_OPT` loop, with at least as many options to pass. -/
theorem optFrom_chain {s : State} {p0 cnt pos num : Nat} (h : ChainTo s p0 cnt pos num) (fuel k : Nat) :
    optFrom s (fuel + cnt) p0 0 (k + cnt) = optFrom s fuel pos num k := by
  induction h generalizing fuel k with
  | start => rfl
  | item hc hi ih =>
    have := ih (fuel + 1) (k + 1)
    rw [Nat.add_right_comm, Nat.add_right_comm k] at this
    rw [← Nat.add_assoc, ← Nat.add_assoc, this, optFrom, tlv_atItem _ _ hi]
    simp

/-- What `walk` answers, by the place its chain ends at. -/
theorem walk_atEnd {s : State} {p0 cnt pos num : Nat} (hp : HasPrefix s p0) (h : ChainTo s p0 cnt pos num)
    (he : AtEnd s pos) : walk s = .ok ⟨cnt, pos, num, .atEnd⟩ := by
  have hb := h.bounds hp.2.2.2
  obtain ⟨f, hf⟩ : ∃ f, s.len.toNat + 1 = (f + 1) + cnt := ⟨s.len.toNat - cnt, by omega⟩
  rw [walk, prefixEnd_ok hp]
  simp only [hf]
  rw [walkFrom_chain h, walkFrom, tlv_atEnd _ _ he]

theorem walk_atMarker {s : State} {p0 cnt pos num : Nat} (hp : HasPrefix s p0) (h : ChainTo s p0 cnt pos num)
    (he : AtMarker s pos) : walk s = .ok ⟨cnt, pos, num, .atMarker⟩ := by
  have hb := h.bounds hp.2.2.2
  obtain ⟨f, hf⟩ : ∃ f, s.len.toNat + 1 = (f + 1) + cnt := ⟨s.len.toNat - cnt, by omega⟩
  rw [walk, prefixEnd_ok hp]
  simp only [hf]
  rw [walkFrom_chain h, walkFrom, tlv_atMarker _ _ he]

theorem walk_malformed {s : State} {p0 cnt pos num : Nat} (hp : HasPrefix s p0) (h : ChainTo s p0 cnt pos num)
    (he : Malformed s pos) : walk s = .error .invalidPacket := by
  have hb := h.bounds hp.2.2.2
  obtain ⟨f, hf⟩ : ∃ f, s.len.toNat + 1 = (f + 1) + cnt := ⟨s.len.toNat - cnt, by omega⟩
  rw [walk, prefixEnd_ok hp]
  simp only [hf]
  rw [walkFrom_chain h, walkFrom, tlv_malformed _ _ he]

theorem walk_prefixFails {s : State} {e : Err} (h : PrefixFails s e) : walk s = .error e := by
  rw [walk, prefixEnd_error h]

/-- What the `GET_OPT` loop answers for the option right after a chain of `cnt` entries. -/
theorem optAt_atItem {s : State} {p0 cnt pos num : Nat} (hp : HasPrefix s p0) (h : ChainTo s p0 cnt pos num)
    (hi : AtItem s pos) : optAt s cnt = .ok ⟨num + deltaAt s pos, valueStart s pos, lengthAt s pos⟩ := by
  have hb := h.bounds hp.2.2.2
  obtain ⟨f, hf⟩ : ∃ f, s.len.toNat + 1 = (f + 1) + cnt := ⟨s.len.toNat - cnt, by omega⟩
  have := optFrom_chain h (f + 1) 0
  rw [Nat.zero_add] at this
  rw [optAt, prefixEnd_ok hp]
  simp only [hf]
  rw [this, optFrom, tlv_atItem _ _ hi]
  simp

/-- The option asked for, or one before it, is not there: the loop ends with the error of what stands there. -/
theorem optAt_error {s : State} {p0 cnt pos num k : Nat} {e : Err} (hp : HasPrefix s p0) (h : ChainTo s p0 cnt pos num)
    (hk : cnt ≤ k) (he : tlv s pos = .error e) : optAt s k = .error e := by
  have hb := h.bounds hp.2.2.2
  obtain ⟨f, hf⟩ : ∃ f, s.len.toNat + 1 = (f + 1) + cnt := ⟨s.len.toNat - cnt, by omega⟩
  have := optFrom_chain h (f + 1) (k - cnt)
  rw [Nat.sub_add_cancel hk] at this
  rw [optAt, prefixEnd_ok hp]
  simp only [hf]
  rw [this, optFrom, he]

theorem optAt_prefixFails {s : State} {e : Err} (h : PrefixFails s e) (k : Nat) : optAt s k = .error e := by
  rw [optAt, prefixEnd_error h]

/-- Shorter chains: a chain of `cnt` entries passes through one of every smaller count, with an entry standing there. -/
theorem ChainTo.shorter {s : State} {p0 cnt pos num : Nat} (h : ChainTo s p0 cnt pos num) (i : Nat) (hi : i < cnt) :
    ∃ p n, ChainTo s p0 i p n ∧ AtItem s p ∧ n + deltaAt s p ≤ num := by
  induction h with
  | start => omega
  | @item c p n hc hit ih =>
    by_cases h1 : i = c
    · subst h1; exact ⟨p, n, hc, hit, le_refl _⟩
    · obtain ⟨p', n', a, b, c'⟩ := ih (by omega)
      exact ⟨p', n', a, b, by omega⟩

end Sys2Proof.Machine
end

