-- ==== Sys2Proof/Laws/Encoder.lean ====
section
/-! SUPPORT. The encoder functions: the option check answers by `CanEncode`, and the header bytes it builds are read back by the
decoder's nibble rule. -/

namespace Sys2Proof.Machine

theorem isReserved_iff (n : Nat) : isReserved n = true ↔ n ∈ reservedNumbers := by
  simp [isReserved, Config.reservedOpts]

theorem isReserved_false (n : Nat) : isReserved n = false ↔ n ∉ reservedNumbers := by
  rw [← isReserved_iff]; cases isReserved n <;> simp

theorem optCheck_ok {num vlen prev : Nat} (h : CanEncode num vlen prev) : optCheck num vlen prev = .ok (num - prev) := by
  obtain ⟨h1, h2, h3, h4⟩ := h
  have hr := (isReserved_false num).mpr h2
  have hf : Config.fieldMax = 65804 := rfl
  unfold optCheck
  rw [if_neg (by omega), hr, if_neg (by simp), if_neg (by omega), if_neg (by omega)]

theorem optCheck_error {num vlen prev : Nat} {e : Err} (h : CannotEncode num vlen prev e) :
    optCheck num vlen prev = .error e := by
  have hf : Config.fieldMax = 65804 := rfl
  unfold optCheck
  rcases h with ⟨h1, rfl⟩ | ⟨h1, h2, rfl⟩ | ⟨h1, h2, h3, rfl⟩
  · rw [if_pos h1]
  · rw [if_neg (by omega), (isReserved_iff num).mpr h2, if_pos rfl]
  · rw [if_neg (by omega), (isReserved_false num).mpr h2, if_neg (by simp)]
    rcases h3 with h3 | h3
    · rw [if_pos (by omega)]
    · split
      · rfl
      · rw [if_pos (by omega)]

/-- An option can be encoded or there is an error that says why not. -/
theorem encodable_cases (num vlen prev : Nat) : CanEncode num vlen prev ∨ ∃ e, CannotEncode num vlen prev e := by
  by_cases h1 : num < prev
  · exact .inr ⟨_, .inl ⟨h1, rfl⟩⟩
  by_cases h2 : num ∈ reservedNumbers
  · exact .inr ⟨_, .inr (.inl ⟨by omega, h2, rfl⟩)⟩
  by_cases h3 : 65804 < num - prev ∨ 65804 < vlen
  · exact .inr ⟨_, .inr (.inr ⟨by omega, h2, h3, rfl⟩)⟩
  · exact .inl ⟨by omega, h2, by omega, by omega⟩

theorem headerLen_eq (d l : Nat) : headerLen d l = headerLenOf d l := rfl

/-- The nibble and extension bytes the encoder gives a value, as the decoder's nibble rule reads them (R97, R108). -/
theorem extCount_nibbleOf (v : Nat) : extCount (nibbleOf v) = extLen v := by
  unfold extCount nibbleOf extLen
  by_cases h1 : v ≤ 12
  · have : ∀ v ≤ 12, BitVec.ofNat 4 v ≠ 13 ∧ BitVec.ofNat 4 v ≠ 14 := by decide
    obtain ⟨a, b⟩ := this v h1
    simp only [if_pos h1, if_neg a, if_neg b]
  · by_cases h2 : v ≤ 268
    · simp only [if_neg h1, if_pos h2, if_true]
    · simp only [if_neg h1, if_neg h2]; decide

theorem nibbleOf_ne_15 (v : Nat) : nibbleOf v ≠ 15 := by
  unfold nibbleOf
  by_cases h1 : v ≤ 12
  · have : ∀ v ≤ 12, BitVec.ofNat 4 v ≠ 15 := by decide
    rw [if_pos h1]; exact this v h1
  · rw [if_neg h1]; split <;> decide

theorem extLen_le (v : Nat) : extLen v ≤ 2 := by unfold extLen; split <;> [omega; (split <;> omega)]

/-- Where the extension bytes of `v` stand, the nibble of `v` resolves to `v`. -/
theorem resolved_nibbleOf {s : State} {v q : Nat} (hv : v ≤ 65804)
    (h : ∀ k, k < extLen v → (extBytes v)[k]? = some (s.bufByte (q + k))) : resolved s (nibbleOf v) q = v := by
  unfold extLen extBytes at h
  unfold resolved nibbleOf
  by_cases h1 : v ≤ 12
  · have : ∀ v ≤ 12, BitVec.ofNat 4 v ≠ 13 ∧ BitVec.ofNat 4 v ≠ 14 := by decide
    obtain ⟨a, b⟩ := this v h1
    simp only [if_pos h1, if_neg a, if_neg b, BitVec.toNat_ofNat]
    omega
  · by_cases h2 : v ≤ 268
    · simp only [if_neg h1, if_pos h2] at h
      have e := h 0 (by omega)
      simp only [beBytes, Config.ext8Base, List.getElem?_cons_zero, Option.some.injEq, Nat.pow_zero, Nat.div_one,
        Nat.add_zero] at e
      simp only [if_neg h1, if_pos h2, if_true, ← e, BitVec.toNat_ofNat]
      omega
    · simp only [if_neg h1, if_neg h2] at h
      have e := h 0 (by omega)
      have f := h 1 (by omega)
      simp only [beBytes, Config.ext16Base, List.getElem?_cons_zero, List.getElem?_cons_succ, Option.some.injEq,
        Nat.pow_zero, Nat.div_one, Nat.pow_one, Nat.add_zero] at e f
      have n : ¬ (14 : Nibble) = 13 := by decide
      simp only [if_neg h1, if_neg h2, if_true, ← e, ← f, BitVec.toNat_ofNat, if_neg n]
      omega

/-- Where the header of `d` and `l` stands, an entry of delta `d` and length `l` stands, if its value fits in the message. -/
theorem header_read {s : State} {d l p : Nat} (hd : d ≤ 65804) (hl : l ≤ 65804)
    (h : ∀ k, k < headerLen d l → (optHeader d l)[k]? = some (s.bufByte (p + k))) :
    s.bufByte p = nibbles (nibbleOf d) (nibbleOf l) ∧ valueStart s p = p + headerLen d l ∧ deltaAt s p = d ∧
      lengthAt s p = l := by
  have h0 : s.bufByte p = nibbles (nibbleOf d) (nibbleOf l) := by
    have := h 0 (by unfold headerLen; omega)
    simpa [optHeader] using this.symm
  have hd' : resolved s (nibbleOf d) (p + 1) = d := by
    refine resolved_nibbleOf hd fun k hk => ?_
    have := h (k + 1) (by unfold headerLen; omega)
    rw [optHeader, List.getElem?_cons_succ, List.getElem?_append_left (by rw [length_extBytes]; exact hk)] at this
    rw [this]; congr 2; omega
  have hl' : resolved s (nibbleOf l) (p + 1 + extLen d) = l := by
    refine resolved_nibbleOf hl fun k hk => ?_
    have := h (extLen d + k + 1) (by unfold headerLen; omega)
    rw [optHeader, List.getElem?_cons_succ, List.getElem?_append_right (by rw [length_extBytes]; omega), length_extBytes,
      Nat.add_sub_cancel_left] at this
    rw [this]; congr 2; omega
  refine ⟨h0, ?_, ?_, ?_⟩
  · simp only [valueStart, h0, hiNibble_nibbles, loNibble_nibbles, extCount_nibbleOf, headerLen]; omega
  · simp only [deltaAt, h0, hiNibble_nibbles, hd']
  · simp only [lengthAt, h0, hiNibble_nibbles, loNibble_nibbles, extCount_nibbleOf, hl']

theorem atItem_of_header {s : State} {d l p : Nat} (hd : d ≤ 65804) (hl : l ≤ 65804)
    (h : ∀ k, k < headerLen d l → (optHeader d l)[k]? = some (s.bufByte (p + k)))
    (hb : p + headerLen d l + l ≤ s.len.toNat) : AtItem s p := by
  obtain ⟨h0, h1, -, h3⟩ := header_read hd hl h
  have hpos : 0 < headerLen d l := by unfold headerLen; omega
  refine ⟨⟨by omega, ?_⟩, ?_, ?_, by omega⟩
  · intro he
    rw [eq_marker_iff, h0, hiNibble_nibbles] at he
    exact nibbleOf_ne_15 d he.1
  · rw [h0, hiNibble_nibbles]; exact nibbleOf_ne_15 d
  · rw [h0, loNibble_nibbles]; exact nibbleOf_ne_15 l

end Sys2Proof.Machine
end

