-- ==== Sys2Proof/Laws/Chain.lean ====
section
/-! SUPPORT. Chains of options: that each ends, where it ends is unique, and what carries over between states. -/

namespace Sys2Proof.Machine

/-- Every chain can be followed to a place where no whole entry stands. -/
theorem chain_ends {s : State} {p0 n p num : Nat} (hp : p0 ≤ s.len.toNat) (k : Nat) (hk : s.len.toNat - p ≤ k) (h : ChainTo s p0 n p num) :
   ∃ n e last, ChainTo s p0 n e last ∧ (AtEnd s e ∨ AtMarker s e ∨ Malformed s e) := by
  induction k generalizing n p num with
  | zero =>
    have := h.bounds hp
    exact ⟨n, p, num, h, .inl (by omega)⟩
  | succ k ih =>
    have := h.bounds hp
    rcases place_cases s p this.2 with h1 | h1 | h1 | h1
    · exact ⟨n, p, num, h, .inl h1⟩
    · exact ⟨n, p, num, h, .inr (.inl h1)⟩
    · exact ⟨n, p, num, h, .inr (.inr h1)⟩
    · exact ih (by have := lt_valueStart s p; omega) (.item h h1)

/-- Where a chain of a given number of entries leads is unique. -/
theorem ChainTo.unique {s : State} {p0 n e last e' last' : Nat} (h : ChainTo s p0 n e last) (h' : ChainTo s p0 n e' last') : e = e' ∧ last = last' := by
  induction h generalizing e' last' with
  | start => cases h'; exact ⟨rfl, rfl⟩
  | item hc hi ih =>
    cases h' with
    | item hc' hi' => obtain ⟨rfl, rfl⟩ := ih hc'; exact ⟨rfl, rfl⟩

/-- No chain is longer than one that ends where no whole entry stands. -/
theorem chain_le {s : State} {p0 n e last n' e' last' : Nat} (h : ChainTo s p0 n e last) (h' : ChainTo s p0 n' e' last') (hn : ¬ AtItem s e') : n ≤ n' := by
  by_contra hlt
  obtain ⟨p, m, hc, hi, -⟩ := h.shorter n' (by omega)
  obtain ⟨rfl, rfl⟩ := hc.unique h'
  exact hn hi

/-- What a nibble and its extension bytes can amount to (R97). -/
theorem resolved_le (s : State) {n : Nibble} (h : n ≠ 15) (q : Nat) :
   (extCount n = 0 ∧ resolved s n q ≤ 12) ∨ (extCount n = 1 ∧ resolved s n q ≤ 268) ∨ (extCount n = 2 ∧ resolved s n q ≤ 65804) := by
  unfold extCount resolved
  by_cases h1 : n = 13
  · have := (s.bufByte q).isLt
    right; left; simp [h1]; omega
  by_cases h2 : n = 14
  · have := (s.bufByte q).isLt
    have := (s.bufByte (q+1)).isLt
    right; right; simp [h2]; omega
  · left; simp only [if_neg h1, if_neg h2, true_and]
    have : n.toNat ≠ 13 := fun e => h1 (BitVec.eq_of_toNat_eq e)
    have : n.toNat ≠ 14 := fun e => h2 (BitVec.eq_of_toNat_eq e)
    have : n.toNat ≠ 15 := fun e => h (BitVec.eq_of_toNat_eq e)
    omega

theorem not_atItem_of_atEnd {s : State} {e : Nat} (h : AtEnd s e) : ¬ AtItem s e := fun hi => by
  have := hi.1.1; unfold AtEnd at h; omega
theorem not_atItem_of_atMarker {s : State} {e : Nat} (h : AtMarker s e) : ¬ AtItem s e := fun hi => hi.1.2 h.2

/-- What a success of `walk` says. -/
theorem walk_ok {s : State} {w : WalkResult} (h : walk s = .ok w) : ∃ p0, HasPrefix s p0 ∧ ChainTo s p0 w.count w.endPos w.lastNum ∧
   ((w.stop = .atEnd ∧ AtEnd s w.endPos) ∨ (w.stop = .atMarker ∧ AtMarker s w.endPos)) := by
  rcases prefix_cases s with ⟨p0, hp, -⟩ | ⟨e, he, -⟩
  · obtain ⟨n, e, last, hc, h1 | h1 | h1⟩ := chain_ends hp.2.2.2 _ le_rfl (.start (s := s) (p0 := p0))
    · rw [walk_atEnd hp hc h1] at h; cases h; exact ⟨p0, hp, hc, .inl ⟨rfl, h1⟩⟩
    · rw [walk_atMarker hp hc h1] at h; cases h; exact ⟨p0, hp, hc, .inr ⟨rfl, h1⟩⟩
    · rw [walk_malformed hp hc h1] at h; cases h
  · rw [walk_prefixFails he] at h; cases h

theorem HasPrefix.arg0 {s : State} {p0 : Nat} (i : Word) (h : HasPrefix s p0) : HasPrefix { s with arg0 := i } p0 := h

/-- A chain of one state is a chain of another in which the same entries stand. -/
theorem ChainTo.congr {s t : State} {p0 n e last : Nat} (hi : ∀ p, AtItem s p → p < e → AtItem t p ∧ valueStart t p = valueStart s p ∧ lengthAt t p = lengthAt s p ∧ deltaAt t p = deltaAt s p)
   (h : ChainTo s p0 n e last) : ChainTo t p0 n e last := by
  induction h with
  | start => exact .start
  | @item c p m hc ha ih =>
    have := lt_valueStart s p
    obtain ⟨a, b, c, d⟩ := hi p ha (by omega)
    rw [← b, ← c, ← d]
    exact .item (ih fun q hq hlt => hi q hq (by omega)) a

theorem ChainTo.arg0 {s : State} {p0 n e last : Nat} (i : Word) (h : ChainTo s p0 n e last) : ChainTo { s with arg0 := i } p0 n e last :=
  ChainTo.congr (s := s) (fun _ hp _ => ⟨hp, rfl, rfl, rfl⟩) h

/-! ### Two states that agree on the bytes of a message -/

theorem resolved_congr {s t : State} {n : Nibble} {q : Nat}
    (h : ∀ a, q ≤ a → a < q + extCount n → t.bufByte a = s.bufByte a) : resolved t n q = resolved s n q := by
  unfold extCount at h
  unfold resolved
  by_cases h1 : n = 13
  · simp only [if_pos h1] at h ⊢
    rw [h q le_rfl (by omega)]
  · by_cases h2 : n = 14
    · simp only [if_neg h1, if_pos h2] at h ⊢
      rw [h q le_rfl (by omega), h (q + 1) (by omega) (by omega)]
    · simp only [if_neg h1, if_neg h2]

/-- A whole entry stays one when the bytes of the message stay and the message does not get shorter. -/
theorem AtItem_mono {s t : State} {p : Nat} (hb : ∀ a, a < s.len.toNat → t.bufByte a = s.bufByte a)
    (hl : s.len.toNat ≤ t.len.toNat) (h : AtItem s p) :
    AtItem t p ∧ valueStart t p = valueStart s p ∧ lengthAt t p = lengthAt s p ∧ deltaAt t p = deltaAt s p := by
  obtain ⟨⟨h1, h2⟩, h3, h4, h5⟩ := h
  have e := hb p h1
  have v : valueStart t p = valueStart s p := by unfold valueStart; rw [e]
  have hv : valueStart s p = p + 1 + extCount (hiNibble (s.bufByte p)) + extCount (loNibble (s.bufByte p)) := rfl
  have l : lengthAt t p = lengthAt s p := by
    unfold lengthAt; rw [e]; exact resolved_congr fun a _ ha => hb a (by omega)
  have d : deltaAt t p = deltaAt s p := by
    unfold deltaAt; rw [e]; exact resolved_congr fun a _ ha => hb a (by omega)
  exact ⟨⟨⟨by omega, by rwa [e]⟩, by rwa [e], by rwa [e], by omega⟩, v, l, d⟩

theorem ChainTo_mono {s t : State} {p0 n e last : Nat} (hb : ∀ a, a < s.len.toNat → t.bufByte a = s.bufByte a)
    (hl : s.len.toNat ≤ t.len.toNat) (h : ChainTo s p0 n e last) : ChainTo t p0 n e last :=
  ChainTo.congr (s := s) (fun _ hp _ => AtItem_mono hb hl hp) h

/-- `Tlv` reads nothing of the buffer but the message (R66). -/
theorem tlv_congr {s t : State} (hb : ∀ a, a < s.len.toNat → t.bufByte a = s.bufByte a) (hl : t.len = s.len) (p : Nat) :
    tlv t p = tlv s p := by
  have hb' : ∀ a, a < t.len.toNat → s.bufByte a = t.bufByte a := fun a ha => (hb a (by rwa [hl] at ha)).symm
  by_cases h0 : s.len.toNat < p
  · rw [tlv_past_end s p h0, tlv_past_end t p (by rwa [hl])]
  · rcases place_cases s p (by omega) with h | h | h | h
    · rw [tlv_atEnd s p h, tlv_atEnd t p (by rwa [AtEnd, hl])]
    · rw [tlv_atMarker s p h, tlv_atMarker t p ⟨by rw [hl]; exact h.1, by rw [hb p h.1]; exact h.2⟩]
    · rw [tlv_malformed s p h]
      rcases place_cases t p (by rw [hl]; omega) with k | k | k | k
      · exfalso; have := h.1.1; rw [AtEnd, hl] at k; omega
      · exfalso; rw [AtMarker, hb p h.1.1] at k; exact h.1.2 k.2
      · rw [tlv_malformed t p k]
      · have i := (AtItem_mono hb' (by rw [hl]) k).1
        have := tlv_atItem s p i
        rw [tlv_malformed s p h] at this
        cases this
    · obtain ⟨i, a, b, c⟩ := AtItem_mono hb (by rw [hl]) h
      rw [tlv_atItem s p h, tlv_atItem t p i, a, b, c]

theorem walkFrom_congr {s t : State} (hb : ∀ a, a < s.len.toNat → t.bufByte a = s.bufByte a) (hl : t.len = s.len)
    (fuel : Nat) : ∀ pos num cnt, walkFrom t fuel pos num cnt = walkFrom s fuel pos num cnt := by
  induction fuel with
  | zero => intros; rfl
  | succ fuel ih => intro pos num cnt; simp only [walkFrom, tlv_congr hb hl, ih]

theorem optFrom_congr {s t : State} (hb : ∀ a, a < s.len.toNat → t.bufByte a = s.bufByte a) (hl : t.len = s.len)
    (fuel : Nat) : ∀ pos num k, optFrom t fuel pos num k = optFrom s fuel pos num k := by
  induction fuel with
  | zero => intros; rfl
  | succ fuel ih => intro pos num k; simp only [optFrom, tlv_congr hb hl, ih]

theorem prefixEnd_congr {s t : State} (hb : ∀ a, a < s.len.toNat → t.bufByte a = s.bufByte a) (hl : t.len = s.len) :
    prefixEnd t = prefixEnd s := by
  unfold prefixEnd
  rw [hl]
  by_cases h1 : s.len.toNat > Config.maxBuf
  · simp only [if_pos h1]
  · by_cases h2 : s.len.toNat < 4
    · simp only [if_neg h1, if_pos h2]
    · rw [hb 0 (by omega)]

theorem walk_congr {s t : State} (hb : ∀ a, a < s.len.toNat → t.bufByte a = s.bufByte a) (hl : t.len = s.len) :
    walk t = walk s := by
  simp only [walk, prefixEnd_congr hb hl, walkFrom_congr hb hl, hl]

theorem optAt_congr {s t : State} (hb : ∀ a, a < s.len.toNat → t.bufByte a = s.bufByte a) (hl : t.len = s.len) (k : Nat) :
    optAt t k = optAt s k := by
  simp only [optAt, prefixEnd_congr hb hl, optFrom_congr hb hl, hl]

end Sys2Proof.Machine
end

