-- ==== Sys2Proof/Laws/Commands.lean ====
section
/-! SUPPORT. What the shared endings of the commands do, once each: the length check of the header commands, the writes of the
encoders, the append, and the advance of `DEC_OPT`. -/

namespace Sys2Proof.Machine

/-! ### The header codec -/

theorem hdrCheck_long {s : State} (h : 1460 < s.len.toNat) : hdrCheck s = .error .insufficientBuffer := by
  have := maxBuf_eq
  unfold hdrCheck
  split_ifs <;> first | rfl | omega

theorem hdrCheck_short {s : State} (h : s.len.toNat < 4) : hdrCheck s = .error .invalidPacket := by
  have := maxBuf_eq
  unfold hdrCheck
  split_ifs <;> first | rfl | omega

theorem hdrCheck_ok {s : State} (h : 4 ≤ s.len.toNat) (h' : s.len.toNat ≤ 1460) : hdrCheck s = .ok () := by
  have := maxBuf_eq
  unfold hdrCheck
  split_ifs <;> first | rfl | omega

theorem toNat_eq_version_iff (v : BitVec 2) : v.toNat = Config.version ↔ v = 1 := by revert v; decide

theorem isCode_true (v : Word) : isCode v = true ↔ v.toNat ≤ 255 ∧ Config.codeSet (v.extractLsb' 0 8) = true := by
  simp [isCode]

theorem isCode_false {v : Word} (h : 255 < v.toNat ∨ Config.codeSet (v.extractLsb' 0 8) = false) : isCode v = false := by
  rcases h with h | h <;> simp [isCode, h]

theorem commitVer_cases : Config.commitVer = 1 ∨ Config.commitVer = 2 := by unfold Config.commitVer; split <;> simp

theorem commitType_cases : Config.commitType = 1 ∨ Config.commitType = 2 := by unfold Config.commitType; split <;> simp

theorem commitTkl_cases : Config.commitTkl = 1 ∨ Config.commitTkl = 2 := by unfold Config.commitTkl; split <;> simp

theorem hdrByte_version (b : Byte) : hdrByte 1 (typeField b) (tklField b) = 1#2 ++ b.extractLsb' 0 6 := by
  revert b; decide

theorem hdrByte_tkl (b : Byte) (k : Nibble) : hdrByte (verField b) (typeField b) k = b.extractLsb' 4 4 ++ k := by
  revert b k; decide

/-- The two big-endian bytes of the message ID operand. -/
theorem beBytes_midOperand (w : Word) :
    beBytes 2 (midOperand w).toNat = [w.extractLsb' 8 8, w.extractLsb' 0 8] := by
  simp only [beBytes, midOperand, Nat.pow_zero, Nat.div_one, Nat.pow_one]
  congr 1
  · apply BitVec.eq_of_toNat_eq
    simp only [BitVec.toNat_ofNat, BitVec.extractLsb'_toNat, Nat.shiftRight_eq_div_pow]
    omega
  · congr 1
    apply BitVec.eq_of_toNat_eq
    simp only [BitVec.toNat_ofNat, BitVec.extractLsb'_toNat, Nat.shiftRight_eq_div_pow]
    omega

theorem hiByte_midOperand (w : Word) : hiByte (midOperand w) = w.extractLsb' 8 8 := by
  rw [hiByte, midOperand]
  apply BitVec.eq_of_toNat_eq
  simp only [BitVec.extractLsb'_toNat, Nat.shiftRight_eq_div_pow]
  omega

theorem loByte_midOperand (w : Word) : loByte (midOperand w) = w.extractLsb' 0 8 := by
  rw [loByte, midOperand]
  apply BitVec.eq_of_toNat_eq
  simp only [BitVec.extractLsb'_toNat, Nat.shiftRight_eq_div_pow]
  omega

/-! ### The writes -/

theorem writeBuf_eq (a : Nat) (b : Byte) (s : State) : writeBuf a b s = { s with buf := (writeBuf a b s).buf } := by
  unfold writeBuf; split <;> rfl

/-- A command that writes one byte and succeeds. -/
theorem complete_writeBuf (r : Results) (b : Byte) (s : State) {a : Nat} (h : a < Config.maxBuf) :
    complete r (writeBuf a b s) =
        { s.doneWith r.r0 r.r1 r.r2 with buf := (complete r (writeBuf a b s)).buf } ∧
      (complete r (writeBuf a b s)).bufByte a = b ∧
      ∀ c, c ≠ a → (complete r (writeBuf a b s)).bufByte c = s.bufByte c := by
  refine ⟨?_, ?_, fun c hc => ?_⟩
  · rw [writeBuf_eq]; rfl
  · rw [bufByte_complete, bufByte_writeBuf_same h]
  · rw [bufByte_complete, bufByte_writeBuf_ne hc]

/-- A command that writes bytes and succeeds. -/
theorem complete_writeBufBytes (r : Results) (bs : List Byte) (s : State) (a : Nat) (h : a + bs.length ≤ Config.maxBuf) :
    complete r (writeBufBytes a bs s) =
        { s.doneWith r.r0 r.r1 r.r2 with buf := (complete r (writeBufBytes a bs s)).buf } ∧
      (∀ k, k < bs.length → bs[k]? = some ((complete r (writeBufBytes a bs s)).bufByte (a + k))) ∧
      ∀ c, c < a ∨ a + bs.length ≤ c → (complete r (writeBufBytes a bs s)).bufByte c = s.bufByte c := by
  refine ⟨?_, fun k hk => ?_, fun c hc => ?_⟩
  · rw [writeBufBytes_eq]; rfl
  · rw [bufByte_complete]; exact bufByte_writeBufBytes_inside bs a k s h hk
  · rw [bufByte_complete]; exact bufByte_writeBufBytes_outside bs a c s hc

/-- Appending bytes that fit: `LEN` moves past them, they stand at the old `LEN`, and nothing else changes. -/
theorem appendBytes_spec (bs : List Byte) (s : State) (h : s.len.toNat + bs.length ≤ Config.maxBuf) :
    appendBytes bs s =
        { s.doneWith (BitVec.ofNat 32 (s.len.toNat + bs.length)) 0 0 with
          buf := (appendBytes bs s).buf, len := (appendBytes bs s).len } ∧
      (appendBytes bs s).len.toNat = s.len.toNat + bs.length ∧
      (∀ k, k < bs.length → bs[k]? = some ((appendBytes bs s).bufByte (s.len.toNat + k))) ∧
      ∀ a, a < s.len.toNat ∨ s.len.toNat + bs.length ≤ a → (appendBytes bs s).bufByte a = s.bufByte a := by
  have := maxBuf_eq
  refine ⟨?_, ?_, fun k hk => ?_, fun c hc => ?_⟩
  · rw [appendBytes, writeBufBytes_eq]; rfl
  · simp only [appendBytes, complete, BitVec.toNat_ofNat]; omega
  · exact bufByte_writeBufBytes_inside bs s.len.toNat k s h hk
  · exact bufByte_writeBufBytes_outside bs s.len.toNat c s hc

/-- Writing bytes that fit at `CURSOR`. -/
theorem writeAtCursor_spec (bs : List Byte) (s : State) (h : s.cursor.toNat + bs.length ≤ Config.maxBuf) :
    writeAtCursor bs s =
        { s.doneWith (BitVec.ofNat 32 bs.length) 0 0 with
          buf := (writeAtCursor bs s).buf, cursor := (writeAtCursor bs s).cursor } ∧
      (writeAtCursor bs s).cursor.toNat = s.cursor.toNat + bs.length ∧
      (∀ k, k < bs.length → bs[k]? = some ((writeAtCursor bs s).bufByte (s.cursor.toNat + k))) ∧
      ∀ a, a < s.cursor.toNat ∨ s.cursor.toNat + bs.length ≤ a → (writeAtCursor bs s).bufByte a = s.bufByte a := by
  have := maxBuf_eq
  refine ⟨?_, ?_, fun k hk => ?_, fun c hc => ?_⟩
  · rw [writeAtCursor, writeBufBytes_eq]; rfl
  · simp only [writeAtCursor, complete, BitVec.toNat_ofNat]; omega
  · exact bufByte_writeBufBytes_inside bs s.cursor.toNat k s h hk
  · exact bufByte_writeBufBytes_outside bs s.cursor.toNat c s hc

theorem getElem?_valBytes (s : State) {n k : Nat} (h : k < n) : (valBytes s n)[k]? = some (s.valByte k) := by
  simp [valBytes, h]

/-! ### `DEC_OPT` -/

/-- The advance past an item that ends inside the buffer. -/
theorem advanceItem_spec (it : TlvItem) (s : State) (h : it.next < 65536) :
    advanceItem it s =
        { s.doneWith (BitVec.ofNat 32 it.length) (BitVec.ofNat 32 it.valOff) (s.optnum + BitVec.ofNat 32 it.delta) with
          cursor := (advanceItem it s).cursor, optnum := s.optnum + BitVec.ofNat 32 it.delta } ∧
      (advanceItem it s).cursor.toNat = it.next := by
  refine ⟨rfl, ?_⟩
  simp only [advanceItem, complete, BitVec.toNat_ofNat]
  omega

end Sys2Proof.Machine
end

