-- ==== Sys2Proof/Laws/Outcomes.lean ====
section
/-! SUPPORT. Everything an instruction can do, said once (`Ends`): every way it can end, with the state it leaves. The frames, the
errors and the invariant are read off it, and no later proof unfolds a meaning for them. -/

namespace Sys2Proof.Machine

/-! ### Errors of the shared procedures -/

theorem hdrCheck_error {s : State} {e : Err} (h : hdrCheck s = .error e) : e = .insufficientBuffer ∨ e = .invalidPacket := by
  unfold hdrCheck at h
  split_ifs at h <;> cases h <;> simp

theorem prefixFails_error {s : State} {e : Err} (h : PrefixFails s e) :
    e = .insufficientBuffer ∨ e = .invalidPacket ∨ e = .invalidTokenLength := by
  rcases h with ⟨-, rfl⟩ | ⟨-, rfl⟩ | ⟨-, -, -, rfl⟩ | ⟨-, -, -, -, rfl⟩ <;> simp

theorem walk_error {s : State} {e : Err} (h : walk s = .error e) :
    e = .insufficientBuffer ∨ e = .invalidPacket ∨ e = .invalidTokenLength := by
  rcases prefix_cases s with ⟨p0, hp, -⟩ | ⟨e', he, -⟩
  · obtain ⟨n, e', last, hc, h1 | h1 | h1⟩ := chain_ends hp.2.2.2 _ le_rfl (.start (s := s) (p0 := p0))
    · rw [walk_atEnd hp hc h1] at h; cases h
    · rw [walk_atMarker hp hc h1] at h; cases h
    · rw [walk_malformed hp hc h1] at h; cases h; simp
  · rw [walk_prefixFails he] at h
    cases h
    exact prefixFails_error he

theorem optAt_error_cases {s : State} {k : Nat} {e : Err} (h : optAt s k = .error e) :
    e = .insufficientBuffer ∨ e = .invalidPacket ∨ e = .invalidTokenLength ∨ e = .foundPayloadMarker ∨ e = .endOfPacket := by
  rcases prefix_cases s with ⟨p0, hp, -⟩ | ⟨e', he, -⟩
  · obtain ⟨n, p, last, hc, hend⟩ := chain_ends hp.2.2.2 _ le_rfl (.start (s := s) (p0 := p0))
    rcases Nat.lt_or_ge k n with hk | hk
    · obtain ⟨p', m, h1, h2, -⟩ := hc.shorter k hk
      rw [optAt_atItem hp h1 h2] at h; cases h
    · rcases hend with h1 | h1 | h1
      · rw [optAt_error hp hc hk (tlv_atEnd _ _ h1)] at h; cases h; simp
      · rw [optAt_error hp hc hk (tlv_atMarker _ _ h1)] at h; cases h; simp
      · rw [optAt_error hp hc hk (tlv_malformed _ _ h1)] at h; cases h; simp
  · rw [optAt_prefixFails he] at h
    cases h
    rcases prefixFails_error he with rfl | rfl | rfl <;> simp

theorem optCheck_error_cases {num vlen prev : Nat} {e : Err} (h : optCheck num vlen prev = .error e) :
    e = .optionsOutOfOrder ∨ e = .invalidOption := by
  unfold optCheck at h
  split_ifs at h <;> cases h <;> simp

theorem tlv_error_cases {s : State} {p : Nat} {e : Err} (h : tlv s p = .error e) :
    e = .invalidPacket ∨ e = .endOfPacket ∨ e = .foundPayloadMarker := by
  rcases tlv_error s p e h with ⟨-, rfl⟩ | ⟨-, rfl⟩ | ⟨-, rfl⟩ | ⟨-, rfl⟩ <;> simp

/-! ### The validator -/

/-- The option right after the first `i` entries of a chain, with the number `ChainTo` gives it. -/
theorem optAt_number {s : State} {p0 n e last i : Nat} (hp : HasPrefix s p0) (hc : ChainTo s p0 n e last) (hi : i < n) :
    ∃ pos v, optAt s i = .ok v ∧ ChainTo s p0 (i + 1) pos v.number := by
  obtain ⟨p, m, h1, h2, -⟩ := hc.shorter i hi
  exact ⟨_, _, optAt_atItem hp h1 h2, .item h1 h2⟩

theorem stageOpt_cases {s : State} {p0 n e last N : Nat} (hp : HasPrefix s p0) (hc : ChainTo s p0 n e last) (todo : Nat) :
    ∀ i, i + todo = n →
      stageOpt s N todo i = .accept N ∨ ∃ j, j < n ∧ stageOpt s N todo i = .stop .invalidOption .vOpt j := by
  induction todo with
  | zero => intros; exact .inl rfl
  | succ todo ih =>
    intro i hi
    obtain ⟨pos, v, h1, -⟩ := optAt_number hp hc (show i < n by omega)
    simp only [stageOpt, h1]
    split
    · exact .inr ⟨i, by omega, rfl⟩
    · exact ih (i + 1) (by omega)

/-- The three ways the FSM ends: accepted; stopped in a stage before `V_OPT`; stopped in `V_OPT` at a reserved option. -/
theorem stageVer_cases (s : State) :
    (∃ n, stageVer s = .accept n) ∨
    (∃ e st, stageVer s = .stop e st 0 ∧ st ∉ [.vIdle, .vType, .vOpt, .vOk] ∧ e ∈ allowedErrors .validate) ∨
    (∃ i, stageVer s = .stop .invalidOption .vOpt i ∧ i + 4 < s.len.toNat ∧ s.len.toNat ≤ 1460) := by
  unfold stageVer
  cases hh : hdrCheck s with
  | error e =>
    right; left
    rcases hdrCheck_error hh with rfl | rfl <;> exact ⟨_, _, rfl, by decide, by decide⟩
  | ok _ =>
    dsimp only
    split
    swap
    · right; left; exact ⟨_, _, rfl, by decide, by decide⟩
    unfold stageType stageTkl
    split
    · right; left; exact ⟨_, _, rfl, by decide, by decide⟩
    unfold stageCode
    split
    swap
    · right; left; exact ⟨_, _, rfl, by decide, by decide⟩
    unfold stagePrefix
    split
    · exact .inl ⟨_, rfl⟩
    split
    · right; left; exact ⟨_, _, rfl, by decide, by decide⟩
    unfold stageCount
    cases hw : walk s with
    | error e =>
      right; left
      rcases walk_error hw with rfl | rfl | rfl <;> exact ⟨_, _, rfl, by decide, by decide⟩
    | ok w =>
      obtain ⟨p0, hp, hc, -⟩ := walk_ok hw
      have := hc.bounds hp.2.2.2
      have := hp.2.2.1
      have := hp.1
      rcases stageOpt_cases (N := w.count) hp hc w.count 0 (by omega) with h | ⟨j, hj, h⟩
      · exact .inl ⟨_, h⟩
      · exact .inr (.inr ⟨j, h, by omega, by omega⟩)

/-! ### Every way an instruction can end -/

/-- The commands that write no memory and no register but `STATUS` and `RES`. -/
abbrev plainReaders : List Instr :=
  [.getVer, .getType, .getTkl, .getCode, .getMid, .cntOpt, .getOpt, .optHlen, .getPayload]

/-- Instruction `i`, run at `s`, leaves the state given. -/
inductive Ends (i : Instr) (s : State) : State → Prop where
  | failed (e : Err) : e ∈ allowedErrors i → i ≠ .validate → Ends i s (raise e s)
  | unknownCode (c : Byte) : (i = .getCode ∧ c = s.bufByte 1) ∨ i = .wireHdrByte1 c →
      Ends i s (raiseWith .unknownCode (c.zeroExtend 32) s)
  | read (r : Results) : i ∈ plainReaders ∨ formatOf i ∈ [.hdrByte0, .hdrByte1, .hdrMid] → Ends i s (complete r s)
  | accepted (n : Nat) : i = .validate → Ends i s (complete ⟨toWord n, 0, 0⟩ (enterStage .vOk 0 s))
  | stopped (e : Err) (st : Stage) : i = .validate → e ∈ allowedErrors .validate → st ∉ [.vIdle, .vType, .vOpt, .vOk] →
      Ends i s (raise e (enterStage st 0 s))
  | reserved (k : Nat) : i = .validate → k + 4 < s.len.toNat → s.len.toNat ≤ 1460 →
      Ends i s (raise .invalidOption (enterStage .vOpt k s))
  | advanced (it : TlvItem) : i = .decOpt ∨ formatOf i ∈ [.item, .tlvHeader] → it.next ≤ s.len.toNat →
      Ends i s (advanceItem it s)
  | wroteByte0 (r : Results) (b : Byte) : i ∈ [.setVer, .setType, .setTkl] → Ends i s (complete r (writeBuf 0 b s))
  | wroteByte1 (r : Results) (b : Byte) : i = .setCode → Ends i s (complete r (writeBuf 1 b s))
  | wroteMid (r : Results) (bs : List Byte) : i = .setMid → bs.length = 2 → Ends i s (complete r (writeBufBytes 2 bs s))
  | wroteHeader (r : Results) (bs : List Byte) : i = .buildHdr → bs.length = 4 →
      Ends i s (complete r (writeBufBytes 0 bs s))
  | wroteAtCursor (bs : List Byte) : i = .optHbld → s.cursor.toNat + bs.length ≤ Config.maxBuf →
      Ends i s (writeAtCursor bs s)
  | appended (bs : List Byte) : i ∈ [.addOpt, .setPayload] → s.len.toNat + bs.length ≤ Config.maxBuf →
      Ends i s (appendBytes bs s)

/-- Every end of a command sets `DONE` and clears `BUSY` (R28, R285). -/
theorem Ends.done {i : Instr} {s t : State} (h : Ends i s t) : t.status.done = true ∧ t.status.busy = false := by
  cases h <;> exact ⟨rfl, rfl⟩

theorem ends_headerDecode {i : Instr} {s : State} {o : Except Err Results} (hv : i ≠ .validate)
    (hr : i ∈ plainReaders ∨ formatOf i ∈ [.hdrByte0, .hdrByte1, .hdrMid])
    (h1 : .insufficientBuffer ∈ allowedErrors i) (h2 : .invalidPacket ∈ allowedErrors i)
    (h3 : ∀ e, o = .error e → e ∈ allowedErrors i) : Ends i s (headerDecode o s) := by
  unfold headerDecode
  cases hh : hdrCheck s with
  | error e => rcases hdrCheck_error hh with rfl | rfl <;> exact .failed _ ‹_› hv
  | ok _ =>
    cases o with
    | ok r => exact .read r hr
    | error e => exact .failed e (h3 e rfl) hv

theorem ends_decodeCodeByte {i : Instr} {s : State} {c : Byte} (hv : i ≠ .validate)
    (hr : i ∈ plainReaders ∨ formatOf i ∈ [.hdrByte0, .hdrByte1, .hdrMid])
    (h1 : .insufficientBuffer ∈ allowedErrors i) (h2 : .invalidPacket ∈ allowedErrors i)
    (h3 : (i = .getCode ∧ c = s.bufByte 1) ∨ i = .wireHdrByte1 c) : Ends i s (decodeCodeByte c s) := by
  unfold decodeCodeByte
  cases hh : hdrCheck s with
  | error e => rcases hdrCheck_error hh with rfl | rfl <;> exact .failed _ ‹_› hv
  | ok _ =>
    dsimp only
    split
    · exact .read _ hr
    · exact .unknownCode c h3

theorem ends_finish {i : Instr} {s : State} {o : Except Err Results} (hv : i ≠ .validate)
    (hr : i ∈ plainReaders ∨ formatOf i ∈ [.hdrByte0, .hdrByte1, .hdrMid])
    (h3 : ∀ e, o = .error e → e ∈ allowedErrors i) : Ends i s (finish o s) := by
  cases o with
  | ok r => exact .read r hr
  | error e => exact .failed e (h3 e rfl) hv

theorem ends_finishAppend {i : Instr} {s : State} {o : Except Err (List Byte)} (hi : i ∈ [.addOpt, .setPayload])
    (h1 : ∀ bs, o = .ok bs → s.len.toNat + bs.length ≤ Config.maxBuf) (h3 : ∀ e, o = .error e → e ∈ allowedErrors i) :
    Ends i s (finishAppend o s) := by
  cases o with
  | ok bs => exact .appended bs hi (h1 bs rfl)
  | error e => exact .failed e (h3 e rfl) (by rintro rfl; simp at hi)

theorem ends_finishItem {i : Instr} {s : State} {o : Except Err TlvItem} (hi : i = .decOpt ∨ formatOf i ∈ [.item, .tlvHeader])
    (h1 : ∀ it, o = .ok it → it.next ≤ s.len.toNat) (h3 : ∀ e, o = .error e → e ∈ allowedErrors i) :
    Ends i s (finishItem o s) := by
  cases o with
  | ok it => exact .advanced it hi (h1 it rfl)
  | error e => exact .failed e (h3 e rfl) (by rintro rfl; rcases hi with h | h <;> simp [formatOf] at h)

theorem ends_atItem {i : Instr} {s t : State} {o : Except Err TlvItem} (hi : formatOf i ∈ [.item, .tlvHeader])
    (h1 : ∀ it, o = .ok it → it.next ≤ s.len.toNat) (h3 : ∀ e, o = .error e → e ∈ allowedErrors i)
    (h4 : ∀ e ∈ [Err.insufficientBuffer, .invalidPacket, .endOfPacket], e ∈ allowedErrors i)
    (h : atItem o s = .next t) : Ends i s t := by
  have hv : i ≠ .validate := by rintro rfl; simp [formatOf] at hi
  unfold atItem at h
  split_ifs at h <;> cases h
  · exact .failed _ (h4 _ (by simp)) hv
  · exact .failed _ (h4 _ (by simp)) hv
  · exact .failed _ (h4 _ (by simp)) hv
  · exact ends_finishItem (.inr hi) h1 h3

theorem itemOf_ok {size d l : Nat} {s : State} {it : TlvItem} (h : itemOf size d l s = .ok it) : it.next ≤ s.len.toNat := by
  unfold itemOf at h
  split at h <;> cases h
  dsimp only
  omega

theorem itemOf_error {size d l : Nat} {s : State} {e : Err} (h : itemOf size d l s = .error e) : e = .invalidPacket := by
  unfold itemOf at h
  split at h <;> cases h
  rfl

theorem tlvBody_ok {dn ln : Nibble} {q : Nat} {s : State} {it : TlvItem} (h : tlvBody s dn ln q = .ok it) :
    it.next ≤ s.len.toNat := by
  unfold tlvBody at h
  split at h
  · cases h
  · split at h
    · cases h
    · split at h <;> cases h
      dsimp only
      omega

theorem resolveNibble_error {s : State} {n : Nibble} {q : Nat} {e : Err} (h : resolveNibble s n q = .error e) :
    e = .invalidPacket := by
  unfold resolveNibble at h
  split_ifs at h <;> cases h <;> rfl

theorem tlvBody_error {dn ln : Nibble} {q : Nat} {s : State} {e : Err} (h : tlvBody s dn ln q = .error e) :
    e = .invalidPacket := by
  unfold tlvBody at h
  split at h
  · next e' he => cases h; exact resolveNibble_error he
  · split at h
    · next e' he => cases h; exact resolveNibble_error he
    · split at h <;> cases h
      rfl

/-- A whole TLV header of the wire format is an item, or not one because it does not fit. -/
theorem ends_itemOf {i : Instr} {size d l : Nat} {s t : State} (hi : formatOf i = .tlvHeader)
    (ha : allowedErrors i = [.insufficientBuffer, .invalidPacket, .endOfPacket]) (h : atItem (itemOf size d l s) s = .next t) :
    Ends i s t := by
  refine ends_atItem (by simp [hi]) (fun it h => itemOf_ok h) (fun e h => ?_) (by simp [ha]) h
  rw [itemOf_error h, ha]
  simp

theorem execWireHdrByte0_short {s : State} {e : Err} (v t : BitVec 2) (k : Nibble) (h : hdrCheck s = .error e) :
    execWireHdrByte0 v t k s = .next (raise e s) := by
  have h1 : ∀ o, headerDecode o s = raise e s := fun o => by simp only [headerDecode, h]
  have h2 : ¬ (raise e s).status.err = none := by simp [raise, raiseWith, Status.ended]
  simp only [execWireHdrByte0, ifSucceeded, h1, if_neg h2]

/-- Header byte 0 on a message with a header: the version, then the token length (R130, R132). -/
theorem execWireHdrByte0_eq {s : State} (v t : BitVec 2) (k : Nibble) (h : hdrCheck s = .ok ()) :
    execWireHdrByte0 v t k s =
      .next (if v = 1 then finish (tokenLengthOf (hdrByte v t k)) s else raise .invalidVersion s) := by
  by_cases hv : v = 1
  · have h1 := (toNat_eq_version_iff v).mpr hv
    rw [execWireHdrByte0, if_pos hv, versionOf, verField_hdrByte, if_pos h1]
    have h2 : ∀ r, headerDecode (.ok r) s = complete r s := fun r => by simp only [headerDecode, h, finish]
    have h3 : ∀ r r', headerDecode (.ok r') (complete r s) = complete r' s := fun r r' => by
      have : hdrCheck (complete r s) = .ok () := h
      simp only [headerDecode, this, finish]; rfl
    have h4 : ∀ r o, headerDecode o (complete r s) = finish o s := fun r o => by
      have : hdrCheck (complete r s) = .ok () := h
      cases o <;> (simp only [headerDecode, this, finish]; rfl)
    have h5 : ∀ r, (complete r s).status.err = none := fun r => rfl
    simp only [ifSucceeded, h2, typeOf, h3, if_pos (h5 _), h4]
  · have h1 : ¬ v.toNat = Config.version := fun x => hv ((toNat_eq_version_iff v).mp x)
    have h2 : headerDecode (.error .invalidVersion) s = raise .invalidVersion s := by simp only [headerDecode, h, finish]
    have h3 : ¬ (raise .invalidVersion s).status.err = none := by simp [raise, raiseWith, Status.ended]
    simp only [execWireHdrByte0, versionOf, verField_hdrByte, if_neg hv, if_neg h1, h2, ifSucceeded, if_neg h3]

theorem execWireHdrByte0_cases (v t : BitVec 2) (k : Nibble) (s : State) :
    (∃ r, execWireHdrByte0 v t k s = .next (complete r s)) ∨
    ∃ e, execWireHdrByte0 v t k s = .next (raise e s) ∧ e ∈ allowedErrors (.wireHdrByte0 v t k) := by
  cases hh : hdrCheck s with
  | error e =>
    refine .inr ⟨e, execWireHdrByte0_short v t k hh, ?_⟩
    rcases hdrCheck_error hh with rfl | rfl <;> simp [allowedErrors]
  | ok _ =>
    rw [execWireHdrByte0_eq v t k hh]
    by_cases hv : v = 1
    · rw [if_pos hv]
      unfold tokenLengthOf
      split
      · exact .inr ⟨_, rfl, by simp [allowedErrors]⟩
      · exact .inl ⟨_, rfl⟩
    · rw [if_neg hv]
      exact .inr ⟨_, rfl, by simp [allowedErrors]⟩

theorem ends_wire {i : Instr} {size d l : Nat} {s : State} (hi : formatOf i = .tlvHeader)
    (ha : allowedErrors i = [.insufficientBuffer, .invalidPacket, .endOfPacket])
    (he : exec i s = atItem (itemOf size d l s) s) : ∃ t, exec i s = .next t ∧ Ends i s t := by
  obtain ⟨t, ht⟩ : ∃ t, atItem (itemOf size d l s) s = .next t := by
    unfold atItem; split_ifs <;> exact ⟨_, rfl⟩
  exact ⟨t, by rw [he, ht], ends_itemOf hi ha ht⟩

/-- What an instruction can do. -/
theorem exec_ends (i : Instr) (s : State) : ∃ t, exec i s = .next t ∧ Ends i s t := by
  cases i with
  | getVer =>
    refine ⟨_, rfl, ends_headerDecode (by simp) (by simp) (by decide) (by decide) fun e h => ?_⟩
    unfold versionOf at h; split at h <;> cases h; decide
  | getType =>
    exact ⟨_, rfl, ends_headerDecode (by simp) (by simp) (by decide) (by decide) fun e h => by cases h⟩
  | getTkl =>
    refine ⟨_, rfl, ends_headerDecode (by simp) (by simp) (by decide) (by decide) fun e h => ?_⟩
    unfold tokenLengthOf at h; split at h <;> cases h; decide
  | getCode => exact ⟨_, rfl, ends_decodeCodeByte (by simp) (by simp) (by decide) (by decide) (.inl ⟨rfl, rfl⟩)⟩
  | getMid =>
    exact ⟨_, rfl, ends_headerDecode (by simp) (by simp) (by decide) (by decide) fun e h => by cases h⟩
  | setVer =>
    simp only [exec, execSetVer]
    split
    · exact ⟨_, rfl, .failed _ (by decide) (by simp)⟩
    · exact ⟨_, rfl, .wroteByte0 _ _ (by simp)⟩
  | setType =>
    simp only [exec, execSetType]
    split
    · exact ⟨_, rfl, .failed _ (by decide) (by simp)⟩
    · exact ⟨_, rfl, .wroteByte0 _ _ (by simp)⟩
  | setTkl =>
    simp only [exec, execSetTkl]
    split
    · exact ⟨_, rfl, .failed _ (by decide) (by simp)⟩
    · exact ⟨_, rfl, .wroteByte0 _ _ (by simp)⟩
  | setCode =>
    simp only [exec, execSetCode]
    split
    · exact ⟨_, rfl, .wroteByte1 _ _ rfl⟩
    · exact ⟨_, rfl, .failed _ (by decide) (by simp)⟩
  | setMid => exact ⟨_, rfl, .wroteMid _ _ rfl (by simp)⟩
  | buildHdr =>
    simp only [exec, execBuildHdr]
    split_ifs
    · exact ⟨_, rfl, .failed _ (by decide) (by simp)⟩
    · exact ⟨_, rfl, .failed _ (by decide) (by simp)⟩
    · exact ⟨_, rfl, .failed _ (by decide) (by simp)⟩
    · exact ⟨_, rfl, .failed _ (by decide) (by simp)⟩
    · exact ⟨_, rfl, .wroteHeader _ _ rfl rfl⟩
  | decOpt =>
    simp only [exec, execDecOpt]
    split
    · exact ⟨_, rfl, .failed _ (by decide) (by simp)⟩
    · refine ⟨_, rfl, ends_finishItem (.inl rfl) (fun it h => ?_) fun e h => ?_⟩
      · obtain ⟨h1, rfl⟩ := tlv_ok _ _ _ h
        exact h1.2.2.2
      · rcases tlv_error_cases h with rfl | rfl | rfl <;> decide
  | cntOpt =>
    refine ⟨_, rfl, ends_finish (by simp) (by simp) fun e h => ?_⟩
    unfold countResults at h
    split at h <;> cases h
    next h => rcases walk_error h with rfl | rfl | rfl <;> decide
  | getOpt =>
    refine ⟨_, rfl, ends_finish (by simp) (by simp) fun e h => ?_⟩
    unfold optResults at h
    split at h <;> cases h
    next h => rcases optAt_error_cases h with rfl | rfl | rfl | rfl | rfl <;> decide
  | optHlen =>
    refine ⟨_, rfl, ends_finish (by simp) (by simp) fun e h => ?_⟩
    unfold headerLenResults at h
    split at h <;> cases h
    next h => rcases optCheck_error_cases h with rfl | rfl <;> decide
  | optHbld =>
    simp only [exec, execOptHbld]
    cases hb : headerToBuild s with
    | error e =>
      refine ⟨_, rfl, .failed _ ?_ (by simp)⟩
      unfold headerToBuild at hb
      split at hb
      · next h => cases hb; rcases optCheck_error_cases h with rfl | rfl <;> decide
      · split_ifs at hb <;> cases hb <;> decide
    | ok bs =>
      refine ⟨_, rfl, .wroteAtCursor _ rfl ?_⟩
      unfold headerToBuild at hb
      split at hb
      · cases hb
      · split_ifs at hb <;> cases hb
        rw [length_optHeader]
        omega
  | addOpt =>
    refine ⟨_, rfl, ends_finishAppend (by simp) (fun bs h => ?_) fun e h => ?_⟩
    · unfold optionToAdd at h
      split at h
      · cases h
      · split at h
        · cases h
        · split_ifs at h <;> cases h
          simp only [List.length_append, length_optHeader, length_valBytes]
          omega
    · unfold optionToAdd at h
      split at h
      · next hw => cases h; rcases walk_error hw with rfl | rfl | rfl <;> decide
      · split at h
        · next hc => cases h; rcases optCheck_error_cases hc with rfl | rfl <;> decide
        · split_ifs at h <;> cases h <;> decide
  | getPayload =>
    refine ⟨_, rfl, ends_finish (by simp) (by simp) fun e h => ?_⟩
    unfold payloadResults at h
    split at h
    · next hw => cases h; rcases walk_error hw with rfl | rfl | rfl <;> decide
    · split at h
      · cases h; decide
      · split at h <;> cases h
  | setPayload =>
    refine ⟨_, rfl, ends_finishAppend (by simp) (fun bs h => ?_) fun e h => ?_⟩
    · unfold payloadToSet at h
      split at h
      · cases h
      · split at h
        · cases h
        · split_ifs at h <;> cases h
          simp only [List.length_cons, length_valBytes]
          omega
    · unfold payloadToSet at h
      split at h
      · cases h; decide
      · split at h
        · next hw => cases h; rcases walk_error hw with rfl | rfl | rfl <;> decide
        · split_ifs at h <;> cases h <;> decide
  | validate =>
    simp only [exec, execValidate]
    rcases stageVer_cases s with ⟨n, h⟩ | ⟨e, st, h, h1, h2⟩ | ⟨k, h, h1, h2⟩
    · rw [h]; exact ⟨_, rfl, .accepted n rfl⟩
    · rw [h]; exact ⟨_, rfl, .stopped e st rfl h2 h1⟩
    · rw [h]; exact ⟨_, rfl, .reserved k rfl h1 h2⟩
  | illegal o => exact ⟨_, rfl, .failed _ (by simp [allowedErrors]) (by simp)⟩
  | wireHdrByte0 v t k =>
    rcases execWireHdrByte0_cases v t k s with ⟨r, h⟩ | ⟨e, h, he⟩
    · exact ⟨_, h, .read _ (by simp [formatOf])⟩
    · exact ⟨_, h, .failed _ he (by simp)⟩
  | wireHdrByte1 c =>
    exact ⟨_, rfl, ends_decodeCodeByte (by simp) (by simp [formatOf]) (by simp [allowedErrors]) (by simp [allowedErrors])
      (.inr rfl)⟩
  | wireHdrMid m =>
    exact ⟨_, rfl, ends_headerDecode (by simp) (by simp [formatOf]) (by simp [allowedErrors]) (by simp [allowedErrors])
      fun e h => by cases h⟩
  | wireMarker =>
    obtain ⟨t, ht⟩ : ∃ t, exec .wireMarker s = .next t := by
      simp only [exec, execWireMarker, atItem]; split_ifs <;> exact ⟨_, rfl⟩
    exact ⟨t, ht, ends_atItem (by simp [formatOf]) (fun it h => by cases h) (fun e h => by cases h; simp [allowedErrors])
      (by simp [allowedErrors]) ht⟩
  | wireTlv d l =>
    obtain ⟨t, ht⟩ : ∃ t, exec (.wireTlv d l) s = .next t := by
      simp only [exec, execWireTlv, atItem]; split_ifs <;> exact ⟨_, rfl⟩
    exact ⟨t, ht, ends_atItem (by simp [formatOf]) (fun it h => tlvBody_ok h)
      (fun e h => by rw [tlvBody_error h]; simp [allowedErrors]) (by simp [allowedErrors]) ht⟩
  | wireTlvReservedDelta15 l =>
    obtain ⟨t, ht⟩ : ∃ t, exec (.wireTlvReservedDelta15 l) s = .next t := by
      simp only [exec, execWireTlvReservedDelta15, atItem]; split_ifs <;> exact ⟨_, rfl⟩
    exact ⟨t, ht, ends_atItem (by simp [formatOf]) (fun it h => by cases h) (fun e h => by cases h; simp [allowedErrors])
      (by simp [allowedErrors]) ht⟩
  | wireTlvReservedLen15 d =>
    obtain ⟨t, ht⟩ : ∃ t, exec (.wireTlvReservedLen15 d) s = .next t := by
      simp only [exec, execWireTlvReservedLen15, atItem]; split_ifs <;> exact ⟨_, rfl⟩
    exact ⟨t, ht, ends_atItem (by simp [formatOf]) (fun it h => by cases h) (fun e h => by cases h; simp [allowedErrors])
      (by simp [allowedErrors]) ht⟩
  | wireTlvDlitLlit d l => exact ends_wire rfl rfl rfl
  | wireTlvDlitLext1 d x => exact ends_wire rfl rfl rfl
  | wireTlvDlitLext2 d x => exact ends_wire rfl rfl rfl
  | wireTlvDext1Llit l e => exact ends_wire rfl rfl rfl
  | wireTlvDext1Lext1 e x => exact ends_wire rfl rfl rfl
  | wireTlvDext1Lext2 e x => exact ends_wire rfl rfl rfl
  | wireTlvDext2Llit l e => exact ends_wire rfl rfl rfl
  | wireTlvDext2Lext1 e x => exact ends_wire rfl rfl rfl
  | wireTlvDext2Lext2 e x => exact ends_wire rfl rfl rfl

theorem ends_of_exec {i : Instr} {s t : State} (h : exec i s = .next t) : Ends i s t := by
  obtain ⟨t', h', he⟩ := exec_ends i s
  rw [h] at h'
  cases h'
  exact he

end Sys2Proof.Machine
end

