-- ==== Sys2Proof/Laws/PerInstr.lean ====
section
/-! SUPPORT. One law per constructor: the encoding of a well-formed instruction matches the bit pattern of its row of
spec/opcode_table.json, byte by byte: as many bytes as the pattern has, and every fixed bit as the pattern fixes it. -/

namespace Sys2Proof.Laws.TablePattern

/-- The row's "encoding", one (mask of the fixed bits, their value) for each byte. -/
def pattern : Instr → List (Byte × Byte)
  | .getVer => [(0xFF, 0x01)]
  | .getType => [(0xFF, 0x02)]
  | .getTkl => [(0xFF, 0x03)]
  | .getCode => [(0xFF, 0x04)]
  | .getMid => [(0xFF, 0x05)]
  | .setVer => [(0xFF, 0x11)]
  | .setType => [(0xFF, 0x12)]
  | .setTkl => [(0xFF, 0x13)]
  | .setCode => [(0xFF, 0x14)]
  | .setMid => [(0xFF, 0x15)]
  | .buildHdr => [(0xFF, 0x16)]
  | .decOpt => [(0xFF, 0x20)]
  | .cntOpt => [(0xFF, 0x21)]
  | .getOpt => [(0xFF, 0x22)]
  | .optHlen => [(0xFF, 0x30)]
  | .optHbld => [(0xFF, 0x31)]
  | .addOpt => [(0xFF, 0x32)]
  | .getPayload => [(0xFF, 0x40)]
  | .setPayload => [(0xFF, 0x41)]
  | .validate => [(0xFF, 0x50)]
  | .illegal _ => [(0x00, 0x00)]
  | .wireHdrByte0 _ _ _ => [(0x00, 0x00)]
  | .wireHdrByte1 _ => [(0x00, 0x00)]
  | .wireHdrMid _ => [(0x00, 0x00), (0x00, 0x00)]
  | .wireMarker => [(0xFF, 0xFF)]
  | .wireTlv _ _ => [(0x00, 0x00)]
  | .wireTlvReservedDelta15 _ => [(0xF0, 0xF0)]
  | .wireTlvReservedLen15 _ => [(0x0F, 0x0F)]
  | .wireTlvDlitLlit _ _ => [(0x00, 0x00)]
  | .wireTlvDlitLext1 _ _ => [(0x0F, 0x0D), (0x00, 0x00)]
  | .wireTlvDlitLext2 _ _ => [(0x0F, 0x0E), (0x00, 0x00), (0x00, 0x00)]
  | .wireTlvDext1Llit _ _ => [(0xF0, 0xD0), (0x00, 0x00)]
  | .wireTlvDext1Lext1 _ _ => [(0xFF, 0xDD), (0x00, 0x00), (0x00, 0x00)]
  | .wireTlvDext1Lext2 _ _ => [(0xFF, 0xDE), (0x00, 0x00), (0x00, 0x00), (0x00, 0x00)]
  | .wireTlvDext2Llit _ _ => [(0xF0, 0xE0), (0x00, 0x00), (0x00, 0x00)]
  | .wireTlvDext2Lext1 _ _ => [(0xFF, 0xED), (0x00, 0x00), (0x00, 0x00), (0x00, 0x00)]
  | .wireTlvDext2Lext2 _ _ => [(0xFF, 0xEE), (0x00, 0x00), (0x00, 0x00), (0x00, 0x00), (0x00, 0x00)]

/-- The encoding matches the row's pattern. -/
def Statement (i : Instr) : Prop :=
  WellFormed i = true → List.Forall₂ (fun b p => b &&& p.1 = p.2) (encode i) (pattern i)

theorem nibbles_hi_fixed : ∀ l : Nibble, (nibbles 13#4 l &&& 0xF0#8 = 0xD0#8) ∧ (nibbles 14#4 l &&& 0xF0#8 = 0xE0#8) ∧
    (nibbles 15#4 l &&& 0xF0#8 = 0xF0#8) := by decide

theorem nibbles_lo_fixed : ∀ d : Nibble, (nibbles d 13#4 &&& 0x0F#8 = 0x0D#8) ∧ (nibbles d 14#4 &&& 0x0F#8 = 0x0E#8) ∧
    (nibbles d 15#4 &&& 0x0F#8 = 0x0F#8) := by decide

theorem getVer : Statement .getVer := by
  intro _
  simp [encode, pattern]

theorem getType : Statement .getType := by
  intro _
  simp [encode, pattern]

theorem getTkl : Statement .getTkl := by
  intro _
  simp [encode, pattern]

theorem getCode : Statement .getCode := by
  intro _
  simp [encode, pattern]

theorem getMid : Statement .getMid := by
  intro _
  simp [encode, pattern]

theorem setVer : Statement .setVer := by
  intro _
  simp [encode, pattern]

theorem setType : Statement .setType := by
  intro _
  simp [encode, pattern]

theorem setTkl : Statement .setTkl := by
  intro _
  simp [encode, pattern]

theorem setCode : Statement .setCode := by
  intro _
  simp [encode, pattern]

theorem setMid : Statement .setMid := by
  intro _
  simp [encode, pattern]

theorem buildHdr : Statement .buildHdr := by
  intro _
  simp [encode, pattern]

theorem decOpt : Statement .decOpt := by
  intro _
  simp [encode, pattern]

theorem cntOpt : Statement .cntOpt := by
  intro _
  simp [encode, pattern]

theorem getOpt : Statement .getOpt := by
  intro _
  simp [encode, pattern]

theorem optHlen : Statement .optHlen := by
  intro _
  simp [encode, pattern]

theorem optHbld : Statement .optHbld := by
  intro _
  simp [encode, pattern]

theorem addOpt : Statement .addOpt := by
  intro _
  simp [encode, pattern]

theorem getPayload : Statement .getPayload := by
  intro _
  simp [encode, pattern]

theorem setPayload : Statement .setPayload := by
  intro _
  simp [encode, pattern]

theorem validate : Statement .validate := by
  intro _
  simp [encode, pattern]

theorem illegal (o : Byte) : Statement (.illegal o) := by
  intro _
  simp [encode, pattern]

theorem wireHdrByte0 (v : BitVec 2) (t : BitVec 2) (k : Nibble) : Statement (.wireHdrByte0 v t k) := by
  intro _
  simp [encode, pattern]

theorem wireHdrByte1 (c : Byte) : Statement (.wireHdrByte1 c) := by
  intro _
  simp [encode, pattern]

theorem wireHdrMid (m : Half) : Statement (.wireHdrMid m) := by
  intro _
  simp [encode, pattern]

theorem wireMarker : Statement .wireMarker := by
  intro _
  simp [encode, pattern]

theorem wireTlv (d : Nibble) (l : Nibble) : Statement (.wireTlv d l) := by
  intro _
  simp [encode, pattern]

theorem wireTlvReservedDelta15 (l : Nibble) : Statement (.wireTlvReservedDelta15 l) := by
  intro _
  simp [encode, pattern, nibbles_hi_fixed]

theorem wireTlvReservedLen15 (d : Nibble) : Statement (.wireTlvReservedLen15 d) := by
  intro _
  simp [encode, pattern, nibbles_lo_fixed]

theorem wireTlvDlitLlit (d : Nibble) (l : Nibble) : Statement (.wireTlvDlitLlit d l) := by
  intro _
  simp [encode, pattern]

theorem wireTlvDlitLext1 (d : Nibble) (x : Byte) : Statement (.wireTlvDlitLext1 d x) := by
  intro _
  simp [encode, pattern, nibbles_lo_fixed]

theorem wireTlvDlitLext2 (d : Nibble) (x : Half) : Statement (.wireTlvDlitLext2 d x) := by
  intro _
  simp [encode, pattern, nibbles_lo_fixed]

theorem wireTlvDext1Llit (l : Nibble) (e : Byte) : Statement (.wireTlvDext1Llit l e) := by
  intro _
  simp [encode, pattern, nibbles_hi_fixed]

theorem wireTlvDext1Lext1 (e : Byte) (x : Byte) : Statement (.wireTlvDext1Lext1 e x) := by
  intro _
  simp [encode, pattern]

theorem wireTlvDext1Lext2 (e : Byte) (x : Half) : Statement (.wireTlvDext1Lext2 e x) := by
  intro _
  simp [encode, pattern]

theorem wireTlvDext2Llit (l : Nibble) (e : Half) : Statement (.wireTlvDext2Llit l e) := by
  intro _
  simp [encode, pattern, nibbles_hi_fixed]

theorem wireTlvDext2Lext1 (e : Half) (x : Byte) : Statement (.wireTlvDext2Lext1 e x) := by
  intro _
  simp [encode, pattern]

theorem wireTlvDext2Lext2 (e : Half) (x : Half) : Statement (.wireTlvDext2Lext2 e x) := by
  intro _
  simp [encode, pattern]

end Sys2Proof.Laws.TablePattern
end

