-- ==== Sys2Proof/Laws/Step.lean ====
section
/-! SUPPORT. What a step can do, said once: it performs one access of the host, or it runs one command to its end. -/

namespace Sys2Proof.Machine

/-- Every way a step can go. -/
inductive StepEnds (s : State) : State → Prop where
  | idle : s.hostIn = [] → s.status.busy = false → StepEnds s s
  | resetPin (rest : List HostAction) : s.hostIn = .reset :: rest → StepEnds s (resetPin { s with hostIn := rest })
  | wroteReg (n : Nat) (v : Word) (rest : List HostAction) : s.hostIn = .writeReg n v :: rest → s.status.busy = false → n ≠ 0 →
      StepEnds s (writeReg n v { s with hostIn := rest })
  | wroteBuf (a : Nat) (b : Byte) (rest : List HostAction) : s.hostIn = .writeBuf a b :: rest → s.status.busy = false →
      StepEnds s (writeBuf a b { s with hostIn := rest })
  | wroteVal (a : Nat) (b : Byte) (rest : List HostAction) : s.hostIn = .writeVal a b :: rest → s.status.busy = false →
      StepEnds s (writeVal a b { s with hostIn := rest })
  | inFlight {t : State} : s.status.busy = true → s.hostIn.head? ≠ some .reset → Ends (decodeOpcode s.cmd) s t →
      StepEnds s t
  | started (v : Word) (rest : List HostAction) {t : State} : s.hostIn = .writeReg 0 v :: rest → s.status.busy = false →
      Ends (decodeCommand v) (startCommand (v.extractLsb' 0 8) { s with hostIn := rest }) t → StepEnds s t

theorem step_busy {s : State} (hb : s.status.busy = true) (hr : s.hostIn.head? ≠ some .reset) :
    step s = exec (decodeOpcode s.cmd) s := by
  unfold step nextEvent
  cases hh : s.hostIn with
  | nil => simp [hb, currentInstr]
  | cons a rest =>
    rw [hh] at hr
    cases a <;> first | (simp at hr; done) | simp [hb, currentInstr]

theorem step_started {s : State} {v : Word} {rest : List HostAction} (h : s.hostIn = .writeReg 0 v :: rest)
    (hb : s.status.busy = false) :
    step s = exec (decodeCommand v) (startCommand (v.extractLsb' 0 8) { s with hostIn := rest }) := by
  simp only [step, nextEvent, h, hb, performAction]
  rfl

theorem step_wroteReg {s : State} {n : Nat} {v : Word} {rest : List HostAction} (h : s.hostIn = .writeReg n v :: rest)
    (hb : s.status.busy = false) (hn : n ≠ 0) : step s = .next (writeReg n v { s with hostIn := rest }) := by
  simp only [step, nextEvent, h, hb, performAction, if_neg hn]
  rfl

theorem step_wroteBuf {s : State} {a : Nat} {b : Byte} {rest : List HostAction} (h : s.hostIn = .writeBuf a b :: rest)
    (hb : s.status.busy = false) : step s = .next (writeBuf a b { s with hostIn := rest }) := by
  simp only [step, nextEvent, h, hb, performAction]
  rfl

theorem step_wroteVal {s : State} {a : Nat} {b : Byte} {rest : List HostAction} (h : s.hostIn = .writeVal a b :: rest)
    (hb : s.status.busy = false) : step s = .next (writeVal a b { s with hostIn := rest }) := by
  simp only [step, nextEvent, h, hb, performAction]
  rfl

theorem step_reset {s : State} {rest : List HostAction} (h : s.hostIn = .reset :: rest) :
    step s = .next (resetPin { s with hostIn := rest }) := by simp only [step, nextEvent, h]

theorem step_idle {s : State} (h : s.hostIn = []) (hb : s.status.busy = false) : step s = .next s := by
  simp only [step, nextEvent, h, hb]
  rfl

/-- What a step can do. -/
theorem step_ends (s : State) : ∃ t, step s = .next t ∧ StepEnds s t := by
  by_cases hb : s.status.busy = true
  · by_cases hr : s.hostIn.head? = some .reset
    · obtain ⟨rest, h⟩ : ∃ rest, s.hostIn = .reset :: rest := by
        cases hh : s.hostIn with
        | nil => simp [hh] at hr
        | cons a rest => rw [hh] at hr; cases hr; exact ⟨rest, rfl⟩
      exact ⟨_, step_reset h, .resetPin rest h⟩
    · obtain ⟨t, h, he⟩ := exec_ends (decodeOpcode s.cmd) s
      exact ⟨t, by rw [step_busy hb hr, h], .inFlight hb hr he⟩
  · have hb : s.status.busy = false := by simpa using hb
    cases hh : s.hostIn with
    | nil => exact ⟨s, step_idle hh hb, .idle hh hb⟩
    | cons a rest =>
      cases a with
      | reset => exact ⟨_, step_reset hh, .resetPin rest hh⟩
      | writeBuf o b => exact ⟨_, step_wroteBuf hh hb, .wroteBuf o b rest hh hb⟩
      | writeVal o b => exact ⟨_, step_wroteVal hh hb, .wroteVal o b rest hh hb⟩
      | writeReg n v =>
        by_cases hn : n = 0
        · subst hn
          obtain ⟨t, h, he⟩ := exec_ends (decodeCommand v) (startCommand (v.extractLsb' 0 8) { s with hostIn := rest })
          exact ⟨t, by rw [step_started hh hb, h], .started v rest hh hb he⟩
        · exact ⟨_, step_wroteReg hh hb hn, .wroteReg n v rest hh hb hn⟩

theorem stepEnds_of_step {s t : State} (h : step s = .next t) : StepEnds s t := by
  obtain ⟨t', h', he⟩ := step_ends s
  rw [h] at h'
  cases h'
  exact he

/-- `BUSY` is clear after every step, whatever stood before it: a step is the whole command (R17). -/
theorem StepEnds.not_busy {s t : State} (h : StepEnds s t) : t.status.busy = false := by
  cases h with
  | idle _ hb => exact hb
  | resetPin rest _ => rfl
  | wroteReg n v rest _ hb _ => unfold writeReg; split <;> exact hb
  | wroteBuf a b rest _ hb => simpa using hb
  | wroteVal a b rest _ hb => simpa using hb
  | inFlight _ _ he => exact he.done.2
  | started v rest _ _ he => exact he.done.2

end Sys2Proof.Machine
end

