-- ==== Sys2Proof/Tests/Slice0.lean ====
section
/-! SUPPORT. Tests: the checks of WellFormed, words of every row written out from spec/ (30_encoding.md, 43 R207 and
spec/opcode_table.json), one-step runs with the outcomes of spec/95_test_vectors.md, and for every statement with hypotheses a
state that meets them. -/

namespace Sys2Proof.Tests

open Sys2Proof Sys2Proof.Machine

/-! ### Ill-formed terms, one for each check of `WellFormed` -/

theorem test_wf_illegal : WellFormed (.illegal 0x50) = false := by decide
theorem test_wf_tlv_delta : WellFormed (.wireTlv 15 0) = false := by decide
theorem test_wf_tlv_length : WellFormed (.wireTlv 0 15) = false := by decide
theorem test_wf_reservedDelta : WellFormed (.wireTlvReservedDelta15 15) = false := by decide
theorem test_wf_reservedLen : WellFormed (.wireTlvReservedLen15 15) = false := by decide
theorem test_wf_dlitLlit_delta : WellFormed (.wireTlvDlitLlit 13 12) = false := by decide
theorem test_wf_dlitLlit_length : WellFormed (.wireTlvDlitLlit 12 13) = false := by decide
theorem test_wf_dlitLext1 : WellFormed (.wireTlvDlitLext1 13 0) = false := by decide
theorem test_wf_dlitLext2 : WellFormed (.wireTlvDlitLext2 14 0) = false := by decide
theorem test_wf_dext1Llit : WellFormed (.wireTlvDext1Llit 13 0) = false := by decide
theorem test_wf_dext2Llit : WellFormed (.wireTlvDext2Llit 15 0) = false := by decide
theorem test_wf_dlitLlit_ok : WellFormed (.wireTlvDlitLlit 12 12) = true := by decide

/-! ### Decoding -/

/-- R115: the opcode column of the table. -/
theorem test_decode_header_commands :
    [0x01, 0x02, 0x03, 0x04, 0x05, 0x11, 0x12, 0x13, 0x14, 0x15, 0x16].map decodeOpcode =
      [.getVer, .getType, .getTkl, .getCode, .getMid, .setVer, .setType, .setTkl, .setCode, .setMid, .buildHdr] := by decide
theorem test_decode_other_commands :
    [0x20, 0x21, 0x22, 0x30, 0x31, 0x32, 0x40, 0x41, 0x50].map decodeOpcode =
      [.decOpt, .cntOpt, .getOpt, .optHlen, .optHbld, .addOpt, .getPayload, .setPayload, .validate] := by decide
/-- R282: 0x00 and 0x06 select no operation. -/
theorem test_decode_illegal : [0x00, 0x06, 0xFF].map decodeOpcode = [.illegal 0x00, .illegal 0x06, .illegal 0xFF] := by decide
/-- R117: bits 31:8 are ignored. -/
theorem test_decode_command_word : decodeCommand 0xABCDEF01 = .getVer := by decide
/-- 95 section 2: `52` = `01 01 0010`. -/
theorem test_decode_hdrByte0 : decode .hdrByte0 [0b01010010] = .ok (.wireHdrByte0 1 1 2, []) := rfl
theorem test_decode_hdrByte1 : decode .hdrByte1 [0x45] = .ok (.wireHdrByte1 0x45, []) := rfl
/-- 95 section 2: big-endian. -/
theorem test_decode_hdrMid : decode .hdrMid [0x12, 0x34] = .ok (.wireHdrMid 0x1234, []) := rfl
theorem test_decode_marker : decode .item [0b11111111] = .ok (.wireMarker, []) := rfl
theorem test_decode_tlv : decode .item [0b10110001] = .ok (.wireTlv 11 1, []) := rfl
theorem test_decode_reservedDelta : decode .item [0b11110000] = .ok (.wireTlvReservedDelta15 0, []) := rfl
theorem test_decode_reservedLen : decode .item [0b11101111] = .ok (.wireTlvReservedLen15 14, []) := rfl
/-- 95 section 5, the nine classes. -/
theorem test_decode_dlitLlit : decode .tlvHeader [0xCC] = .ok (.wireTlvDlitLlit 12 12, []) := rfl
theorem test_decode_dlitLext1 : decode .tlvHeader [0x1D, 0xFF] = .ok (.wireTlvDlitLext1 1 0xFF, []) := rfl
theorem test_decode_dlitLext2 : decode .tlvHeader [0x1E, 0x00, 0x01] = .ok (.wireTlvDlitLext2 1 0x0001, []) := rfl
theorem test_decode_dext1Llit : decode .tlvHeader [0xD0, 0xFF] = .ok (.wireTlvDext1Llit 0 0xFF, []) := rfl
theorem test_decode_dext1Lext1 : decode .tlvHeader [0xDD, 0x01, 0x02] = .ok (.wireTlvDext1Lext1 0x01 0x02, []) := rfl
theorem test_decode_dext1Lext2 : decode .tlvHeader [0xDE, 0x01, 0x00, 0x02] = .ok (.wireTlvDext1Lext2 0x01 0x0002, []) := rfl
theorem test_decode_dext2Llit : decode .tlvHeader [0xE0, 0x00, 0x01] = .ok (.wireTlvDext2Llit 0 0x0001, []) := rfl
theorem test_decode_dext2Lext1 : decode .tlvHeader [0xED, 0x00, 0x14, 0x01] = .ok (.wireTlvDext2Lext1 0x0014 0x01, []) := rfl
theorem test_decode_dext2Lext2 :
    decode .tlvHeader [0xEE, 0x00, 0x01, 0x12, 0x34] = .ok (.wireTlvDext2Lext2 0x0001 0x1234, []) := rfl
theorem test_decode_cut : decode .tlvHeader [0xE0, 0x00] = .error .truncated := rfl
/-- C3: the marker is tested before the nibbles. -/
theorem test_decode_marker_no_header : decode .tlvHeader [0xFF] = .error .isMarker := rfl
/-- The table's words (logs 12, 13). -/
theorem test_tableWords :
    decodeTableWord 8 0x01 = some .getVer ∧ decodeTableWord 8 0xFF = some .wireMarker ∧
    decodeTableWord 16 0x1D00 = some (.wireTlvDlitLext1 1 0) ∧ decodeTableWord 16 0x1234 = some (.wireHdrMid 0x1234) ∧
    decodeTableWord 24 0xE00001 = some (.wireTlvDext2Llit 0 1) ∧
    decodeTableWord 40 0xEE00011234 = some (.wireTlvDext2Lext2 1 0x1234) ∧ decodeTableWord 24 0x123456 = none := by decide

/-! ### Small states and one-step runs -/

/-- A frame in the buffer, `LEN` its length. -/
def frame (bs : List Byte) : State := { writeBufBytes 0 bs State.reset with len := BitVec.ofNat 16 bs.length }

/-- Bytes staged in `VAL` from offset 0 on. -/
def staged (bs : List Byte) (s : State) : State :=
  { s with val := (bs.zipIdx.foldl (fun m p => Memory.store m p.2 p.1) ([] : Memory)) }

/-- Issue a command with operands, by the host's write of `CMD`. -/
def issued (o : Word) (s : State) (a0 a1 a2 a3 a4 : Word := 0) : Host.Outcome State Fault Refusal :=
  step { s with arg0 := a0, arg1 := a1, arg2 := a2, arg3 := a3, arg4 := a4, hostIn := [.writeReg 0 o] }

/-- `STATUS` and `RES0..2` after a step. -/
def results : Host.Outcome State Fault Refusal → Option (Nat × Nat × Nat × Nat)
  | .next t => some ((hostReadReg t 1).toNat, t.res.r0.toNat, t.res.r1.toNat, t.res.r2.toNat)
  | .fault _ => none
  | .refused _ => none

/-- `STATUS`, `LEN` and the bytes of the buffer from offset `a` on after a step. -/
def frameAfter (a n : Nat) : Host.Outcome State Fault Refusal → Option (Nat × Nat × List Byte)
  | .next t => some ((hostReadReg t 1).toNat, t.len.toNat, (List.range' a n).map t.bufByte)
  | .fault _ => none
  | .refused _ => none

/-- `STATUS`, `CURSOR`, `OPTNUM` and `VSTATE` after a step. -/
def registers : Host.Outcome State Fault Refusal → Option (Nat × Nat × Nat × Nat)
  | .next t => some ((hostReadReg t 1).toNat, t.cursor.toNat, t.optnum.toNat, (hostReadReg t 13).toNat)
  | .fault _ => none
  | .refused _ => none

/-- 95 S1. -/
def s1 : State := frame [0x40, 0x01, 0x00, 0x01]
/-- 95 section 2. -/
def h2 : State := frame [0x52, 0x45, 0x12, 0x34, 0xAA, 0xBB]
/-- 95 S2's result: one option, number 11. -/
def s2 : State := frame [0x40, 0x01, 0x00, 0x01, 0xB1, 0x61]
/-- 95 section 7: two options, 11 and 17, and a payload of two bytes. -/
def s3p : State := frame [0x40, 0x01, 0x00, 0x01, 0xB1, 0x61, 0x61, 0x28, 0xFF, 0x68, 0x69]
/-- An option 9, then a malformed entry. -/
def m9 : State := frame [0x40, 0x01, 0x00, 0x01, 0x90, 0xF0]
/-- 95 section 7: option 11, then 128, a reserved number. -/
def r128 : State := frame [0x40, 0x01, 0x00, 0x01, 0xB1, 0x61, 0xD0, 0x68]
/-- The marker right after the header. -/
def mk : State := frame [0x40, 0x01, 0x00, 0x01, 0xFF]

theorem test_getVer : results (issued 0x01 h2) = some (0x100, 1, 0, 0) := by decide
theorem test_getVer_invalid : results (issued 0x01 (frame [0x80, 0x01, 0x00, 0x01])) = some (0x102, 0, 0, 0) := by decide
theorem test_getType : results (issued 0x02 (frame [0xB0, 0x01, 0x00, 0x01])) = some (0x100, 3, 0, 0) := by decide
theorem test_getType_long : results (issued 0x02 { h2 with len := 1461 }) = some (0x108, 0, 0, 0) := by decide
theorem test_getTkl : results (issued 0x03 (frame [0x48, 0x01, 0x00, 0x01])) = some (0x100, 8, 0, 0) := by decide
theorem test_getTkl_invalid : results (issued 0x03 (frame [0x49, 0x01, 0x00, 0x01])) = some (0x104, 0, 0, 0) := by decide
theorem test_getCode : results (issued 0x04 s1) = some (0x100, 1, 0, 0) := by decide
theorem test_getCode_short : results (issued 0x04 (frame [0x40, 0x01, 0x00])) = some (0x101, 0, 0, 0) := by decide
theorem test_getMid : results (issued 0x05 h2) = some (0x100, 0x1234, 0, 0) := by decide
theorem test_setVer : frameAfter 0 4 (issued 0x11 (frame [0xFF, 0, 0, 0]) 1) = some (0x100, 4, [0x7F, 0, 0, 0]) := by decide
theorem test_setVer_wide : frameAfter 0 4 (issued 0x11 (frame [0, 0, 0, 0]) 0x101) = some (0x102, 4, [0, 0, 0, 0]) := by
  decide
theorem test_setType : frameAfter 0 4 (issued 0x12 (frame [0x7F, 0, 0, 0]) 0) = some (0x100, 4, [0x4F, 0, 0, 0]) := by decide
theorem test_setType_invalid : results (issued 0x12 (frame [0x40, 0, 0, 0]) 4) = some (0x103, 0, 0, 0) := by decide
theorem test_setTkl : frameAfter 0 4 (issued 0x13 (frame [0x40, 0, 0, 0]) 8) = some (0x100, 4, [0x48, 0, 0, 0]) := by decide
theorem test_setTkl_invalid : results (issued 0x13 (frame [0x40, 0, 0, 0]) 9) = some (0x104, 0, 0, 0) := by decide
theorem test_setCode : frameAfter 0 4 (issued 0x14 (frame [0x40, 0, 0, 0]) 1) = some (0x100, 4, [0x40, 1, 0, 0]) := by decide
theorem test_setCode_wide : results (issued 0x14 (frame [0x40, 0, 0, 0]) 0x101) = some (0x105, 0, 0, 0) := by decide
theorem test_setMid :
    frameAfter 0 4 (issued 0x15 (frame [0x40, 1, 0, 0]) 0xABCD1234) = some (0x100, 4, [0x40, 0x01, 0x12, 0x34]) := by decide
theorem test_setMid_count : results (issued 0x15 (frame [0x40, 1, 0, 0]) 0x1234) = some (0x100, 4, 0, 0) := by decide
theorem test_buildHdr :
    frameAfter 0 4 (issued 0x16 (frame [0xAA, 0xBB, 0xCC, 0xDD]) 1 3 8 1 0xFFFF) = some (0x100, 4, [0x78, 0x01, 0xFF, 0xFF]) :=
  by decide
theorem test_buildHdr_first :
    frameAfter 0 4 (issued 0x16 (frame [0xAA, 0xBB, 0xCC, 0xDD]) 1 4 9 1 1) = some (0x103, 4, [0xAA, 0xBB, 0xCC, 0xDD]) := by
  decide
theorem test_decOpt :
    results (issued 0x20 { frame ([0x40, 0x01, 0x00, 0x01, 0xED, 0x00, 0x14, 0x01] ++ List.replicate 14 0x55) with cursor := 4 }) =
      some (0x100, 14, 8, 289) := by decide
theorem test_decOpt_wraps :
    registers (issued 0x20 { frame [0x40, 0x01, 0x00, 0x01, 0x10] with cursor := 4, optnum := 0xFFFFFFFF }) =
      some (0x100, 5, 0, 0) := by decide
theorem test_cntOpt : results (issued 0x21 s3p) = some (0x100, 2, 0, 0) := by decide
theorem test_cntOpt_malformed : results (issued 0x21 m9) = some (0x101, 0, 0, 0) := by decide
theorem test_getOpt : results (issued 0x22 s3p 1) = some (0x100, 17, 7, 1) := by decide
theorem test_getOpt_marker : results (issued 0x22 s3p 2) = some (0x109, 0, 0, 0) := by decide
theorem test_optHlen : results (issued 0x30 s1 300 14 11) = some (0x100, 4, 0, 0) := by decide
theorem test_optHlen_order : results (issued 0x30 s1 2 0 6) = some (0x107, 0, 0, 0) := by decide
theorem test_optHbld :
    frameAfter 1459 1 (issued 0x31 { s1 with cursor := 1459 } 11 1 0 1) = some (0x100, 4, [0xB1]) := by decide
theorem test_optHbld_full : results (issued 0x31 { s1 with cursor := 1458 } 300 14 11 4) = some (0x108, 0, 0, 0) := by decide
theorem test_addOpt :
    frameAfter 0 8 (issued 0x32 (staged [0x77] s2) 20 1) =
      some (0x100, 8, [0x40, 0x01, 0x00, 0x01, 0xB1, 0x61, 0x91, 0x77]) := by decide
theorem test_addOpt_order : frameAfter 0 6 (issued 0x32 s2 10 1) = some (0x107, 6, [0x40, 0x01, 0x00, 0x01, 0xB1, 0x61]) := by
  decide
theorem test_getPayload : results (issued 0x40 s3p 2) = some (0x100, 2, 9, 0) := by decide
theorem test_getPayload_none : results (issued 0x40 s2 1) = some (0x100, 0, 6, 0) := by decide
theorem test_setPayload :
    frameAfter 0 6 (issued 0x41 (staged [0x99] s1) 1) = some (0x100, 6, [0x40, 0x01, 0x00, 0x01, 0xFF, 0x99]) := by decide
theorem test_setPayload_empty : results (issued 0x41 (frame [0x40, 0x01, 0x00]) 0) = some (0x10B, 0, 0, 0) := by decide
theorem test_validate : registers (issued 0x50 s1) = some (0x100, 0, 0, 8) := by decide
theorem test_validate_reserved : registers (issued 0x50 r128) = some (0x106, 0, 0, 0x10007) := by decide
theorem test_illegal : results (issued 0x06 s1) = some (0x10C, 0, 0, 0) := by decide

/-! ### Loading a table word (log 14) -/

theorem test_fetch_command : results (step (State.reset.withFetchWord 8 0x30)) = some (0x100, 1, 0, 0) := by decide
theorem test_fetch_illegal : results (step (State.reset.withFetchWord 8 0x06)) = some (0x10C, 0, 0, 0) := by decide
theorem test_fetch_marker : results (step (State.reset.withFetchWord 8 0xFF)) = some (0x109, 0, 0, 0) := by decide
theorem test_fetch_mid : results (step (State.reset.withFetchWord 16 0x1234)) = some (0x100, 0x1234, 0, 0) := by decide
theorem test_fetch_tlv : results (step (State.reset.withFetchWord 40 0xEE00010001)) = some (0x100, 270, 9, 270) := by decide

/-! ### The wire rows as instructions (logs 10, 11): the outcomes are those of 95 sections 2 and 4 -/

theorem test_wireHdrByte0 : results (exec (.wireHdrByte0 1 1 2) h2) = some (0x100, 2, 0, 0) := by decide
theorem test_wireHdrByte0_version : results (exec (.wireHdrByte0 2 0 9) s1) = some (0x102, 0, 0, 0) := by decide
theorem test_wireHdrByte1 : results (exec (.wireHdrByte1 1) s1) = some (0x100, 1, 0, 0) := by decide
theorem test_wireHdrMid : results (exec (.wireHdrMid 0xFFFF) s1) = some (0x100, 65535, 0, 0) := by decide
theorem test_wireMarker : results (exec .wireMarker { mk with cursor := 4 }) = some (0x109, 0, 0, 0) := by decide
theorem test_wireTlv : results (exec (.wireTlv 11 1) { s2 with cursor := 4 }) = some (0x100, 1, 5, 11) := by decide
theorem test_wireTlvReservedDelta15 :
    results (exec (.wireTlvReservedDelta15 0) { m9 with cursor := 5 }) = some (0x101, 0, 0, 0) := by decide
theorem test_wireTlvReservedLen15 :
    results (exec (.wireTlvReservedLen15 0) { m9 with cursor := 5 }) = some (0x101, 0, 0, 0) := by decide
theorem test_wireTlvDlitLlit : registers (exec (.wireTlvDlitLlit 11 1) { s2 with cursor := 4 }) = some (0x100, 6, 11, 0) := by
  decide
theorem test_wireTlvDlitLext1 :
    results (exec (.wireTlvDlitLext1 1 0xFF) { s1 with cursor := 4, len := 274 }) = some (0x100, 268, 6, 1) := by decide
theorem test_wireTlvDlitLext2 :
    results (exec (.wireTlvDlitLext2 1 1) { s1 with cursor := 4, len := 277 }) = some (0x100, 270, 7, 1) := by decide
theorem test_wireTlvDext1Llit :
    results (exec (.wireTlvDext1Llit 0 0xFF) { s1 with cursor := 4, len := 6 }) = some (0x100, 0, 6, 268) := by decide
theorem test_wireTlvDext1Lext1 :
    results (exec (.wireTlvDext1Lext1 0 0) { s1 with cursor := 4, len := 20 }) = some (0x100, 13, 7, 13) := by decide
theorem test_wireTlvDext1Lext2 :
    results (exec (.wireTlvDext1Lext2 1 2) { s1 with cursor := 4, len := 279 }) = some (0x100, 271, 8, 14) := by decide
theorem test_wireTlvDext2Llit :
    results (exec (.wireTlvDext2Llit 0 0xFFFF) { s1 with cursor := 4, len := 7 }) = some (0x100, 0, 7, 65804) := by decide
theorem test_wireTlvDext2Lext1 :
    results (exec (.wireTlvDext2Lext1 0x14 1) { s1 with cursor := 4, len := 22 }) = some (0x100, 14, 8, 289) := by decide
theorem test_wireTlvDext2Lext2 :
    results (exec (.wireTlvDext2Lext2 1 1) { s1 with cursor := 4, len := 279 }) = some (0x100, 270, 9, 270) := by decide
theorem test_wireTlv_cut :
    results (exec (.wireTlvDext2Lext2 1 1) { s1 with cursor := 4, len := 278 }) = some (0x101, 0, 0, 0) := by decide

/-! ### Witnesses: the hypotheses of the statements can be met

One theorem for each statement that has hypotheses, a conjunct for each clause, at the boundaries where there are any. -/

theorem witness_GetVerReadsVersion :
    (1460 < ({ s1 with len := 1461 } : State).len.toNat) ∧ (({ s1 with len := 3 } : State).len.toNat < 4) ∧
    (4 ≤ s1.len.toNat ∧ s1.len.toNat ≤ 1460 ∧ (s1.bufByte 0).extractLsb' 6 2 = 1#2) ∧
    (4 ≤ (frame [0x80, 1, 0, 1]).len.toNat ∧ (frame [0x80, 1, 0, 1]).len.toNat ≤ 1460 ∧
      ((frame [0x80, 1, 0, 1]).bufByte 0).extractLsb' 6 2 ≠ 1#2) := by decide

theorem witness_GetTypeReadsType :
    (1460 < ({ s1 with len := 1461 } : State).len.toNat) ∧ (({ s1 with len := 3 } : State).len.toNat < 4) ∧
    (4 ≤ s1.len.toNat ∧ s1.len.toNat ≤ 1460) := by decide

theorem witness_GetTklReadsTokenLength :
    (1460 < ({ s1 with len := 1461 } : State).len.toNat) ∧ (({ s1 with len := 3 } : State).len.toNat < 4) ∧
    (4 ≤ (frame [0x49, 1, 0, 1]).len.toNat ∧ (frame [0x49, 1, 0, 1]).len.toNat ≤ 1460 ∧
      8 < (((frame [0x49, 1, 0, 1]).bufByte 0).extractLsb' 0 4).toNat) ∧
    (4 ≤ (frame [0x48, 1, 0, 1]).len.toNat ∧ (frame [0x48, 1, 0, 1]).len.toNat ≤ 1460 ∧
      (((frame [0x48, 1, 0, 1]).bufByte 0).extractLsb' 0 4).toNat ≤ 8) := by decide

theorem witness_GetCodeReadsCode :
    (1460 < ({ s1 with len := 1461 } : State).len.toNat) ∧ (({ s1 with len := 3 } : State).len.toNat < 4) ∧
    (4 ≤ s1.len.toNat ∧ s1.len.toNat ≤ 1460) := by decide

theorem witness_GetMidReadsMessageId :
    (1460 < ({ s1 with len := 1461 } : State).len.toNat) ∧ (({ s1 with len := 3 } : State).len.toNat < 4) ∧
    (4 ≤ s1.len.toNat ∧ s1.len.toNat ≤ 1460) := by decide

theorem witness_SetVerWritesVersion :
    (({ s1 with arg0 := 2 } : State).arg0.toNat ≠ 1) ∧ (({ s1 with arg0 := 1 } : State).arg0.toNat = 1) := by decide

theorem witness_SetTypeWritesType :
    (3 < ({ s1 with arg0 := 4 } : State).arg0.toNat) ∧ (({ s1 with arg0 := 3 } : State).arg0.toNat ≤ 3) := by decide

theorem witness_SetTklWritesTokenLength :
    (8 < ({ s1 with arg0 := 9 } : State).arg0.toNat) ∧ (({ s1 with arg0 := 8 } : State).arg0.toNat ≤ 8) := by decide

theorem witness_SetCodeWritesCode :
    (255 < ({ s1 with arg0 := 256 } : State).arg0.toNat) ∧
    (({ s1 with arg0 := 1 } : State).arg0.toNat ≤ 255 ∧
      Config.codeSet (({ s1 with arg0 := 1 } : State).arg0.extractLsb' 0 8) = true) := by decide

/-- Operands of `BUILD_HDR` at the ends of their ranges. -/
def hdrOperands : State := { s1 with arg0 := 1, arg1 := 3, arg2 := 8, arg3 := 1, arg4 := 0xBEEF }

theorem witness_BuildHdrWritesHeader :
    (({ hdrOperands with arg0 := 2 } : State).arg0.toNat ≠ 1) ∧
    (hdrOperands.arg0.toNat = 1 ∧ 3 < ({ hdrOperands with arg1 := 4 } : State).arg1.toNat) ∧
    (hdrOperands.arg0.toNat = 1 ∧ hdrOperands.arg1.toNat ≤ 3 ∧ 8 < ({ hdrOperands with arg2 := 9 } : State).arg2.toNat) ∧
    (hdrOperands.arg0.toNat = 1 ∧ hdrOperands.arg1.toNat ≤ 3 ∧ hdrOperands.arg2.toNat ≤ 8 ∧
      255 < ({ hdrOperands with arg3 := 0x100 } : State).arg3.toNat) ∧
    (hdrOperands.arg0.toNat = 1 ∧ hdrOperands.arg1.toNat ≤ 3 ∧ hdrOperands.arg2.toNat ≤ 8 ∧ hdrOperands.arg3.toNat ≤ 255 ∧
      Config.codeSet (hdrOperands.arg3.extractLsb' 0 8) = true) := by decide

theorem witness_BuildHdrEqualsFiveEncoders :
    hdrOperands.arg0.toNat = 1 ∧ hdrOperands.arg1.toNat ≤ 3 ∧ hdrOperands.arg2.toNat ≤ 8 ∧ hdrOperands.arg3.toNat ≤ 255 ∧
      Config.codeSet (hdrOperands.arg3.extractLsb' 0 8) = true := by decide

theorem witness_HeaderRoundTrip :
    hdrOperands.arg0.toNat = 1 ∧ hdrOperands.arg1.toNat ≤ 3 ∧ hdrOperands.arg2.toNat ≤ 8 ∧ hdrOperands.arg3.toNat ≤ 255 ∧
      Config.codeSet (hdrOperands.arg3.extractLsb' 0 8) = true ∧ 4 ≤ (4 : Half).toNat ∧ (1460 : Half).toNat ≤ 1460 := by decide

/-- `CURSOR` on the chain. -/
abbrev at4 (s : State) : State := { s with cursor := 4 }

theorem witness_DecOptDecodesItemAtCursor :
    (1460 < ({ at4 s1 with len := 1461 } : State).len.toNat) ∧
    (({ s1 with cursor := 5 } : State).len.toNat < ({ s1 with cursor := 5 } : State).cursor.toNat) ∧
    AtEnd (at4 s1) 4 ∧ AtMarker (at4 mk) 4 ∧ Malformed { m9 with cursor := 5 } 5 ∧
    Malformed (frame [0x40, 1, 0, 1, 0x12, 0]) 4 ∧ Malformed (frame [0x40, 1, 0, 1, 0xE0, 0]) 4 ∧ AtItem (at4 s2) 4 ∧
    AtItem (frame [0x40, 1, 0, 1, 0xD0, 0xFF]) 4 := by decide

/-- Delta 289, length 14 (95 section 4). -/
def long289 : State := at4 (frame ([0x40, 0x01, 0x00, 0x01, 0xED, 0x00, 0x14, 0x01] ++ List.replicate 14 0x55))

theorem witness_DecOptReadsEveryEncoding :
    long289.len.toNat ≤ 1460 ∧
    (∀ k, k < (optHeader 289 14).length → (optHeader 289 14)[k]? = some (long289.bufByte (long289.cursor.toNat + k))) ∧
    long289.cursor.toNat + (optHeader 289 14).length + 14 ≤ long289.len.toNat := by decide

/-- The operands of `OPT_HBLD` for option 300 of 14 bytes after option 11. -/
def hbld : State := { s1 with cursor := 100, arg0 := 300, arg1 := 14, arg2 := 11, arg3 := 4 }

theorem witness_DecOptInvertsOptHbld :
    CanEncode hbld.arg0.toNat hbld.arg1.toNat hbld.arg2.toNat ∧
    hbld.arg3.toNat = headerLenOf (hbld.arg0.toNat - hbld.arg2.toNat) hbld.arg1.toNat ∧
    hbld.cursor.toNat + hbld.arg3.toNat + hbld.arg1.toNat ≤ (118 : Half).toNat ∧ (118 : Half).toNat ≤ 1460 := by decide

theorem witness_PrefixErrorsEndEveryWalk :
    PrefixFails { s1 with len := 1461, arg0 := 1 } .insufficientBuffer ∧ PrefixFails { s1 with len := 3, arg0 := 1 } .invalidPacket ∧
    PrefixFails { frame [0x49, 1, 0, 1] with arg0 := 1 } .invalidTokenLength ∧
    PrefixFails { frame [0x42, 1, 0, 1, 9] with arg0 := 1 } .invalidPacket ∧
    ({ s1 with len := 1461, arg0 := 1 } : State).arg0.toNat ≠ 0 := by unfold PrefixFails; decide

theorem witness_prefix :
    HasPrefix s1 4 ∧ HasPrefix (frame [0x48, 1, 0, 1, 1, 2, 3, 4, 5, 6, 7, 8]) 12 ∧ HasPrefix { s1 with len := 1460 } 4 := by
  decide

/-- The chains of the small states. -/
theorem chain_s1 : ChainTo s1 4 0 4 0 := .start
theorem chain_s2 : ChainTo s2 4 1 6 11 := .item (.start) (by decide)
theorem chain_s3p : ChainTo s3p 4 2 8 17 := .item (.item .start (by decide)) (by decide)
theorem chain_m9 : ChainTo m9 4 1 5 9 := .item .start (by decide)
theorem chain_r128_one : ChainTo r128 4 1 6 11 := .item .start (by decide)
theorem chain_r128 : ChainTo r128 4 2 8 128 := .item chain_r128_one (by decide)

theorem witness_EveryChainEnds :
    HasPrefix s2 4 ∧ ChainTo s2 4 1 6 11 ∧ ¬ AtItem s2 6 := ⟨by decide, chain_s2, by decide⟩

theorem witness_RunningNumberIsBounded : HasPrefix s3p 4 ∧ ChainTo s3p 4 2 8 17 := ⟨by decide, chain_s3p⟩

theorem witness_CntOptCountsTheChain :
    (HasPrefix s2 4 ∧ ChainTo s2 4 1 6 11 ∧ AtEnd s2 6) ∧ (HasPrefix s3p 4 ∧ ChainTo s3p 4 2 8 17 ∧ AtMarker s3p 8) ∧
    (HasPrefix m9 4 ∧ ChainTo m9 4 1 5 9 ∧ Malformed m9 5) :=
  ⟨⟨by decide, chain_s2, by decide⟩, ⟨by decide, chain_s3p, by decide⟩, by decide, chain_m9, by decide⟩

theorem witness_GetOptFetchesByIndex :
    (HasPrefix s2 4 ∧ ChainTo s2 4 0 4 0 ∧ 0 = s2.arg0.toNat ∧ AtItem s2 4) ∧
    (ChainTo s2 4 1 6 11 ∧ 1 ≤ ({ s2 with arg0 := 1 } : State).arg0.toNat ∧ AtEnd s2 6) ∧
    (ChainTo s3p 4 2 8 17 ∧ 2 ≤ ({ s3p with arg0 := 0xFFFFFFFF } : State).arg0.toNat ∧ AtMarker s3p 8) ∧
    (ChainTo m9 4 1 5 9 ∧ 1 ≤ ({ m9 with arg0 := 1 } : State).arg0.toNat ∧ Malformed m9 5) :=
  ⟨⟨by decide, .start, by decide, by decide⟩, ⟨chain_s2, by decide, by decide⟩, ⟨chain_s3p, by decide, by decide⟩,
    chain_m9, by decide, by decide⟩

theorem witness_CountAndIndexAgree :
    (∃ t, exec .cntOpt s3p = .next t ∧ t.status.err = none ∧ (1 : Word).toNat < t.res.r0.toNat ∧
      t.res.r0.toNat ≤ (2 : Word).toNat) ∧
    (HasPrefix s3p 4 ∧ ChainTo s3p 4 2 8 17 ∧ (0 : Word).toNat ≤ (1 : Word).toNat ∧ (1 : Word).toNat < 2) :=
  ⟨⟨_, rfl, by decide, by decide, by decide⟩, by decide, chain_s3p, by decide, by decide⟩

theorem witness_OptHlenComputesHeaderLength :
    CannotEncode ({ s1 with arg0 := 5, arg2 := 6 } : State).arg0.toNat 0 6 .optionsOutOfOrder ∧
    CannotEncode ({ s1 with arg0 := 140, arg2 := 140 } : State).arg0.toNat 0 140 .invalidOption ∧
    CannotEncode ({ s1 with arg0 := 65805 } : State).arg0.toNat 0 0 .invalidOption ∧
    CannotEncode ({ s1 with arg0 := 1, arg1 := 65805 } : State).arg0.toNat 65805 0 .invalidOption ∧
    CanEncode (65804 : Word).toNat (65804 : Word).toNat 0 ∧ CanEncode 11 0 11 :=
  ⟨.inl (by decide), .inr (.inl (by decide)), .inr (.inr (by decide)), .inr (.inr (by decide)), by decide, by decide⟩

theorem witness_HeaderBytesOfEveryClass :
    ∀ p ∈ [(12, 12), (13, 12), (268, 0), (269, 12), (65804, 0), (0, 13), (12, 268), (268, 13), (269, 268), (12, 269), (13, 65804),
      (65804, 65804)], p.1 ≤ 65804 ∧ p.2 ≤ 65804 := by decide

theorem witness_OptHbldWritesHeaderAtCursor :
    CannotEncode ({ s1 with arg0 := 5, arg2 := 6 } : State).arg0.toNat 0 6 .optionsOutOfOrder ∧
    CanEncode hbld.arg0.toNat hbld.arg1.toNat hbld.arg2.toNat ∧
    (({ hbld with arg3 := 5 } : State).arg3.toNat ≠ headerLenOf 289 14) ∧
    (hbld.arg3.toNat = headerLenOf 289 14 ∧ 1460 < ({ hbld with cursor := 1457 } : State).cursor.toNat + hbld.arg3.toNat) ∧
    (hbld.arg3.toNat = headerLenOf 289 14 ∧ ({ hbld with cursor := 1456 } : State).cursor.toNat + hbld.arg3.toNat ≤ 1460) := by
  unfold CannotEncode; decide

theorem witness_AddOptAppendsOption :
    HasPrefix s2 4 ∧ ChainTo s2 4 1 s2.len.toNat 11 ∧ CanEncode (20 : Word).toNat (1 : Word).toNat 11 ∧
    s2.len.toNat + headerLenOf (20 - 11) 1 + 1 ≤ 1460 ∧ 8 + headerLenOf (20 - 17) 1449 + 1449 ≤ 1460 :=
  ⟨by decide, chain_s2, by decide, by decide, by decide⟩

theorem witness_AddOptErrorsInOrder :
    (HasPrefix m9 4 ∧ ChainTo m9 4 1 5 9 ∧ Malformed m9 5) ∧
    (HasPrefix s2 4 ∧ ChainTo s2 4 1 6 11 ∧ AtEnd s2 6 ∧ CannotEncode 9 0 11 .optionsOutOfOrder) ∧
    (CanEncode 12 65804 11 ∧ 1460 < 6 + headerLenOf (12 - 11) 65804 + 65804) ∧
    (HasPrefix s3p 4 ∧ ChainTo s3p 4 2 8 17 ∧ AtMarker s3p 8 ∧ CanEncode 20 1 17 ∧ 8 + headerLenOf (20 - 17) 1 + 1 ≤ 1460 ∧
      8 ≠ s3p.len.toNat) :=
  ⟨⟨by decide, chain_m9, by decide⟩, ⟨by decide, chain_s2, by decide, .inl ⟨by decide, rfl⟩⟩, ⟨by decide, by decide⟩,
    by decide, chain_s3p, by decide, by decide, by decide, by decide⟩

theorem witness_AddedOptionReadsBack :
    ∃ t, exec .addOpt (staged [0x77] { s2 with arg0 := 20, arg1 := 1 }) = .next t ∧ t.status.err = none := ⟨_, rfl, by decide⟩

theorem witness_GetPayloadLocatesPayload :
    (HasPrefix m9 4 ∧ ChainTo m9 4 1 5 9 ∧ Malformed m9 5) ∧
    (HasPrefix s2 4 ∧ ChainTo s2 4 1 6 11 ∧ AtEnd s2 6 ∧ 1 ≠ s2.arg0.toNat) ∧
    (AtEnd s2 6 ∧ 1 = ({ s2 with arg0 := 1 } : State).arg0.toNat) ∧
    (HasPrefix s3p 4 ∧ ChainTo s3p 4 2 8 17 ∧ AtMarker s3p 8 ∧ 2 = ({ s3p with arg0 := 2 } : State).arg0.toNat) :=
  ⟨⟨by decide, chain_m9, by decide⟩, ⟨by decide, chain_s2, by decide, by decide⟩, ⟨by decide, by decide⟩,
    by decide, chain_s3p, by decide, by decide⟩

theorem witness_SetPayloadAppendsPayload :
    HasPrefix s2 4 ∧ ChainTo s2 4 1 s2.len.toNat 11 ∧ ({ s2 with arg0 := 1453 } : State).arg0.toNat ≠ 0 ∧
    s2.len.toNat + 1 + ({ s2 with arg0 := 1453 } : State).arg0.toNat ≤ 1460 := ⟨by decide, chain_s2, by decide, by decide⟩

theorem witness_SetPayloadErrorsInOrder :
    (s1.arg0.toNat = 0) ∧ (({ s1 with arg0 := 1454 } : State).arg0.toNat ≠ 0) ∧
    (HasPrefix m9 4 ∧ ChainTo m9 4 1 5 9 ∧ Malformed m9 5) ∧ (HasPrefix s3p 4 ∧ ChainTo s3p 4 2 8 17 ∧ AtMarker s3p 8) ∧
    (HasPrefix s2 4 ∧ ChainTo s2 4 1 6 11 ∧ AtEnd s2 6 ∧ 1460 < s2.len.toNat + 1 + (1454 : Word).toNat) :=
  ⟨by decide, by decide, ⟨by decide, chain_m9, by decide⟩, ⟨by decide, chain_s3p, by decide⟩, by decide, chain_s2, by decide,
    by decide⟩

theorem witness_SetPayloadReadsBack :
    (∃ t, exec .setPayload (staged [0x99] { s2 with arg0 := 1 }) = .next t ∧ t.status.err = none) ∧ (1 : Word).toNat ≠ 0 :=
  ⟨⟨_, rfl, by decide⟩, by decide⟩

theorem witness_ValidateHeaderStages :
    (1460 < ({ s1 with len := 1461 } : State).len.toNat) ∧ (({ s1 with len := 3 } : State).len.toNat < 4) ∧
    (verField ((frame [0x80, 1, 0, 1]).bufByte 0) ≠ 1) ∧
    (verField ((frame [0x49, 1, 0, 1]).bufByte 0) = 1 ∧ 8 < (tklField ((frame [0x49, 1, 0, 1]).bufByte 0)).toNat) ∧
    (verField (s1.bufByte 0) = 1 ∧ (tklField (s1.bufByte 0)).toNat ≤ 8 ∧ Config.codeSet (s1.bufByte 1) = true ∧
      s1.len.toNat = 4 + (tklField (s1.bufByte 0)).toNat) ∧
    (verField ((frame [0x42, 1, 0, 1, 9]).bufByte 0) = 1 ∧ Config.codeSet ((frame [0x42, 1, 0, 1, 9]).bufByte 1) = true ∧
      (frame [0x42, 1, 0, 1, 9]).len.toNat < 4 + (tklField ((frame [0x42, 1, 0, 1, 9]).bufByte 0)).toNat) := by decide

theorem witness_ValidateOptionStages :
    (HasPrefix m9 4 ∧ 4 < m9.len.toNat ∧ verField (m9.bufByte 0) = 1 ∧ Config.codeSet (m9.bufByte 1) = true ∧
      ChainTo m9 4 1 5 9 ∧ Malformed m9 5) ∧
    (HasPrefix s2 4 ∧ 4 < s2.len.toNat ∧ verField (s2.bufByte 0) = 1 ∧ Config.codeSet (s2.bufByte 1) = true ∧
      ChainTo s2 4 1 6 11 ∧ AtEnd s2 6 ∧ ∀ i pos num, i < 1 → ChainTo s2 4 (i + 1) pos num → num ∉ reservedNumbers) ∧
    (HasPrefix r128 4 ∧ 4 < r128.len.toNat ∧ verField (r128.bufByte 0) = 1 ∧ Config.codeSet (r128.bufByte 1) = true ∧
      ChainTo r128 4 2 8 128 ∧ AtEnd r128 8 ∧ 1 < 2 ∧ ChainTo r128 4 (1 + 1) 8 128 ∧ 128 ∈ reservedNumbers ∧
      ∀ j pos num, j < 1 → ChainTo r128 4 (j + 1) pos num → num ∉ reservedNumbers) := by
  refine ⟨⟨by decide, by decide, by decide, by decide, chain_m9, by decide⟩,
    ⟨by decide, by decide, by decide, by decide, chain_s2, by decide, fun i pos num hi h => ?_⟩,
    by decide, by decide, by decide, by decide, chain_r128, by decide, by decide, chain_r128, by decide, fun i pos num hi h => ?_⟩
  · obtain rfl : i = 0 := by omega
    obtain ⟨-, rfl⟩ := chain_s2.unique h
    decide
  · obtain rfl : i = 0 := by omega
    obtain ⟨-, rfl⟩ := chain_r128_one.unique h
    decide

theorem witness_ValidateStageTellsOutcome :
    (∃ t, exec .validate s1 = .next t ∧ t.vstate.stage = .vOk) ∧ ∃ t, exec .validate r128 = .next t ∧ t.vstate.stage = .vOpt :=
  ⟨⟨_, rfl, by decide⟩, _, rfl, by decide⟩

theorem witness_IllegalOpcodesComplete : (0x06 : Byte) ∉ commandOpcodes := by decide

theorem witness_ErrorsLeaveNoTrace :
    (.validate ∈ commands ∧ ∃ t, exec .validate r128 = .next t ∧ t.status.err = some .invalidOption) ∧
    (.addOpt ∈ commands ∧ ∃ t, exec .addOpt m9 = .next t ∧ t.status.err = some .invalidPacket) :=
  ⟨⟨by decide, _, rfl, by decide⟩, by decide, _, rfl, by decide⟩

theorem witness_CommandsRaiseOnlyTheirErrors :
    ∃ t, exec .getOpt { s3p with arg0 := 2 } = .next t ∧ t.status.err = some .foundPayloadMarker := ⟨_, rfl, by decide⟩

theorem witness_CommandsWriteOnlyTheirState :
    (∃ t, exec .getVer s1 = .next t) ∧ (∃ t, exec .addOpt { s2 with arg0 := 20 } = .next t) ∧
    (∃ t, exec (.wireTlv 11 1) (at4 s2) = .next t) ∧ ∃ t, exec .optHbld hbld = .next t :=
  ⟨⟨_, rfl⟩, ⟨_, rfl⟩, ⟨_, rfl⟩, _, rfl⟩

theorem witness_DecodeCommandsAreIdempotent : .cntOpt ∈ idempotentReaders ∧ ∃ t, exec .cntOpt s3p = .next t :=
  ⟨by decide, _, rfl⟩

/-- Another buffer that agrees with `s2` on its six bytes. -/
def other : State := { s2 with buf := Memory.store s2.buf 6 0x99, val := [(0, 0x42)], draw := 7 }

theorem witness_DecodeReadsOnlyTheMessage :
    .getOpt ∈ messageReaders ∧ (∀ a, a < s2.len.toNat → other.bufByte a = s2.bufByte a) ∧ ∃ t, exec .getOpt s2 = .next t :=
  ⟨by decide, by decide, _, rfl⟩

theorem witness_CommandsDependOnTheirInputsAlone : ∃ t, exec .validate s3p = .next t := ⟨_, rfl⟩

theorem witness_StepRunsTheDecodedCommand :
    ({ s1 with hostIn := [.writeReg 0 0xABCDEF01, .reset] } : State).hostIn = .writeReg 0 0xABCDEF01 :: [.reset] ∧
    s1.status.busy = false ∧ decode .cmd [(0xABCDEF01 : Word).extractLsb' 0 8] = .ok (.getVer, []) := ⟨rfl, rfl, rfl⟩

theorem witness_BusyHoldsAccessesOff :
    ({ s1 with cmd := 0x50, status := Status.started, hostIn := [.writeReg 2 9] } : State).status.busy = true ∧
    ({ s1 with cmd := 0x50, status := Status.started, hostIn := [.writeReg 2 9] } : State).hostIn.head? ≠ some .reset := by decide

theorem witness_HostWritesRegisters :
    ({ s1 with hostIn := [.writeReg 9 5] } : State).hostIn = .writeReg 9 5 :: [] ∧ s1.status.busy = false ∧ 9 ≠ 0 ∧
    ({ s1 with hostIn := [.writeReg 14 5] } : State).hostIn = .writeReg 14 5 :: [] := by decide

theorem witness_HostWritesMemoryWindows :
    s1.status.busy = false ∧ ({ s1 with hostIn := [.writeBuf 1460 5] } : State).hostIn = .writeBuf 1460 5 :: [] ∧
    ({ s1 with hostIn := [.writeVal 1459 5] } : State).hostIn = .writeVal 1459 5 :: [] := by decide

theorem witness_ResetRestoresEveryRegister :
    ({ s1 with status := Status.started, hostIn := [.reset, .writeReg 2 9] } : State).hostIn = .reset :: [.writeReg 2 9] := by
  decide

theorem witness_AfterResetNoMessage :
    Instr.getVer ∈ [Instr.getVer, .getType, .getTkl, .getCode, .getMid, .cntOpt, .getOpt, .getPayload, .addOpt] := by decide

/-- A `VALIDATE` in flight. -/
def inFlight : State := { r128 with cmd := 0x50, status := Status.started }

theorem witness_EveryStepKeepsInvariant :
    (Invariant { s3p with hostIn := [.writeReg 0 0x50] } ∧ ∃ t, step { s3p with hostIn := [.writeReg 0 0x50] } = .next t) ∧
    inFlight.status.busy = true ∧ Invariant { inFlight with status := { inFlight.status with busy := false } } ∧
    ∃ t, step inFlight = .next t :=
  ⟨⟨by decide, _, rfl⟩, rfl, by decide, _, rfl⟩

theorem witness_DecodeInvertsEncode :
    WellFormed (.illegal 0x00) = true ∧ WellFormed (.wireTlvDlitLlit 12 12) = true ∧ WellFormed (.wireTlv 14 14) = true := by
  decide

theorem witness_EncodeInvertsDecode :
    decode .tlvHeader [0xED, 0x00, 0x14, 0x01, 0x61] = .ok (.wireTlvDext2Lext1 0x14 1, [0x61]) ∧
    decode .item [0xFF] = .ok (.wireMarker, []) := ⟨rfl, rfl⟩

theorem witness_TlvClassesAdvance :
    ((∃ a b : Nibble, Instr.wireTlvDlitLlit 12 1 = .wireTlvDlitLlit a b ∧ 12 = a.toNat ∧ 1 = b.toNat) ∧
      (∃ (a : Nibble) (b : Byte), Instr.wireTlvDlitLext1 1 0xFF = .wireTlvDlitLext1 a b ∧ 1 = a.toNat ∧ 268 = b.toNat + 13) ∧
      (∃ (a : Nibble) (b : Half), Instr.wireTlvDlitLext2 1 0 = .wireTlvDlitLext2 a b ∧ 1 = a.toNat ∧ 269 = b.toNat + 269) ∧
      (∃ (a : Byte) (b : Nibble), Instr.wireTlvDext1Llit 0 0xFF = .wireTlvDext1Llit b a ∧ 268 = a.toNat + 13 ∧ 0 = b.toNat) ∧
      (∃ a b : Byte, Instr.wireTlvDext1Lext1 0 0 = .wireTlvDext1Lext1 a b ∧ 13 = a.toNat + 13 ∧ 13 = b.toNat + 13) ∧
      (∃ (a : Byte) (b : Half), Instr.wireTlvDext1Lext2 1 2 = .wireTlvDext1Lext2 a b ∧ 14 = a.toNat + 13 ∧ 271 = b.toNat + 269) ∧
      (∃ (a : Half) (b : Nibble), Instr.wireTlvDext2Llit 0 0xFFFF = .wireTlvDext2Llit b a ∧ 65804 = a.toNat + 269 ∧
        0 = b.toNat) ∧
      (∃ (a : Half) (b : Byte), Instr.wireTlvDext2Lext1 20 1 = .wireTlvDext2Lext1 a b ∧ 289 = a.toNat + 269 ∧ 14 = b.toNat + 13) ∧
      ∃ a b : Half, Instr.wireTlvDext2Lext2 1 1 = .wireTlvDext2Lext2 a b ∧ 270 = a.toNat + 269 ∧ 270 = b.toNat + 269) ∧
    (({ at4 s1 with len := 20 } : State).len.toNat ≤ 1460 ∧ (at4 s1).cursor.toNat < ({ at4 s1 with len := 20 } : State).len.toNat ∧
      (at4 s1).cursor.toNat + 3 + 13 ≤ ({ at4 s1 with len := 20 } : State).len.toNat) ∧
    ({ at4 s1 with len := 19 } : State).len.toNat < (at4 s1).cursor.toNat + 3 + 13 :=
  ⟨⟨⟨_, _, rfl, rfl, rfl⟩, ⟨_, _, rfl, rfl, rfl⟩, ⟨_, _, rfl, rfl, rfl⟩, ⟨_, _, rfl, rfl, rfl⟩, ⟨_, _, rfl, rfl, rfl⟩,
    ⟨_, _, rfl, rfl, rfl⟩, ⟨_, _, rfl, rfl, rfl⟩, ⟨_, _, rfl, rfl, rfl⟩, _, _, rfl, rfl, rfl⟩, by decide, by decide⟩

theorem witness_ItemHeadsEnd :
    s2.len.toNat ≤ 1460 ∧ (at4 s2).cursor.toNat < s2.len.toNat ∧ (11 : Nibble) ≠ 15 ∧ (1 : Nibble) ≠ 15 ∧
    5 = (at4 s2).cursor.toNat + 1 + extCount 11 + extCount 1 ∧ 1 = resolved s2 1 5 ∧ 5 + 1 ≤ s2.len.toNat := by decide

theorem witness_DecOptRunsTheItemAtCursor :
    (at4 s2).cursor.toNat < (at4 s2).len.toNat ∧
    decode .tlvHeader ((List.range' (at4 s2).cursor.toNat ((at4 s2).len.toNat - (at4 s2).cursor.toNat)).map (at4 s2).bufByte) =
      .ok (.wireTlvDlitLlit 11 1, [0x61]) ∧
    decode .item ((List.range' (at4 mk).cursor.toNat ((at4 mk).len.toNat - (at4 mk).cursor.toNat)).map (at4 mk).bufByte) =
      .ok (.wireMarker, []) := ⟨by decide, rfl, rfl⟩

theorem witness_HeaderItemsAreTheirCommands :
    verField (s1.bufByte 0) = 1 ∧ verField ((frame [0x80, 1, 0, 1]).bufByte 0) ≠ 1 ∧ 4 ≤ s1.len.toNat ∧ s1.len.toNat ≤ 1460 ∧
    (8 : Nibble).toNat ≤ 8 ∧ Config.codeSet 1 = true := by decide

end Sys2Proof.Tests
end

section
/-! PROOFS. Every instruction completes and no run stops, read off `Ends` and `StepEnds` (00_scope.md R17, R18; 60_exceptions.md
R292). -/

namespace Sys2Proof.Machine

/-- Settles O38: each of the ways an instruction can end sets `DONE` and clears `BUSY`. -/
theorem everyCommandCompletes : Obligations.EveryCommandCompletes := by
  intro i s
  obtain ⟨t, ht, hends⟩ := exec_ends i s
  exact ⟨t, ht, hends.done⟩

/-- Settles O45: one byte in the command format is the opcode, and the step from an idle block starts that command. -/
theorem stepRunsTheDecodedCommand : Obligations.StepRunsTheDecodedCommand := by
  intro s v rest i hin hidle hdec
  have hi : decodeCommand v = i := by
    simpa [decode, decodeCommand] using hdec
  rw [step_started hin hidle, hi]
  rfl

/-- A run of one step more goes on from the state the first step leaves. -/
theorem run_succ_of_step {s t : State} (h : step s = .next t) (n : Nat) :
    Sys2Proof.core.run (n + 1) s = Sys2Proof.core.run n t := by
  have hcore : Sys2Proof.core.step s = .next t := h
  simp only [Host.Core.run, hcore]

theorem neverStops (s : State) : NeverStops s := by
  intro n
  induction n generalizing s with
  | zero => exact ⟨s, rfl⟩
  | succ n ih =>
    obtain ⟨t, ht, -⟩ := step_ends s
    rw [run_succ_of_step ht]
    exact ih t

/-- Settles O51, by induction on the number of steps: every step has a next state. -/
theorem noRunStops : Obligations.NoRunStops := neverStops

end Sys2Proof.Machine
end

section
/-! PROOFS. The invariant is kept by every step. The clause on `BUSY` stands apart: a step clears `BUSY` whatever stood before it
(`StepEnds.not_busy`), and keeps the other clauses whether a command is in flight or not (log 3). -/

namespace Sys2Proof.Machine

/-- The clauses of `Invariant` but the two that speak of `BUSY`. -/
structure InvariantButBusy (s : State) : Prop where
  bufWf : Memory.wf s.buf = true
  valWf : Memory.wf s.val = true
  errDone : s.status.err ≠ none → s.status.done = true
  idxZero : s.vstate.stage ≠ .vOpt → s.vstate.optIdx = 0
  idxLt : s.vstate.optIdx.toNat < 1456

theorem invariant_iff (s : State) : Invariant s ↔ InvariantButBusy s ∧ s.status.busy = false := by
  constructor
  · rintro ⟨hbuf, hval, hbusy, -, herr, hzero, hlt⟩
    exact ⟨⟨hbuf, hval, herr, hzero, hlt⟩, hbusy⟩
  · rintro ⟨⟨hbuf, hval, herr, hzero, hlt⟩, hbusy⟩
    exact ⟨hbuf, hval, hbusy, by rw [hbusy, Bool.and_false], herr, hzero, hlt⟩

/-- The other clauses do not read `BUSY`, so they hold of the state in which it is still set. -/
theorem invariantButBusy_of_clearBusy {s : State}
    (h : Invariant { s with status := { s.status with busy := false } }) : InvariantButBusy s := by
  obtain ⟨⟨hbuf, hval, herr, hzero, hlt⟩, -⟩ := (invariant_iff _).mp h
  exact ⟨hbuf, hval, herr, hzero, hlt⟩

/-! ### A command -/

/-- No command writes `VAL` (R35). -/
theorem Ends.val_eq {i : Instr} {s t : State} (h : Ends i s t) : t.val = s.val := by
  cases h with
  | failed | unknownCode | read | accepted | stopped | reserved | advanced => rfl
  | wroteByte0 | wroteByte1 => simp
  | wroteMid | wroteHeader => simp
  | wroteAtCursor bs => exact writeBufBytes_val _ bs s
  | appended bs => exact writeBufBytes_val _ bs s

theorem Ends.bufWf {i : Instr} {s t : State} (h : Ends i s t) (hs : Memory.wf s.buf = true) : Memory.wf t.buf = true := by
  cases h with
  | failed | unknownCode | read | accepted | stopped | reserved | advanced => exact hs
  | wroteByte0 r b => exact wf_writeBuf 0 b s hs
  | wroteByte1 r b => exact wf_writeBuf 1 b s hs
  | wroteMid r bs => exact wf_writeBufBytes bs 2 s hs
  | wroteHeader r bs => exact wf_writeBufBytes bs 0 s hs
  | wroteAtCursor bs => exact wf_writeBufBytes bs _ s hs
  | appended bs => exact wf_writeBufBytes bs _ s hs

/-- `VSTATE` after an instruction: as before; index 0 in a stage other than `V_OPT`; or, in `V_OPT`, the index of an option of a
message of at most 1460 bytes, each option of which takes at least one byte after the header (R112, R250). -/
theorem Ends.vstate_cases {i : Instr} {s t : State} (h : Ends i s t) :
    t.vstate = s.vstate ∨ (∃ st, t.vstate = ⟨st, 0⟩) ∨ ∃ k < 1456, t.vstate = ⟨.vOpt, BitVec.ofNat 16 k⟩ := by
  cases h with
  | failed | unknownCode | read | advanced => exact .inl rfl
  | wroteByte0 | wroteByte1 => exact .inl (by simp)
  | wroteMid | wroteHeader => exact .inl (by simp)
  | wroteAtCursor bs => exact .inl (writeBufBytes_vstate _ bs s)
  | appended bs => exact .inl (writeBufBytes_vstate _ bs s)
  | accepted => exact .inr (.inl ⟨_, rfl⟩)
  | stopped => exact .inr (.inl ⟨_, rfl⟩)
  | reserved k _ hk hlen => exact .inr (.inr ⟨k, by omega, rfl⟩)

theorem Ends.keepsInvariantButBusy {i : Instr} {s t : State} (h : Ends i s t) (hs : InvariantButBusy s) :
    InvariantButBusy t where
  bufWf := h.bufWf hs.bufWf
  valWf := by rw [h.val_eq]; exact hs.valWf
  errDone _ := h.done.1
  idxZero hst := by
    rcases h.vstate_cases with hv | ⟨st, hv⟩ | ⟨k, -, hv⟩
    · rw [hv] at hst ⊢; exact hs.idxZero hst
    · rw [hv]
    · rw [hv] at hst; exact absurd rfl hst
  idxLt := by
    rcases h.vstate_cases with hv | ⟨st, hv⟩ | ⟨k, hk, hv⟩
    · rw [hv]; exact hs.idxLt
    · rw [hv]; exact Nat.zero_lt_succ _
    · rw [hv, BitVec.toNat_ofNat]; omega

/-! ### The accesses of the host -/

/-- A host write of a register other than `CMD` reaches neither memory, nor `STATUS`, nor `VSTATE` (R21). -/
theorem writeReg_frame (n : Nat) (v : Word) (s : State) :
    (writeReg n v s).buf = s.buf ∧ (writeReg n v s).val = s.val ∧ (writeReg n v s).status = s.status ∧
      (writeReg n v s).vstate = s.vstate := by
  unfold writeReg
  split <;> exact ⟨rfl, rfl, rfl, rfl⟩

theorem InvariantButBusy.writeReg {s : State} (n : Nat) (v : Word) (h : InvariantButBusy s) :
    InvariantButBusy (writeReg n v s) := by
  obtain ⟨hbuf, hval, herr, hzero, hlt⟩ := h
  obtain ⟨eb, ev, es, evs⟩ := writeReg_frame n v s
  constructor <;> simpa only [eb, ev, es, evs]

theorem InvariantButBusy.writeBuf {s : State} (a : Nat) (b : Byte) (h : InvariantButBusy s) :
    InvariantButBusy (writeBuf a b s) where
  bufWf := wf_writeBuf a b s h.bufWf
  valWf := by simpa using h.valWf
  errDone := by simpa using h.errDone
  idxZero := by simpa using h.idxZero
  idxLt := by simpa using h.idxLt

theorem InvariantButBusy.writeVal {s : State} (a : Nat) (b : Byte) (h : InvariantButBusy s) :
    InvariantButBusy (writeVal a b s) where
  bufWf := by simpa using h.bufWf
  valWf := wf_writeVal a b s h.valWf
  errDone := by simpa using h.errDone
  idxZero := by simpa using h.idxZero
  idxLt := by simpa using h.idxLt

/-- Reset establishes the clauses, whatever held before it (R34). -/
theorem invariantButBusy_resetPin (s : State) : InvariantButBusy (resetPin s) where
  bufWf := wf_reset.1
  valWf := wf_reset.2
  errDone h := absurd rfl h
  idxZero _ := rfl
  idxLt := by rw [resetPin_vstate]; decide

/-- Taking the next access from the list touches nothing the clauses speak of. -/
theorem InvariantButBusy.hostIn {s : State} (rest : List HostAction) (h : InvariantButBusy s) :
    InvariantButBusy { s with hostIn := rest } :=
  ⟨h.bufWf, h.valWf, h.errDone, h.idxZero, h.idxLt⟩

theorem InvariantButBusy.startCommand {s : State} (o : Byte) (h : InvariantButBusy s) :
    InvariantButBusy (startCommand o s) :=
  ⟨h.bufWf, h.valWf, fun herr => absurd rfl herr, h.idxZero, h.idxLt⟩

/-! ### A step -/

theorem StepEnds.keepsInvariantButBusy {s t : State} (h : StepEnds s t) (hs : InvariantButBusy s) : InvariantButBusy t := by
  cases h with
  | idle => exact hs
  | resetPin rest => exact invariantButBusy_resetPin _
  | wroteReg n v rest => exact (hs.hostIn rest).writeReg n v
  | wroteBuf a b rest => exact (hs.hostIn rest).writeBuf a b
  | wroteVal a b rest => exact (hs.hostIn rest).writeVal a b
  | inFlight _ _ hends => exact hends.keepsInvariantButBusy hs
  | started v rest _ _ hends => exact hends.keepsInvariantButBusy ((hs.hostIn rest).startCommand _)

/-- A step ends in a state with the whole invariant, a command in flight before it or not. -/
theorem step_establishes_invariant {s t : State} (hs : InvariantButBusy s) (hstep : step s = .next t) : Invariant t := by
  have hends := stepEnds_of_step hstep
  exact (invariant_iff t).mpr ⟨hends.keepsInvariantButBusy hs, hends.not_busy⟩

/-- Settles O53: the clauses but `BUSY` are kept by every step, and every step ends with `BUSY` clear. -/
theorem everyStepKeepsInvariant : Obligations.EveryStepKeepsInvariant := by
  refine ⟨fun s t hs hstep => ?_, fun s t _ hs hstep => ?_⟩
  · exact step_establishes_invariant ((invariant_iff s).mp hs).1 hstep
  · exact step_establishes_invariant (invariantButBusy_of_clearBusy hs) hstep

end Sys2Proof.Machine
end

section
/-! PROOFS. The frame of every row (10_state.md R35), read off `Ends`: one lemma for each register that some row writes and one for
the bytes of `BUF`, then the frame of each group of rows. -/

namespace Sys2Proof.Machine

/-- The encoders of the header codec (R140 to R146). -/
abbrev headerEncoders : List Instr := [.setVer, .setType, .setTkl, .setCode, .setMid, .buildHdr]

/-- The commands that store to `BUF`. -/
abbrev bufWriters : List Instr := headerEncoders ++ [.optHbld, .addOpt, .setPayload]

/-- The rows that move `OPTNUM`: `DEC_OPT` and the items it decodes (log 10). -/
abbrev Advances (i : Instr) : Prop := i = .decOpt ∨ formatOf i ∈ [.item, .tlvHeader]

/-- The offsets of `BUF` that instruction `i`, run from `s` to `t`, may store to (R145, R206, R213, R237). -/
def MayStore (i : Instr) (s t : State) (a : Nat) : Prop :=
  match i with
  | .setVer | .setType | .setTkl => a = 0
  | .setCode => a = 1
  | .setMid => a = 2 ∨ a = 3
  | .buildHdr => a < 4
  | .optHbld => s.cursor.toNat ≤ a ∧ a < t.cursor.toNat
  | .addOpt | .setPayload => s.len.toNat ≤ a ∧ a < t.len.toNat
  | _ => False

/-- No instruction writes `VAL`, `CMD`, an operand, the draw or the pending accesses (R35). -/
theorem Ends.frame {i : Instr} {s t : State} (h : Ends i s t) :
    t = { s with
      status := t.status, res := t.res, vstate := t.vstate, cursor := t.cursor, optnum := t.optnum, len := t.len
      buf := t.buf } := by
  cases h with
  | failed | unknownCode | read | accepted | stopped | reserved | advanced => rfl
  | wroteByte0 r b => rw [writeBuf_eq]; rfl
  | wroteByte1 r b => rw [writeBuf_eq]; rfl
  | wroteMid r bs => rw [writeBufBytes_eq]; rfl
  | wroteHeader r bs => rw [writeBufBytes_eq]; rfl
  | wroteAtCursor bs => rw [writeAtCursor, writeBufBytes_eq]; rfl
  | appended bs => rw [appendBytes, writeBufBytes_eq]; rfl

theorem Ends.vstate_eq {i : Instr} {s t : State} (h : Ends i s t) (hi : i ≠ .validate) : t.vstate = s.vstate := by
  cases h with
  | failed | unknownCode | read | advanced => rfl
  | accepted _ hv | stopped _ _ hv | reserved _ hv => exact absurd hv hi
  | wroteByte0 | wroteByte1 | wroteMid | wroteHeader => simp
  | wroteAtCursor bs => exact writeBufBytes_vstate _ bs s
  | appended bs => exact writeBufBytes_vstate _ bs s

theorem Ends.optnum_eq {i : Instr} {s t : State} (h : Ends i s t) (hi : ¬ Advances i) : t.optnum = s.optnum := by
  cases h with
  | failed | unknownCode | read | accepted | stopped | reserved => rfl
  | advanced _ ha => exact absurd ha hi
  | wroteByte0 | wroteByte1 | wroteMid | wroteHeader => simp
  | wroteAtCursor bs => exact writeBufBytes_optnum _ bs s
  | appended bs => exact writeBufBytes_optnum _ bs s

theorem Ends.cursor_eq {i : Instr} {s t : State} (h : Ends i s t) (hi : ¬ Advances i) (hb : i ≠ .optHbld) :
    t.cursor = s.cursor := by
  cases h with
  | failed | unknownCode | read | accepted | stopped | reserved => rfl
  | advanced _ ha => exact absurd ha hi
  | wroteByte0 | wroteByte1 | wroteMid | wroteHeader => simp
  | wroteAtCursor _ hw => exact absurd hw hb
  | appended bs => exact writeBufBytes_cursor _ bs s

theorem Ends.len_eq {i : Instr} {s t : State} (h : Ends i s t) (hi : i ∉ [.addOpt, .setPayload]) : t.len = s.len := by
  cases h with
  | failed | unknownCode | read | accepted | stopped | reserved | advanced => rfl
  | wroteByte0 | wroteByte1 | wroteMid | wroteHeader => simp
  | wroteAtCursor bs => exact writeBufBytes_len _ bs s
  | appended _ ha => exact absurd ha hi

theorem Ends.buf_eq {i : Instr} {s t : State} (h : Ends i s t) (hi : i ∉ bufWriters) : t.buf = s.buf := by
  cases h with
  | failed | unknownCode | read | accepted | stopped | reserved | advanced => rfl
  | wroteByte0 _ _ hw => exact absurd ((by decide : [.setVer, .setType, .setTkl] ⊆ bufWriters) hw) hi
  | wroteByte1 _ _ hw | wroteMid _ _ hw | wroteHeader _ _ hw | wroteAtCursor _ hw => subst hw; simp at hi
  | appended _ ha => exact absurd ((by decide : [.addOpt, .setPayload] ⊆ bufWriters) ha) hi

theorem Ends.bufByte_eq {i : Instr} {s t : State} (h : Ends i s t) {a : Nat} (ha : ¬ MayStore i s t a) :
    t.bufByte a = s.bufByte a := by
  cases h with
  | failed | unknownCode | read | accepted | stopped | reserved | advanced => rfl
  | wroteByte0 r b hw =>
    have ha : a ≠ 0 := by
      simp only [List.mem_cons, List.not_mem_nil, or_false] at hw
      obtain rfl | rfl | rfl := hw <;> exact ha
    rw [bufByte_complete, bufByte_writeBuf_ne ha]
  | wroteByte1 r b hw =>
    subst hw
    rw [bufByte_complete, bufByte_writeBuf_ne ha]
  | wroteMid r bs hw hlen =>
    subst hw
    simp only [MayStore] at ha
    rw [bufByte_complete, bufByte_writeBufBytes_outside bs 2 a s (by omega)]
  | wroteHeader r bs hw hlen =>
    subst hw
    simp only [MayStore] at ha
    rw [bufByte_complete, bufByte_writeBufBytes_outside bs 0 a s (by omega)]
  | wroteAtCursor bs hw hfit =>
    subst hw
    obtain ⟨-, hcursor, -, houtside⟩ := writeAtCursor_spec bs s hfit
    simp only [MayStore] at ha
    exact houtside a (by omega)
  | appended bs hw hfit =>
    obtain ⟨-, hlen, -, houtside⟩ := appendBytes_spec bs s hfit
    have ha : ¬ (s.len.toNat ≤ a ∧ a < (appendBytes bs s).len.toNat) := by
      simp only [List.mem_cons, List.not_mem_nil, or_false] at hw
      obtain rfl | rfl := hw <;> exact ha
    exact houtside a (by omega)

/-! ### What each group of rows writes -/

theorem formatOf_command : ∀ i ∈ commands, formatOf i = .cmd := by decide

/-- A row of the wire format is none of the commands. -/
theorem not_mem_commands_of_format {i : Instr} {fs : List Format} (hcmd : .cmd ∉ fs) (h : formatOf i ∈ fs) :
    i ∉ commands := fun hi => hcmd (formatOf_command i hi ▸ h)

theorem Ends.status_frame {i : Instr} {s t : State} (h : Ends i s t) (hv : i ≠ .validate) (ha : ¬ Advances i)
    (hw : i ∉ bufWriters) : t = { s with status := t.status, res := t.res } := by
  have hb : i ≠ .optHbld := by rintro rfl; exact hw (by decide)
  have hl : i ∉ [.addOpt, .setPayload] := fun hi => hw ((by decide : [.addOpt, .setPayload] ⊆ bufWriters) hi)
  have hframe := h.frame
  rw [h.vstate_eq hv, h.cursor_eq ha hb, h.optnum_eq ha, h.len_eq hl, h.buf_eq hw] at hframe
  exact hframe

theorem Ends.validate_frame {s t : State} (h : Ends .validate s t) :
    t = { s with status := t.status, res := t.res, vstate := t.vstate } := by
  have hframe := h.frame
  rw [h.cursor_eq (by decide) (by decide), h.optnum_eq (by decide), h.len_eq (by decide), h.buf_eq (by decide)] at hframe
  exact hframe

theorem Ends.advance_frame {i : Instr} {s t : State} (h : Ends i s t) (ha : Advances i) :
    t = { s with status := t.status, res := t.res, cursor := t.cursor, optnum := t.optnum } := by
  have hi : i ∉ .validate :: bufWriters := by
    obtain rfl | hf := ha
    · decide
    · exact fun hi => not_mem_commands_of_format (by decide) hf ((by decide : .validate :: bufWriters ⊆ commands) hi)
  rw [List.mem_cons, not_or] at hi
  obtain ⟨hv, hw⟩ := hi
  have hl : i ∉ [.addOpt, .setPayload] := fun hi => hw ((by decide : [.addOpt, .setPayload] ⊆ bufWriters) hi)
  have hframe := h.frame
  rw [h.vstate_eq hv, h.len_eq hl, h.buf_eq hw] at hframe
  exact hframe

theorem Ends.headerEncoder_frame {i : Instr} {s t : State} (h : Ends i s t)
    (hi : i ∈ headerEncoders) :
    t = { s with status := t.status, res := t.res, buf := t.buf } := by
  have hgroup : ∀ j ∈ headerEncoders, j ≠ .validate ∧ ¬ Advances j ∧ j ≠ .optHbld ∧ j ∉ [.addOpt, .setPayload] := by decide
  obtain ⟨hv, ha, hb, hl⟩ := hgroup i hi
  have hframe := h.frame
  rw [h.vstate_eq hv, h.cursor_eq ha hb, h.optnum_eq ha, h.len_eq hl] at hframe
  exact hframe

theorem Ends.optHbld_frame {s t : State} (h : Ends .optHbld s t) :
    t = { s with status := t.status, res := t.res, buf := t.buf, cursor := t.cursor } := by
  have hframe := h.frame
  rw [h.vstate_eq (by decide), h.optnum_eq (by decide), h.len_eq (by decide)] at hframe
  exact hframe

theorem Ends.append_frame {i : Instr} {s t : State} (h : Ends i s t) (hi : i ∈ [.addOpt, .setPayload]) :
    t = { s with status := t.status, res := t.res, buf := t.buf, len := t.len } := by
  have hgroup : ∀ j ∈ [.addOpt, .setPayload], j ≠ .validate ∧ ¬ Advances j ∧ j ≠ .optHbld := by decide
  obtain ⟨hv, ha, hb⟩ := hgroup i hi
  have hframe := h.frame
  rw [h.vstate_eq hv, h.cursor_eq ha hb, h.optnum_eq ha] at hframe
  exact hframe

/-- Settles O41: the registers by the frame of each group, the bytes of `BUF` by `MayStore`. -/
theorem commandsWriteOnlyTheirState : Obligations.CommandsWriteOnlyTheirState := by
  intro i s t hexec
  have h := ends_of_exec hexec
  refine ⟨fun hi => ?_, fun o hi => ?_, fun hi => ?_, fun hi => ?_, fun hi => ?_, fun hi => ?_, fun hi => ?_, fun hi => ?_,
    fun hi => ?_, fun hi => ?_, fun hf => ?_, fun hf => h.advance_frame (.inr hf)⟩
  · have hgroup : ∀ j ∈ plainReaders, j ≠ .validate ∧ ¬ Advances j ∧ j ∉ bufWriters := by decide
    obtain ⟨hv, ha, hw⟩ := hgroup i hi
    exact h.status_frame hv ha hw
  · subst hi
    exact h.status_frame (by simp) (by simp [Advances, formatOf]) (by simp)
  · subst hi
    exact h.validate_frame
  · exact h.advance_frame (.inl hi)
  · have hstore : ∀ a, MayStore i s t a → a = 0 := by
      simp only [List.mem_cons, List.not_mem_nil, or_false] at hi
      obtain rfl | rfl | rfl := hi <;> exact fun a ha => ha
    exact ⟨h.headerEncoder_frame ((by decide : [.setVer, .setType, .setTkl] ⊆ headerEncoders) hi),
      fun a ha => h.bufByte_eq (mt (hstore a) ha)⟩
  · subst hi
    exact ⟨h.headerEncoder_frame (by decide), fun a ha => h.bufByte_eq ha⟩
  · subst hi
    exact ⟨h.headerEncoder_frame (by decide), fun a h2 h3 => h.bufByte_eq (not_or.mpr ⟨h2, h3⟩)⟩
  · subst hi
    exact ⟨h.headerEncoder_frame (by decide), fun a ha => h.bufByte_eq (Nat.not_lt.mpr ha)⟩
  · subst hi
    exact ⟨h.optHbld_frame, fun a ha => h.bufByte_eq (by simp only [MayStore]; omega)⟩
  · have hstore : ∀ a, MayStore i s t a → s.len.toNat ≤ a ∧ a < t.len.toNat := by
      simp only [List.mem_cons, List.not_mem_nil, or_false] at hi
      obtain rfl | rfl := hi <;> exact fun a ha => ha
    exact ⟨h.append_frame hi, fun a ha => h.bufByte_eq fun hm => by have := hstore a hm; omega⟩
  · have hi := not_mem_commands_of_format (by decide) hf
    refine h.status_frame (fun hv => hi (hv ▸ by decide)) ?_ fun hw => hi ((by decide : bufWriters ⊆ commands) hw)
    rintro (rfl | hf')
    · exact hi (by decide)
    · revert hf hf'; cases formatOf i <;> decide

end Sys2Proof.Machine
end

section
/-! PROOFS. `DEC_OPT` executes the wire item at `CURSOR` (10_state.md R23, 30_encoding.md R104): both `DEC_OPT` and the row that the
bytes at `CURSOR` decode to are `atItem` of what `Tlv` answers there. -/

namespace Sys2Proof.Machine

/-- The bytes of the message from offset `q` to its end. -/
def messageFrom (s : State) (q : Nat) : List Byte := (List.range' q (s.len.toNat - q)).map s.bufByte

theorem messageFrom_of_lt {s : State} {q : Nat} (h : q < s.len.toNat) :
    messageFrom s q = s.bufByte q :: messageFrom s (q + 1) := by
  obtain ⟨n, hn⟩ : ∃ n, s.len.toNat - q = n + 1 := ⟨s.len.toNat - q - 1, by omega⟩
  have hn' : s.len.toNat - (q + 1) = n := by omega
  simp only [messageFrom, hn, hn', List.range'_succ, List.map_cons]

/-- A byte stands at the front of the rest of the message when the message goes on and `BUF` holds it there. -/
theorem messageFrom_eq_cons_iff {s : State} {q : Nat} {x : Byte} {rest : List Byte} :
    messageFrom s q = x :: rest ↔ q < s.len.toNat ∧ s.bufByte q = x ∧ messageFrom s (q + 1) = rest := by
  by_cases hlt : q < s.len.toNat
  · simp only [messageFrom_of_lt hlt, List.cons.injEq, hlt, true_and]
  · simp [messageFrom, Nat.sub_eq_zero_of_le (Nat.not_lt.mp hlt), hlt]

/-- `DEC_OPT` inside the message is the execution of the item that `Tlv` finds at `CURSOR`. -/
theorem execDecOpt_eq_atItem {s : State} (h : s.cursor.toNat < s.len.toNat) :
    execDecOpt s = atItem (tlv s s.cursor.toNat) s := by
  unfold execDecOpt atItem
  rw [if_neg (show ¬ s.cursor.toNat > s.len.toNat by omega), if_neg (show ¬ s.cursor.toNat = s.len.toNat by omega)]

/-! ### The item format -/

theorem exec_decodeItem {s : State} (h : s.cursor.toNat < s.len.toNat) :
    exec (decodeItem (s.bufByte s.cursor.toNat)) s = atItem (tlv s s.cursor.toNat) s := by
  unfold decodeItem
  by_cases hm : s.bufByte s.cursor.toNat = Config.marker
  · rw [if_pos hm, tlv_atMarker _ _ ⟨h, hm⟩]
    rfl
  rw [if_neg hm]
  have hhead : AtHeader s s.cursor.toNat := ⟨h, hm⟩
  by_cases hd : hiNibble (s.bufByte s.cursor.toNat) = 15
  · rw [if_pos hd, tlv_malformed _ _ ⟨hhead, .inl hd⟩]
    rfl
  rw [if_neg hd]
  by_cases hl : loNibble (s.bufByte s.cursor.toNat) = 15
  · rw [if_pos hl, tlv_malformed _ _ ⟨hhead, .inr (.inl hl)⟩]
    rfl
  · rw [if_neg hl, tlv_atHeader _ _ hhead]
    rfl

/-! ### The format of a whole TLV header -/

/-- Without a nibble 15, `Tlv` at `CURSOR` is an item of the size and with the fields that its nibbles give (R92, R97). -/
theorem tlv_eq_itemOf {s : State} {d l : Nibble} (hhead : AtHeader s s.cursor.toNat)
    (hd : hiNibble (s.bufByte s.cursor.toNat) = d) (hl : loNibble (s.bufByte s.cursor.toNat) = l)
    (hd15 : d ≠ 15) (hl15 : l ≠ 15) :
    tlv s s.cursor.toNat =
      itemOf (1 + extCount d + extCount l) (resolved s d (s.cursor.toNat + 1))
        (resolved s l (s.cursor.toNat + 1 + extCount d)) s := by
  rw [tlv_atHeader _ _ hhead, hd, hl, tlvBody_eq _ _ _ _ hhead.1]
  simp only [hd15, hl15, false_or, itemOf, gt_iff_lt, ← Nat.add_assoc]

/-! The nibble rule, a row of R97 each, in the form the wire rows have. -/

theorem extCount_thirteen : extCount 13 = 1 := rfl

theorem extCount_fourteen : extCount 14 = 2 := rfl

theorem extCount_literal {n : Nibble} (h13 : n ≠ 13) (h14 : n ≠ 14) : extCount n = 0 := by
  rw [extCount, if_neg h13, if_neg h14]

theorem resolved_thirteen (s : State) (q : Nat) : resolved s 13 q = (s.bufByte q).toNat + Config.ext8Base := rfl

theorem resolved_fourteen (s : State) (q : Nat) :
    resolved s 14 q = (halfOf (s.bufByte q) (s.bufByte (q + 1))).toNat + Config.ext16Base := by
  rw [halfOf_toNat]
  rfl

theorem resolved_literal (s : State) {n : Nibble} (q : Nat) (h13 : n ≠ 13) (h14 : n ≠ 14) : resolved s n q = n.toNat := by
  rw [resolved, if_neg h13, if_neg h14]

theorem exec_decodeDlit {s : State} {d l : Nibble} {q : Nat} {i : Instr} {rest : List Byte} (hd13 : d ≠ 13) (hd14 : d ≠ 14)
    (h : decodeDlit d l (messageFrom s q) = .ok (i, rest)) :
    exec i s = atItem (itemOf (1 + extCount d + extCount l) (resolved s d q) (resolved s l (q + extCount d)) s) s := by
  rw [extCount_literal hd13 hd14, resolved_literal s q hd13 hd14]
  unfold decodeDlit at h
  split at h
  · next hl =>
    split at h <;> cases h
    next x hbytes =>
      simp only [messageFrom_eq_cons_iff] at hbytes
      obtain ⟨-, rfl, -⟩ := hbytes
      rw [hl, extCount_thirteen, resolved_thirteen]
      rfl
  · split at h
    · next hl =>
      split at h <;> cases h
      next x y hbytes =>
        simp only [messageFrom_eq_cons_iff] at hbytes
        obtain ⟨-, rfl, -, rfl, -⟩ := hbytes
        rw [hl, extCount_fourteen, resolved_fourteen]
        rfl
    · next hl13 hl14 =>
      cases h
      rw [extCount_literal hl13 hl14, resolved_literal s _ hl13 hl14]
      rfl

theorem exec_decodeDext1 {s : State} {l : Nibble} {q : Nat} {i : Instr} {rest : List Byte}
    (h : decodeDext1 l (messageFrom s q) = .ok (i, rest)) :
    exec i s = atItem (itemOf (1 + extCount 13 + extCount l) (resolved s 13 q) (resolved s l (q + extCount 13)) s) s := by
  rw [extCount_thirteen, resolved_thirteen]
  unfold decodeDext1 at h
  split at h
  · next hl =>
    split at h <;> cases h
    next e x hbytes =>
      simp only [messageFrom_eq_cons_iff] at hbytes
      obtain ⟨-, rfl, -, rfl, -⟩ := hbytes
      rw [hl, extCount_thirteen, resolved_thirteen]
      rfl
  · split at h
    · next hl =>
      split at h <;> cases h
      next e x y hbytes =>
        simp only [messageFrom_eq_cons_iff] at hbytes
        obtain ⟨-, rfl, -, rfl, -, rfl, -⟩ := hbytes
        rw [hl, extCount_fourteen, resolved_fourteen]
        rfl
    · next hl13 hl14 =>
      split at h <;> cases h
      next e hbytes =>
        simp only [messageFrom_eq_cons_iff] at hbytes
        obtain ⟨-, rfl, -⟩ := hbytes
        rw [extCount_literal hl13 hl14, resolved_literal s _ hl13 hl14]
        rfl

theorem exec_decodeDext2 {s : State} {l : Nibble} {q : Nat} {i : Instr} {rest : List Byte}
    (h : decodeDext2 l (messageFrom s q) = .ok (i, rest)) :
    exec i s = atItem (itemOf (1 + extCount 14 + extCount l) (resolved s 14 q) (resolved s l (q + extCount 14)) s) s := by
  rw [extCount_fourteen, resolved_fourteen]
  unfold decodeDext2 at h
  split at h
  · next hl =>
    split at h <;> cases h
    next d e x hbytes =>
      simp only [messageFrom_eq_cons_iff] at hbytes
      obtain ⟨-, rfl, -, rfl, -, rfl, -⟩ := hbytes
      rw [hl, extCount_thirteen, resolved_thirteen]
      rfl
  · split at h
    · next hl =>
      split at h <;> cases h
      next d e x y hbytes =>
        simp only [messageFrom_eq_cons_iff] at hbytes
        obtain ⟨-, rfl, -, rfl, -, rfl, -, rfl, -⟩ := hbytes
        rw [hl, extCount_fourteen, resolved_fourteen]
        rfl
    · next hl13 hl14 =>
      split at h <;> cases h
      next d e hbytes =>
        simp only [messageFrom_eq_cons_iff] at hbytes
        obtain ⟨-, rfl, -, rfl, -⟩ := hbytes
        rw [extCount_literal hl13 hl14, resolved_literal s _ hl13 hl14]
        rfl

theorem exec_decodeTlvHeader {s : State} {i : Instr} {rest : List Byte} (hlt : s.cursor.toNat < s.len.toNat)
    (h : decodeTlvHeader (messageFrom s s.cursor.toNat) = .ok (i, rest)) :
    exec i s = atItem (tlv s s.cursor.toNat) s := by
  rw [messageFrom_of_lt hlt] at h
  unfold decodeTlvHeader at h
  dsimp only at h
  split_ifs at h with hm h15 hd13 hd14
  all_goals
    rw [not_or] at h15
    rw [tlv_eq_itemOf ⟨hlt, hm⟩ rfl rfl h15.1 h15.2]
  · rw [hd13]
    exact exec_decodeDext1 h
  · rw [hd14]
    exact exec_decodeDext2 h
  · exact exec_decodeDlit hd13 hd14 h

/-- Settles O59: each format's decoder gives the row that executes what `Tlv` finds at `CURSOR`. -/
theorem decOptRunsTheItemAtCursor : Obligations.DecOptRunsTheItemAtCursor := by
  intro s i rest hlt hdec
  have hrow : exec i s = atItem (tlv s s.cursor.toNat) s := by
    obtain hitem | htlv := hdec
    · change decode .item (messageFrom s s.cursor.toNat) = _ at hitem
      rw [messageFrom_of_lt hlt] at hitem
      cases hitem
      exact exec_decodeItem hlt
    · exact exec_decodeTlvHeader hlt htlv
  rw [hrow]
  exact execDecOpt_eq_atItem hlt

end Sys2Proof.Machine
end

section
/-! PROOFS. A command is a function of the memories, `LEN`, `CURSOR`, `OPTNUM` and the operands (10_state.md R32): on two states with
the same inputs every shared procedure answers alike and every end of a command leaves alike what it writes. -/

namespace Sys2Proof.Machine

/-- Two states that hold the same `BUF`, `VAL`, `LEN`, `CURSOR`, `OPTNUM` and operands: what a command may depend on (R32). -/
structure SameInputs (s s' : State) : Prop where
  buf : s'.buf = s.buf
  val : s'.val = s.val
  draw : s'.draw = s.draw
  len : s'.len = s.len
  cursor : s'.cursor = s.cursor
  optnum : s'.optnum = s.optnum
  arg0 : s'.arg0 = s.arg0
  arg1 : s'.arg1 = s.arg1
  arg2 : s'.arg2 = s.arg2
  arg3 : s'.arg3 = s.arg3
  arg4 : s'.arg4 = s.arg4

/-- Two states that a command may leave when it runs on the same inputs: all it writes is alike but `VSTATE`, which one command
alone writes. -/
structure SameResult (t t' : State) : Prop where
  status : t'.status = t.status
  res : t'.res = t.res
  buf : t'.buf = t.buf
  val : t'.val = t.val
  len : t'.len = t.len
  cursor : t'.cursor = t.cursor
  optnum : t'.optnum = t.optnum

namespace SameInputs

variable {s s' : State}

/-! ### What the shared procedures read -/

theorem bufByte_eq (h : SameInputs s s') (a : Nat) : s'.bufByte a = s.bufByte a := bufByte_congr h.buf h.draw a

theorem valByte_eq (h : SameInputs s s') (a : Nat) : s'.valByte a = s.valByte a := by
  simp only [State.valByte, h.val, h.draw]

theorem valBytes_eq (h : SameInputs s s') (n : Nat) : valBytes s' n = valBytes s n :=
  List.map_congr_left fun a _ => h.valByte_eq a

theorem hdrCheck_eq (h : SameInputs s s') : hdrCheck s' = hdrCheck s := by
  simp only [hdrCheck, h.len]

theorem memRead_eq (h : SameInputs s s') (a n : Nat) : memRead s' a n = memRead s a n := by
  induction n with
  | zero => rfl
  | succ n ih => simp only [memRead, ih, h.bufByte_eq]

theorem tlvBody_eq (h : SameInputs s s') (dn ln : Nibble) (q : Nat) : tlvBody s' dn ln q = tlvBody s dn ln q := by
  simp only [tlvBody, resolveNibble, h.memRead_eq, h.len]

theorem tlv_eq (h : SameInputs s s') (p : Nat) : tlv s' p = tlv s p := tlv_congr (fun a _ => h.bufByte_eq a) h.len p

theorem walk_eq (h : SameInputs s s') : walk s' = walk s := walk_congr (fun a _ => h.bufByte_eq a) h.len

theorem optAt_eq (h : SameInputs s s') (k : Nat) : optAt s' k = optAt s k := optAt_congr (fun a _ => h.bufByte_eq a) h.len k

theorem itemOf_eq (h : SameInputs s s') (size d l : Nat) : itemOf size d l s' = itemOf size d l s := by
  simp only [itemOf, h.len, h.cursor]

theorem stageOpt_eq (h : SameInputs s s') (n todo i : Nat) : stageOpt s' n todo i = stageOpt s n todo i := by
  induction todo generalizing i with
  | zero => rfl
  | succ todo ih => simp only [stageOpt, h.optAt_eq, ih]

theorem stageVer_eq (h : SameInputs s s') : stageVer s' = stageVer s := by
  simp only [stageVer, stageType, stageTkl, stageCode, stagePrefix, stageCount, h.hdrCheck_eq, h.bufByte_eq, h.len, h.walk_eq,
    h.stageOpt_eq]

/-! ### What keeps the inputs alike -/

theorem enterStage (h : SameInputs s s') (st : Stage) (i : Nat) : SameInputs (enterStage st i s) (enterStage st i s') :=
  { h with }

theorem writeBuf (h : SameInputs s s') (a : Nat) (b : Byte) : SameInputs (writeBuf a b s) (writeBuf a b s') := by
  unfold Machine.writeBuf
  split
  · exact { h with buf := by rw [h.buf] }
  · exact h

theorem writeBufBytes (h : SameInputs s s') (a : Nat) (bs : List Byte) :
    SameInputs (writeBufBytes a bs s) (writeBufBytes a bs s') := by
  induction bs generalizing a s s' with
  | nil => exact h
  | cons b bs ih => exact ih (h.writeBuf a b) (a + 1)

theorem setCursor (h : SameInputs s s') (c : Half) : SameInputs { s with cursor := c } { s' with cursor := c } :=
  { h with cursor := rfl }

theorem setLen (h : SameInputs s s') (n : Half) : SameInputs { s with len := n } { s' with len := n } :=
  { h with len := rfl }

theorem setCursorOptnum (h : SameInputs s s') (c : Half) (v : Word) :
    SameInputs { s with cursor := c, optnum := v } { s' with cursor := c, optnum := v } :=
  { h with cursor := rfl, optnum := rfl }

/-! ### The ends of a command -/

theorem complete (h : SameInputs s s') (r : Results) : SameResult (complete r s) (complete r s') :=
  ⟨rfl, rfl, h.buf, h.val, h.len, h.cursor, h.optnum⟩

theorem raiseWith (h : SameInputs s s') (e : Err) (r0 : Word) : SameResult (raiseWith e r0 s) (raiseWith e r0 s') :=
  ⟨rfl, rfl, h.buf, h.val, h.len, h.cursor, h.optnum⟩

theorem raise (h : SameInputs s s') (e : Err) : SameResult (raise e s) (raise e s') := h.raiseWith e 0

theorem finish (h : SameInputs s s') (o : Except Err Results) : SameResult (finish o s) (finish o s') := by
  cases o with
  | ok r => exact h.complete r
  | error e => exact h.raise e

theorem headerDecode (h : SameInputs s s') (o : Except Err Results) :
    SameResult (headerDecode o s) (headerDecode o s') := by
  unfold Machine.headerDecode
  rw [h.hdrCheck_eq]
  split
  · exact h.raise _
  · exact h.finish o

theorem decodeCodeByte (h : SameInputs s s') (c : Byte) : SameResult (decodeCodeByte c s) (decodeCodeByte c s') := by
  unfold Machine.decodeCodeByte
  rw [h.hdrCheck_eq]
  split
  · exact h.raise _
  split
  · exact h.complete _
  · exact h.raiseWith _ _

theorem finishItem (h : SameInputs s s') (o : Except Err TlvItem) : SameResult (finishItem o s) (finishItem o s') := by
  cases o with
  | ok it =>
    simp only [Machine.finishItem, advanceItem, h.optnum]
    exact (h.setCursorOptnum _ _).complete _
  | error e => exact h.raise e

theorem finishAppend (h : SameInputs s s') (o : Except Err (List Byte)) :
    SameResult (finishAppend o s) (finishAppend o s') := by
  cases o with
  | ok bs =>
    simp only [Machine.finishAppend, appendBytes, h.len]
    exact ((h.writeBufBytes _ bs).setLen _).complete _
  | error e => exact h.raise e

theorem writeAtCursor (h : SameInputs s s') (bs : List Byte) : SameResult (writeAtCursor bs s) (writeAtCursor bs s') := by
  simp only [Machine.writeAtCursor, h.cursor]
  exact ((h.writeBufBytes _ bs).setCursor _).complete _

end SameInputs

/-- Both runs go on, and leave what they write alike. -/
def SameEnd (o o' : Host.Outcome State Fault Refusal) : Prop := ∃ t t', o = .next t ∧ o' = .next t' ∧ SameResult t t'

theorem SameResult.next {t t' : State} (h : SameResult t t') : SameEnd (.next t) (.next t') := ⟨t, t', rfl, rfl, h⟩

namespace SameInputs

variable {s s' : State}

theorem atItem (h : SameInputs s s') (o : Except Err TlvItem) : SameEnd (atItem o s) (atItem o s') := by
  simp only [Machine.atItem, h.len, h.cursor]
  split_ifs
  · exact (h.raise _).next
  · exact (h.raise _).next
  · exact (h.raise _).next
  · exact (h.finishItem o).next

theorem atItem_itemOf (h : SameInputs s s') (size d l : Nat) :
    SameEnd (Machine.atItem (itemOf size d l s) s) (Machine.atItem (itemOf size d l s') s') := by
  rw [h.itemOf_eq]
  exact h.atItem _

theorem execWireHdrByte0 (h : SameInputs s s') (v t : BitVec 2) (k : Nibble) :
    SameEnd (execWireHdrByte0 v t k s) (execWireHdrByte0 v t k s') := by
  cases hc : hdrCheck s with
  | error e =>
    rw [execWireHdrByte0_short v t k hc, execWireHdrByte0_short v t k (h.hdrCheck_eq.trans hc)]
    exact (h.raise e).next
  | ok _ =>
    rw [execWireHdrByte0_eq v t k hc, execWireHdrByte0_eq v t k (h.hdrCheck_eq.trans hc)]
    split
    · exact (h.finish _).next
    · exact (h.raise _).next

theorem execValidate (h : SameInputs s s') : SameEnd (execValidate s) (execValidate s') := by
  unfold Machine.execValidate
  rw [h.stageVer_eq]
  split
  · exact ((h.enterStage _ _).complete _).next
  · exact ((h.enterStage _ _).raise _).next

theorem exec (h : SameInputs s s') (i : Instr) : SameEnd (exec i s) (exec i s') := by
  cases i with
  | getVer | getType | getTkl =>
    simp only [Machine.exec, execGetVer, execGetType, execGetTkl, h.bufByte_eq]
    exact (h.headerDecode _).next
  | getCode =>
    simp only [Machine.exec, execGetCode, h.bufByte_eq]
    exact (h.decodeCodeByte _).next
  | getMid =>
    simp only [Machine.exec, execGetMid, h.memRead_eq]
    exact (h.headerDecode _).next
  | setVer | setType | setTkl =>
    simp only [Machine.exec, execSetVer, execSetType, execSetTkl, h.arg0, h.bufByte_eq]
    split
    · exact (h.raise _).next
    · exact ((h.writeBuf _ _).complete _).next
  | setCode =>
    simp only [Machine.exec, execSetCode, h.arg0]
    split
    · exact ((h.writeBuf _ _).complete _).next
    · exact (h.raise _).next
  | setMid =>
    simp only [Machine.exec, execSetMid, memWrite, h.arg0]
    exact ((h.writeBufBytes _ _).complete _).next
  | buildHdr =>
    simp only [Machine.exec, execBuildHdr, h.arg0, h.arg1, h.arg2, h.arg3, h.arg4]
    split_ifs
    · exact (h.raise _).next
    · exact (h.raise _).next
    · exact (h.raise _).next
    · exact (h.raise _).next
    · exact ((h.writeBufBytes _ _).complete _).next
  | decOpt =>
    simp only [Machine.exec, execDecOpt, h.len, h.cursor, h.tlv_eq]
    split
    · exact (h.raise _).next
    · exact (h.finishItem _).next
  | cntOpt =>
    simp only [Machine.exec, execCntOpt, countResults, h.walk_eq]
    exact (h.finish _).next
  | getOpt =>
    simp only [Machine.exec, execGetOpt, optResults, h.optAt_eq, h.arg0]
    exact (h.finish _).next
  | optHlen =>
    simp only [Machine.exec, execOptHlen, headerLenResults, h.arg0, h.arg1, h.arg2]
    exact (h.finish _).next
  | optHbld =>
    simp only [Machine.exec, execOptHbld, headerToBuild, h.arg0, h.arg1, h.arg2, h.arg3, h.cursor]
    split
    · exact (h.raise _).next
    · exact (h.writeAtCursor _).next
  | addOpt =>
    simp only [Machine.exec, execAddOpt, optionToAdd, h.walk_eq, h.arg0, h.arg1, h.len, h.valBytes_eq]
    exact (h.finishAppend _).next
  | getPayload =>
    simp only [Machine.exec, execGetPayload, payloadResults, h.walk_eq, h.arg0, h.len]
    exact (h.finish _).next
  | setPayload =>
    simp only [Machine.exec, execSetPayload, payloadToSet, h.walk_eq, h.arg0, h.len, h.valBytes_eq]
    exact (h.finishAppend _).next
  | validate => exact h.execValidate
  | illegal _ => exact (h.raise _).next
  | wireHdrByte0 v t k => exact h.execWireHdrByte0 v t k
  | wireHdrByte1 c => exact (h.decodeCodeByte c).next
  | wireHdrMid m => exact (h.headerDecode _).next
  | wireMarker | wireTlvReservedDelta15 | wireTlvReservedLen15 => exact h.atItem _
  | wireTlv d l =>
    simp only [Machine.exec, execWireTlv, h.tlvBody_eq, h.cursor]
    exact h.atItem _
  | wireTlvDlitLlit | wireTlvDlitLext1 | wireTlvDlitLext2 | wireTlvDext1Llit | wireTlvDext1Lext1 | wireTlvDext1Lext2
  | wireTlvDext2Llit | wireTlvDext2Lext1 | wireTlvDext2Lext2 => exact h.atItem_itemOf _ _ _

/-- The stage `VALIDATE` ends in comes from the inputs alone: it starts anew at `V_VER` (R251). -/
theorem vstate_validate {t t' : State} (h : SameInputs s s') (ht : Machine.exec .validate s = .next t)
    (ht' : Machine.exec .validate s' = .next t') : t'.vstate = t.vstate := by
  simp only [Machine.exec, Machine.execValidate, h.stageVer_eq] at ht ht'
  cases hv : stageVer s with
  | accept n =>
    rw [hv] at ht ht'
    cases ht
    cases ht'
    rfl
  | stop e st i =>
    rw [hv] at ht ht'
    cases ht
    cases ht'
    rfl

end SameInputs

/-- Settles O44: a state with other contents of `CMD`, `STATUS`, `RES`, `VSTATE` and `hostIn` has the same inputs. -/
theorem commandsDependOnTheirInputsAlone : Obligations.CommandsDependOnTheirInputsAlone := by
  intro i s t cmd' status' res' vstate' hostIn' ht
  have hin : SameInputs s { s with cmd := cmd', status := status', res := res', vstate := vstate', hostIn := hostIn' } := by
    constructor <;> rfl
  obtain ⟨u, t', hu, ht', hres⟩ := hin.exec i
  cases ht.symm.trans hu
  refine ⟨t', ht', hres.status, hres.res, hres.buf, hres.val, hres.len, hres.cursor, hres.optnum, ?_⟩
  rintro rfl
  exact hin.vstate_validate ht ht'

end Sys2Proof.Machine
end

section
/-! PROOFS. What the host sees: the registers (10_state.md R21, R28, R29), the memory windows (R30, R31), and reset (R34,
70_reset_and_hazards.md R310, R313). -/

namespace Sys2Proof.Machine

/-! ### Registers -/

/-- Settles O36: the packed words have disjoint fields, and each field holds its code. -/
theorem statusWordHoldsErrorCode : Obligations.StatusWordHoldsErrorCode := by
  intro s
  refine ⟨?_, rfl, rfl, rfl, rfl, ?_, rfl⟩
  · rw [show hostReadReg s 1 = s.status.word from rfl, toNat_statusWord]
    congr 2
    obtain _ | e := s.status.err
    · rfl
    · cases e <;> rfl
  · exact toNat_vstateWord s.vstate

/-- A register number that a host write does not reach: `CMD` and `STATUS`, and every number from 10 up (R21, log 9). -/
theorem writeReg_ignored {n : Nat} (h : n < 2 ∨ 10 ≤ n) (v : Word) (s : State) : writeReg n v s = s := by
  unfold writeReg
  split
  case h_9 => rfl
  all_goals omega

theorem hostReadReg_unmapped {n : Nat} (h : 14 ≤ n) (s : State) : hostReadReg s n = 0 := by
  obtain ⟨k, rfl⟩ := Nat.exists_eq_add_of_le' h
  rfl

theorem writeReg_hostIn (n : Nat) (v : Word) (s : State) : (writeReg n v s).hostIn = s.hostIn := by
  unfold writeReg
  split <;> rfl

/-- A writable register reads back as written, within its width (R21). -/
theorem hostReadReg_writeReg {n : Nat} (hlo : 2 ≤ n) (hhi : n ≤ 9) (v : Word) (s : State) :
    hostReadReg (writeReg n v s) n = if n ≤ 3 then (v.extractLsb' 0 16).zeroExtend 32 else v := by
  interval_cases n <;> rfl

/-- Settles O47. -/
theorem hostWritesRegisters : Obligations.HostWritesRegisters := by
  intro s n v rest hin hidle hn
  refine ⟨_, step_wroteReg hin hidle hn, writeReg_hostIn n v _, ?_, ?_, ?_, ?_, ?_, ?_, ?_, ?_, fun h => ?_, fun hlo hhi => ?_,
    fun h => hostReadReg_unmapped h _⟩
  any_goals
    rintro rfl
    rfl
  · exact writeReg_ignored (by omega) v _
  · exact hostReadReg_writeReg hlo hhi v _

/-! ### Memory windows -/

theorem valByte_of_ge {a : Nat} (h : Config.maxBuf ≤ a) (s : State) : s.valByte a = 0 := by
  simp [State.valByte, Nat.not_lt.mpr h]

theorem writeVal_eq (a : Nat) (b : Byte) (s : State) : writeVal a b s = { s with val := (writeVal a b s).val } := by
  unfold writeVal
  split <;> rfl

theorem bufByte_writeBuf_at (a : Nat) (b : Byte) (s : State) : (writeBuf a b s).bufByte a = if a < 1460 then b else 0 := by
  split
  · next h => exact bufByte_writeBuf_same h b s
  · next h => exact bufByte_of_ge (Nat.not_lt.mp h) _

theorem valByte_writeVal_at (a : Nat) (b : Byte) (s : State) : (writeVal a b s).valByte a = if a < 1460 then b else 0 := by
  split
  · next h => exact valByte_writeVal_same h b s
  · next h => exact valByte_of_ge (Nat.not_lt.mp h) _

/-- Settles O48: each window is the memory's own write and read, with the capacity tested in both. -/
theorem hostWritesMemoryWindows : Obligations.HostWritesMemoryWindows := by
  intro s a b rest hidle
  refine ⟨fun hin => ⟨_, step_wroteBuf hin hidle, ?_, bufByte_writeBuf_at a b _, fun c hc => ?_⟩,
    fun hin => ⟨_, step_wroteVal hin hidle, ?_, valByte_writeVal_at a b _, fun c hc => ?_⟩⟩
  · exact writeBuf_eq a b _
  · exact bufByte_writeBuf_ne hc b _
  · exact writeVal_eq a b _
  · exact valByte_writeVal_ne hc b _

/-! ### Reset -/

theorem hostReadReg_reset (draw : Nat) (hostIn : List HostAction) (n : Nat) :
    hostReadReg { State.reset with draw := draw, hostIn := hostIn } n = 0 := by
  have hstatus : State.reset.status.word = 0 := by decide
  have hvstate : State.reset.vstate.word = 0 := by decide
  unfold hostReadReg
  split
  case h_2 => exact hstatus
  case h_14 => exact hvstate
  all_goals rfl

theorem bufByte_resetPin {a : Nat} (h : a < Config.maxBuf) (s : State) :
    (resetPin s).bufByte a = Config.bufDraw (s.draw + 1) a := by
  rw [State.bufByte, if_pos h]
  rfl

theorem valByte_resetPin {a : Nat} (h : a < Config.maxBuf) (s : State) :
    (resetPin s).valByte a = Config.valDraw (s.draw + 1) a := by
  rw [State.valByte, if_pos h]
  rfl

/-- Settles O49: the step is `resetPin`, whether a command is in flight or not. -/
theorem resetRestoresEveryRegister : Obligations.ResetRestoresEveryRegister := by
  intro s rest hin
  refine ⟨_, step_reset hin, rfl, rfl, rfl, rfl, rfl, rfl, rfl, rfl, rfl, rfl, rfl, rfl, rfl, fun n => ?_, fun a ha => ?_⟩
  · exact hostReadReg_reset (s.draw + 1) rest n
  · exact ⟨bufByte_resetPin ha _, valByte_resetPin ha _⟩

/-! ### A message shorter than its header -/

/-- The commands that need a message: the header decoders, those that walk the option chain and the append (R313). -/
abbrev needMessage : List Instr := [.getVer, .getType, .getTkl, .getCode, .getMid, .cntOpt, .getOpt, .getPayload, .addOpt]

theorem headerDecode_short {s : State} (h : s.len.toNat < 4) (o : Except Err Results) :
    headerDecode o s = raise .invalidPacket s := by
  simp only [headerDecode, hdrCheck_short h]

theorem walk_short {s : State} (h : s.len.toNat < 4) : walk s = .error .invalidPacket :=
  walk_prefixFails (.inr (.inl ⟨h, rfl⟩))

theorem optAt_short {s : State} (h : s.len.toNat < 4) (k : Nat) : optAt s k = .error .invalidPacket :=
  optAt_prefixFails (.inr (.inl ⟨h, rfl⟩)) k

/-- Without four bytes the length test of R133 or of R100 ends each of them, before any byte is read. -/
theorem exec_short {s : State} {i : Instr} (hi : i ∈ needMessage) (h : s.len.toNat < 4) :
    exec i s = .next (raise .invalidPacket s) := by
  simp only [List.mem_cons, List.not_mem_nil, or_false] at hi
  obtain rfl | rfl | rfl | rfl | rfl | rfl | rfl | rfl | rfl := hi
  · exact congrArg _ (headerDecode_short h _)
  · exact congrArg _ (headerDecode_short h _)
  · exact congrArg _ (headerDecode_short h _)
  · simp only [exec, execGetCode, decodeCodeByte, hdrCheck_short h]
  · exact congrArg _ (headerDecode_short h _)
  · simp only [exec, execCntOpt, countResults, walk_short h, finish]
  · simp only [exec, execGetOpt, optResults, optAt_short h, finish]
  · simp only [exec, execGetPayload, payloadResults, walk_short h, finish]
  · simp only [exec, execAddOpt, optionToAdd, walk_short h, finishAppend]

theorem exec_validate_short {s : State} (h : s.len.toNat < 4) :
    exec .validate s = .next (raise .invalidPacket (enterStage .vVer 0 s)) := by
  simp only [exec, execValidate, stageVer, hdrCheck_short h]

theorem exec_decOpt_atEnd {s : State} (hlen : s.len.toNat ≤ 1460) (h : AtEnd s s.cursor.toNat) :
    exec .decOpt s = .next (raise .endOfPacket s) := by
  simp only [exec, execDecOpt, tlv_atEnd _ _ h, finishItem]
  exact if_neg (Nat.not_lt.mpr hlen)

/-- Settles O50: after reset `LEN` is 0, shorter than a header, and `CURSOR` stands at the end. -/
theorem afterResetNoMessage : Obligations.AfterResetNoMessage := by
  refine ⟨hostReadReg_reset 0 [], rfl, fun i draw hi => ?_, fun draw => ?_, fun draw => ?_⟩
  · exact exec_short hi (by decide : (0 : Half).toNat < 4)
  · exact exec_decOpt_atEnd (by decide : (0 : Half).toNat ≤ 1460) rfl
  · exact exec_validate_short (by decide : (0 : Half).toNat < 4)

/-- Settles O52: nothing is listed in either memory and every register is 0. -/
theorem resetMeetsInvariant : Obligations.ResetMeetsInvariant :=
  ⟨wf_reset.1, wf_reset.2, rfl, rfl, fun h => absurd rfl h, fun _ => rfl, Nat.zero_lt_succ _⟩

end Sys2Proof.Machine
end

section
/-! PROOFS. The decode commands and the memories (20_memory.md R64, R66): one that moves no register it reads answers the same again,
and none sees anything of the memories but the bytes of `BUF` below `LEN`. -/

namespace Sys2Proof.Machine

/-! ### Repeating a decode command (R64) -/

/-- A decode command that advances nothing writes `STATUS`, `RES` and at most `VSTATE`. -/
theorem Ends.idempotentReader_frame {i : Instr} {s t : State} (h : Ends i s t) (hi : i ∈ idempotentReaders) :
    t = { s with status := t.status, res := t.res, vstate := t.vstate } := by
  have hgroup : ∀ j ∈ idempotentReaders, ¬ Advances j ∧ j ∉ bufWriters := by decide
  obtain ⟨ha, hw⟩ := hgroup i hi
  by_cases hv : i = .validate
  · subst hv
    exact h.validate_frame
  · rw [h.vstate_eq hv]
    exact h.status_frame hv ha hw

/-- The state such a command leaves holds the inputs it was run on. -/
theorem sameInputs_of_idempotentReader {i : Instr} {s t : State} (hi : i ∈ idempotentReaders) (h : exec i s = .next t) :
    SameInputs s t := by
  rw [(ends_of_exec h).idempotentReader_frame hi]
  constructor <;> rfl

/-- Settles O42: the second run has the inputs of the first, so it writes the same values over those of the first. -/
theorem decodeCommandsAreIdempotent : Obligations.DecodeCommandsAreIdempotent := by
  intro i s t hi ht
  have hin := sameInputs_of_idempotentReader hi ht
  obtain ⟨u, t', hu, ht', hres⟩ := hin.exec i
  cases ht.symm.trans hu
  have hends := ends_of_exec ht'
  have hvstate : t'.vstate = t.vstate := by
    by_cases hv : i = .validate
    · subst hv
      exact hin.vstate_validate ht ht'
    · exact hends.vstate_eq hv
  have heq : t' = t := by
    rw [hends.idempotentReader_frame hi, hres.status, hres.res, hvstate]
  rw [ht', heq]

/-! ### Other memories around the same message (R66) -/

/-- `s` with other contents of both memories and other draws: every register stays. -/
def State.withMemories (s : State) (buf' val' : Memory) (draw' : Nat) : State :=
  { s with buf := buf', val := val', draw := draw' }

@[simp] theorem withMemories_len (s : State) (b v : Memory) (d : Nat) : (s.withMemories b v d).len = s.len := rfl
@[simp] theorem withMemories_cursor (s : State) (b v : Memory) (d : Nat) : (s.withMemories b v d).cursor = s.cursor := rfl

@[simp] theorem complete_withMemories (r : Results) (s : State) (b v : Memory) (d : Nat) :
    complete r (s.withMemories b v d) = (complete r s).withMemories b v d := rfl

@[simp] theorem raiseWith_withMemories (e : Err) (r0 : Word) (s : State) (b v : Memory) (d : Nat) :
    raiseWith e r0 (s.withMemories b v d) = (raiseWith e r0 s).withMemories b v d := rfl

@[simp] theorem raise_withMemories (e : Err) (s : State) (b v : Memory) (d : Nat) :
    raise e (s.withMemories b v d) = (raise e s).withMemories b v d := rfl

@[simp] theorem enterStage_withMemories (st : Stage) (i : Nat) (s : State) (b v : Memory) (d : Nat) :
    enterStage st i (s.withMemories b v d) = (enterStage st i s).withMemories b v d := rfl

theorem finish_withMemories (o : Except Err Results) (s : State) (b v : Memory) (d : Nat) :
    finish o (s.withMemories b v d) = (finish o s).withMemories b v d := by
  cases o <;> rfl

theorem finishItem_withMemories (o : Except Err TlvItem) (s : State) (b v : Memory) (d : Nat) :
    finishItem o (s.withMemories b v d) = (finishItem o s).withMemories b v d := by
  cases o <;> rfl

theorem hdrCheck_withMemories (s : State) (b v : Memory) (d : Nat) : hdrCheck (s.withMemories b v d) = hdrCheck s := rfl

/-- A header decode command sees its field only when the header is there. -/
theorem headerDecode_withMemories {s : State} (b v : Memory) (d : Nat) {o o' : Except Err Results}
    (h : 4 ≤ s.len.toNat → o' = o) : headerDecode o' (s.withMemories b v d) = (headerDecode o s).withMemories b v d := by
  by_cases hlen : s.len.toNat < 4
  · rw [headerDecode_short hlen, headerDecode_short (s := s.withMemories b v d) hlen, raise_withMemories]
  · rw [h (Nat.not_lt.mp hlen), headerDecode, headerDecode, hdrCheck_withMemories]
    split
    · exact raise_withMemories ..
    · exact finish_withMemories ..

theorem decodeCodeByte_withMemories {s : State} (b v : Memory) (d : Nat) {c c' : Byte} (h : 4 ≤ s.len.toNat → c' = c) :
    decodeCodeByte c' (s.withMemories b v d) = (decodeCodeByte c s).withMemories b v d := by
  rw [decodeCodeByte, decodeCodeByte, hdrCheck_withMemories]
  by_cases hlen : s.len.toNat < 4
  · rw [hdrCheck_short hlen]
    exact raise_withMemories ..
  · rw [h (Nat.not_lt.mp hlen)]
    split
    · exact raise_withMemories ..
    split
    · exact complete_withMemories ..
    · exact raiseWith_withMemories ..

/-! ### What the walks and the validator answer from the message alone -/

theorem countResults_congr {s t : State} (hb : ∀ a, a < s.len.toNat → t.bufByte a = s.bufByte a) (hl : t.len = s.len) :
    countResults t = countResults s := by
  rw [countResults, countResults, walk_congr hb hl]

theorem optResults_congr {s t : State} (hb : ∀ a, a < s.len.toNat → t.bufByte a = s.bufByte a) (hl : t.len = s.len)
    (ha : t.arg0 = s.arg0) : optResults t = optResults s := by
  rw [optResults, optResults, optAt_congr hb hl, ha]

theorem payloadResults_congr {s t : State} (hb : ∀ a, a < s.len.toNat → t.bufByte a = s.bufByte a) (hl : t.len = s.len)
    (ha : t.arg0 = s.arg0) : payloadResults t = payloadResults s := by
  rw [payloadResults, payloadResults, walk_congr hb hl, hl, ha]

theorem stageOpt_congr {s t : State} (hb : ∀ a, a < s.len.toNat → t.bufByte a = s.bufByte a) (hl : t.len = s.len)
    (n todo i : Nat) : stageOpt t n todo i = stageOpt s n todo i := by
  induction todo generalizing i with
  | zero => rfl
  | succ todo ih => simp only [stageOpt, optAt_congr hb hl, ih]

theorem stageVer_congr {s t : State} (hb : ∀ a, a < s.len.toNat → t.bufByte a = s.bufByte a) (hl : t.len = s.len) :
    stageVer t = stageVer s := by
  by_cases hlen : s.len.toNat < 4
  · rw [stageVer, stageVer, hdrCheck_short hlen, hdrCheck_short (hl ▸ hlen)]
  · have hcheck : hdrCheck t = hdrCheck s := by simp only [hdrCheck, hl]
    have h0 := hb 0 (by omega)
    have h1 := hb 1 (by omega)
    simp only [stageVer, stageType, stageTkl, stageCode, stagePrefix, stageCount, hcheck, h0, h1, hl, walk_congr hb hl,
      stageOpt_congr hb hl]

/-! ### The decode commands -/

theorem execDecOpt_withMemories {s t : State} {b v : Memory} {d : Nat}
    (hb : ∀ a, a < s.len.toNat → (s.withMemories b v d).bufByte a = s.bufByte a) (ht : execDecOpt s = .next t) :
    execDecOpt (s.withMemories b v d) = .next (t.withMemories b v d) := by
  unfold execDecOpt at ht ⊢
  rw [tlv_congr hb rfl, withMemories_len, withMemories_cursor]
  split at ht <;> cases ht
  · next hlong => rw [if_pos hlong, raise_withMemories]
  · next hfits => rw [if_neg hfits, finishItem_withMemories]

theorem execValidate_withMemories {s t : State} {b v : Memory} {d : Nat}
    (hb : ∀ a, a < s.len.toNat → (s.withMemories b v d).bufByte a = s.bufByte a) (ht : execValidate s = .next t) :
    execValidate (s.withMemories b v d) = .next (t.withMemories b v d) := by
  unfold execValidate at ht ⊢
  rw [stageVer_congr hb rfl]
  cases hv : stageVer s with
  | accept | stop =>
    rw [hv] at ht
    cases ht
    rfl

/-- Settles O43: every byte a decode command looks at lies below `LEN`, and its ending writes registers alone. -/
theorem decodeReadsOnlyTheMessage : Obligations.DecodeReadsOnlyTheMessage := by
  intro i s t b v d hi (hb : ∀ a, a < s.len.toNat → (s.withMemories b v d).bufByte a = s.bufByte a) ht
  change exec i (s.withMemories b v d) = .next (t.withMemories b v d)
  cases i with
  | getVer | getType | getTkl =>
    cases ht
    exact congrArg _ (headerDecode_withMemories b v d fun h => by rw [hb 0 (by omega)])
  | getCode =>
    cases ht
    exact congrArg _ (decodeCodeByte_withMemories b v d fun h => hb 1 (by omega))
  | getMid =>
    cases ht
    exact congrArg _ (headerDecode_withMemories b v d fun h => by
      rw [memRead_two, memRead_two, hb 2 (by omega), hb 3 (by omega)])
  | decOpt => exact execDecOpt_withMemories hb ht
  | cntOpt =>
    cases ht
    simp only [exec, execCntOpt, countResults_congr hb rfl, finish_withMemories]
  | getOpt =>
    cases ht
    simp only [exec, execGetOpt, optResults_congr hb rfl rfl, finish_withMemories]
  | getPayload =>
    cases ht
    simp only [exec, execGetPayload, payloadResults_congr hb rfl rfl, finish_withMemories]
  | validate => exact execValidate_withMemories hb ht
  | _ => simp [messageReaders] at hi

end Sys2Proof.Machine
end

section
/-! PROOFS. Option headers across the encoder and the decoder (30_encoding.md R99, R160, R206): `DEC_OPT` reads every encoding of a
delta and a length, and so what `OPT_HBLD` wrote. -/

namespace Sys2Proof.Machine

/-- Where the encoding of `d` and `l` stands at `CURSOR` and the value fits, `DEC_OPT` advances by them. -/
theorem exec_decOpt_of_header {s : State} {d l : Nat} (hd : d ≤ 65804) (hl : l ≤ 65804) (hlen : s.len.toNat ≤ 1460)
    (hbytes : ∀ k, k < headerLen d l → (optHeader d l)[k]? = some (s.bufByte (s.cursor.toNat + k)))
    (hfits : s.cursor.toNat + headerLen d l + l ≤ s.len.toNat) :
    exec .decOpt s =
      .next (advanceItem ⟨d, l, s.cursor.toNat + headerLen d l, s.cursor.toNat + headerLen d l + l⟩ s) := by
  have hitem := tlv_atItem _ _ (atItem_of_header hd hl hbytes hfits)
  obtain ⟨-, hstart, hdelta, hlength⟩ := header_read hd hl hbytes
  rw [hstart, hdelta, hlength] at hitem
  simp only [exec, execDecOpt, hitem, finishItem]
  exact if_neg (Nat.not_lt.mpr hlen)

/-- Settles O15: the header bytes stand at `CURSOR`, so a whole entry of that delta and length stands there. -/
theorem decOptReadsEveryEncoding : Obligations.DecOptReadsEveryEncoding := by
  intro s d l hd hl hlen hbytes hfits
  rw [length_optHeader] at hbytes hfits ⊢
  obtain ⟨hstate, hcursor⟩ := advanceItem_spec
    ⟨d, l, s.cursor.toNat + headerLen d l, s.cursor.toNat + headerLen d l + l⟩ s (by dsimp only; omega)
  exact ⟨_, exec_decOpt_of_header hd hl hlen hbytes hfits, hstate, hcursor⟩

/-- `OPT_HBLD` with encodable operands and the right header length writes the header at `CURSOR` (R206). -/
theorem exec_optHbld_of_canEncode {s : State} {d : Nat} (hd : d = s.arg0.toNat - s.arg2.toNat)
    (henc : CanEncode s.arg0.toNat s.arg1.toNat s.arg2.toNat) (hsize : s.arg3.toNat = headerLen d s.arg1.toNat)
    (hfits : s.cursor.toNat + headerLen d s.arg1.toNat ≤ Config.maxBuf) :
    exec .optHbld s = .next (writeAtCursor (optHeader d s.arg1.toNat) s) := by
  have hbuild : headerToBuild s = .ok (optHeader d s.arg1.toNat) := by
    simp only [headerToBuild, optCheck_ok henc, ← hd]
    rw [if_neg (not_not_intro hsize), if_neg (Nat.not_lt.mpr hfits)]
  simp only [exec, execOptHbld, hbuild]

/-- The running number arrives at the option number: the delta is their difference (R200). -/
theorem add_ofNat_sub {prev num : Word} (h : prev.toNat ≤ num.toNat) :
    prev + BitVec.ofNat 32 (num.toNat - prev.toNat) = num := by
  apply BitVec.eq_of_toNat_eq
  rw [BitVec.toNat_add, BitVec.toNat_ofNat]
  omega

/-- Settles O16: `OPT_HBLD` leaves the encoding of the delta and the length at the old `CURSOR`, where `DEC_OPT` then reads it. -/
theorem decOptInvertsOptHbld : Obligations.DecOptInvertsOptHbld := by
  intro s v henc hsize hfits hv
  have hmax := maxBuf_eq
  obtain ⟨d, hd⟩ : ∃ d, d = s.arg0.toNat - s.arg2.toNat := ⟨_, rfl⟩
  rw [← hd, ← headerLen_eq] at hsize
  have hbuild := exec_optHbld_of_canEncode hd henc hsize (by omega)
  obtain ⟨-, hcursor, hbytes, -⟩ :=
    writeAtCursor_spec (optHeader d s.arg1.toNat) s (by rw [length_optHeader]; omega)
  rw [length_optHeader] at hcursor hbytes
  obtain ⟨hle, -, hdelta, hlength⟩ := henc
  have hnum : s.arg2 + BitVec.ofNat 32 d = s.arg0 := hd ▸ add_ofNat_sub hle
  have hread := exec_decOpt_of_header (s := { writeAtCursor (optHeader d s.arg1.toNat) s with
    len := v, cursor := s.cursor, optnum := s.arg2 }) (d := d) (by omega) hlength hv hbytes (by dsimp only; omega)
  refine ⟨_, _, hbuild, rfl, hread, rfl, hnum, ?_, ?_, by rw [hcursor, hsize]⟩
  · simp only [advanceItem, complete_res, hnum, hcursor, toWord, BitVec.ofNat_toNat, BitVec.setWidth_eq]
  · rw [(advanceItem_spec _ _ (by dsimp only; omega)).2, hcursor]

end Sys2Proof.Machine
end

section
/-! PROOFS. Decoding and encoding are inverse to each other (30_encoding.md R91, R92, R97, R99, R115; 43_option_encoder.md R207), by
the formats; the whole TLV header by its nine classes. -/

namespace Sys2Proof.Machine

/-! ### Opcodes and items -/

/-- Two decoders' successes agree when the instructions do. -/
theorem ok_congr {i j : Instr} (h : i = j) (rest : List Byte) :
    (Except.ok (i, rest) : Except DecodeErr (Instr × List Byte)) = .ok (j, rest) := by rw [h]

theorem decodeOpcode_of_not_command {o : Byte} : commandOpcodes.contains o = false → decodeOpcode o = .illegal o := by
  revert o; decide

theorem nibbles_eq_marker_iff (d l : Nibble) : nibbles d l = Config.marker ↔ d = 15 ∧ l = 15 := by
  rw [Config.marker, eq_marker_iff, hiNibble_nibbles, loNibble_nibbles]

/-- A header byte that is not the marker: its nibbles tell which row it is (R104). -/
theorem decodeItem_nibbles {d l : Nibble} (h : d ≠ 15 ∨ l ≠ 15) :
    decodeItem (nibbles d l) =
      if d = 15 then .wireTlvReservedDelta15 l else if l = 15 then .wireTlvReservedLen15 d else .wireTlv d l := by
  have hm : nibbles d l ≠ Config.marker := by rwa [Ne, nibbles_eq_marker_iff, not_and_or]
  rw [decodeItem, if_neg hm, hiNibble_nibbles, loNibble_nibbles]

theorem decodeItem_tlv {d l : Nibble} (hd : d ≠ 15) (hl : l ≠ 15) : decodeItem (nibbles d l) = .wireTlv d l := by
  rw [decodeItem_nibbles (.inl hd), if_neg hd, if_neg hl]

theorem decodeItem_reservedDelta {l : Nibble} (hl : l ≠ 15) : decodeItem (nibbles 15 l) = .wireTlvReservedDelta15 l :=
  decodeItem_nibbles (.inr hl)

theorem decodeItem_reservedLen {d : Nibble} (hd : d ≠ 15) : decodeItem (nibbles d 15) = .wireTlvReservedLen15 d := by
  rw [decodeItem_nibbles (.inl hd), if_neg hd, if_pos rfl]

/-! ### Whole TLV headers -/

theorem literalNibble_iff (n : Nibble) : literalNibble n = true ↔ n ≠ 13 ∧ n ≠ 14 ∧ n ≠ 15 := by
  revert n; decide

theorem ne_fifteen_of_literal {n : Nibble} (h : literalNibble n = true) : n ≠ 15 := ((literalNibble_iff n).mp h).2.2

/-- Without a nibble 15 the delta nibble chooses how the extension bytes are read (R92, R97). -/
theorem decodeTlvHeader_nibbles {d l : Nibble} (hd : d ≠ 15) (hl : l ≠ 15) (bs : List Byte) :
    decodeTlvHeader (nibbles d l :: bs) =
      if d = 13 then decodeDext1 l bs else if d = 14 then decodeDext2 l bs else decodeDlit d l bs := by
  have hm : nibbles d l ≠ Config.marker := mt (nibbles_eq_marker_iff d l).mp fun h => hd h.1
  rw [decodeTlvHeader, if_neg hm, hiNibble_nibbles, loNibble_nibbles, if_neg (not_or.mpr ⟨hd, hl⟩)]

theorem decodeTlvHeader_literal {d l : Nibble} (hd : literalNibble d = true) (hl : l ≠ 15) (bs : List Byte) :
    decodeTlvHeader (nibbles d l :: bs) = decodeDlit d l bs := by
  obtain ⟨h13, h14, h15⟩ := (literalNibble_iff d).mp hd
  rw [decodeTlvHeader_nibbles h15 hl, if_neg h13, if_neg h14]

theorem decodeTlvHeader_thirteen {l : Nibble} (hl : l ≠ 15) (bs : List Byte) :
    decodeTlvHeader (nibbles 13 l :: bs) = decodeDext1 l bs := decodeTlvHeader_nibbles (by decide) hl bs

theorem decodeTlvHeader_fourteen {l : Nibble} (hl : l ≠ 15) (bs : List Byte) :
    decodeTlvHeader (nibbles 14 l :: bs) = decodeDext2 l bs := decodeTlvHeader_nibbles (by decide) hl bs

/-! A literal length has no extension bytes. -/

theorem decodeDlit_literal (d : Nibble) {l : Nibble} (hl : literalNibble l = true) (bs : List Byte) :
    decodeDlit d l bs = .ok (.wireTlvDlitLlit d l, bs) := by
  obtain ⟨h13, h14, -⟩ := (literalNibble_iff l).mp hl
  simp only [decodeDlit, if_neg h13, if_neg h14]

theorem decodeDext1_literal {l : Nibble} (hl : literalNibble l = true) (e : Byte) (bs : List Byte) :
    decodeDext1 l (e :: bs) = .ok (.wireTlvDext1Llit l e, bs) := by
  obtain ⟨h13, h14, -⟩ := (literalNibble_iff l).mp hl
  simp only [decodeDext1, if_neg h13, if_neg h14]

theorem decodeDext2_literal {l : Nibble} (hl : literalNibble l = true) (e : Half) (bs : List Byte) :
    decodeDext2 l (hiByte e :: loByte e :: bs) = .ok (.wireTlvDext2Llit l e, bs) := by
  obtain ⟨h13, h14, -⟩ := (literalNibble_iff l).mp hl
  simp only [decodeDext2, if_neg h13, if_neg h14, halfOf_hi_lo]

/-- Settles O54: a case for each constructor, and within the TLV headers one for each nibble. -/
theorem decodeInvertsEncode : Obligations.DecodeInvertsEncode := by
  intro i rest hwf
  have h13 : (13 : Nibble) ≠ 15 := by decide
  have h14 : (14 : Nibble) ≠ 15 := by decide
  cases i with
  | illegal o =>
    exact ok_congr (decodeOpcode_of_not_command ((Bool.not_eq_true' _).mp hwf)) rest
  | wireHdrByte0 v t k =>
    simp only [formatOf, encode, decode, List.cons_append, List.nil_append, verField_hdrByte, typeField_hdrByte,
      tklField_hdrByte]
  | wireHdrMid m => exact ok_congr (congrArg Instr.wireHdrMid (halfOf_hi_lo m)) rest
  | wireTlv d l =>
    obtain ⟨hd, hl⟩ := Bool.and_eq_true_iff.mp hwf
    exact ok_congr (decodeItem_tlv (bne_iff_ne.mp hd) (bne_iff_ne.mp hl)) rest
  | wireTlvReservedDelta15 l => exact ok_congr (decodeItem_reservedDelta (bne_iff_ne.mp hwf)) rest
  | wireTlvReservedLen15 d => exact ok_congr (decodeItem_reservedLen (bne_iff_ne.mp hwf)) rest
  | wireTlvDlitLlit d l =>
    obtain ⟨hd, hl⟩ := Bool.and_eq_true_iff.mp hwf
    exact (decodeTlvHeader_literal hd (ne_fifteen_of_literal hl) _).trans (decodeDlit_literal d hl _)
  | wireTlvDlitLext1 d x => exact decodeTlvHeader_literal hwf h13 _
  | wireTlvDlitLext2 d x =>
    exact (decodeTlvHeader_literal hwf h14 _).trans
      (ok_congr (congrArg (Instr.wireTlvDlitLext2 d) (halfOf_hi_lo x)) rest)
  | wireTlvDext1Llit l e =>
    exact (decodeTlvHeader_thirteen (ne_fifteen_of_literal hwf) _).trans (decodeDext1_literal hwf e _)
  | wireTlvDext1Lext2 e x => exact ok_congr (congrArg (Instr.wireTlvDext1Lext2 e) (halfOf_hi_lo x)) rest
  | wireTlvDext2Llit l e =>
    exact (decodeTlvHeader_fourteen (ne_fifteen_of_literal hwf) _).trans (decodeDext2_literal hwf e _)
  | wireTlvDext2Lext1 e x => exact ok_congr (congrArg (Instr.wireTlvDext2Lext1 · x) (halfOf_hi_lo e)) rest
  | wireTlvDext2Lext2 e x =>
    exact ok_congr (congrArg₂ Instr.wireTlvDext2Lext2 (halfOf_hi_lo e) (halfOf_hi_lo x)) rest
  | _ => rfl

/-! ### What decodes spells its bytes -/

/-- `i` is a well-formed word of format `f`, and its bytes followed by `rest` are `bs`. -/
abbrev Spells (f : Format) (bs : List Byte) (i : Instr) (rest : List Byte) : Prop :=
  WellFormed i = true ∧ formatOf i = f ∧ encode i ++ rest = bs

theorem decodeOpcode_spells (o : Byte) (rest : List Byte) : Spells .cmd (o :: rest) (decodeOpcode o) rest := by
  cases hcommand : commandOpcodes.contains o with
  | false =>
    rw [decodeOpcode_of_not_command hcommand]
    exact ⟨(Bool.not_eq_true' _).mpr hcommand, rfl, rfl⟩
  | true =>
    have hword : ∀ o ∈ commandOpcodes,
        WellFormed (decodeOpcode o) = true ∧ formatOf (decodeOpcode o) = .cmd ∧ encode (decodeOpcode o) = [o] := by decide
    obtain ⟨hwf, hf, hbytes⟩ := hword o (List.contains_iff_mem.mp hcommand)
    exact ⟨hwf, hf, by rw [hbytes]; rfl⟩

theorem decodeItem_spells (b : Byte) (rest : List Byte) : Spells .item (b :: rest) (decodeItem b) rest := by
  obtain ⟨d, l, rfl⟩ : ∃ d l, nibbles d l = b := ⟨_, _, nibbles_hi_lo b⟩
  by_cases hd : d = 15 <;> by_cases hl : l = 15
  · subst hd hl
    exact ⟨rfl, rfl, rfl⟩
  · subst hd
    rw [decodeItem_reservedDelta hl]
    exact ⟨bne_iff_ne.mpr hl, rfl, rfl⟩
  · subst hl
    rw [decodeItem_reservedLen hd]
    exact ⟨bne_iff_ne.mpr hd, rfl, rfl⟩
  · rw [decodeItem_tlv hd hl]
    exact ⟨Bool.and_eq_true_iff.mpr ⟨bne_iff_ne.mpr hd, bne_iff_ne.mpr hl⟩, rfl, rfl⟩

section
variable {d l : Nibble} {bs rest : List Byte} {i : Instr}

theorem decodeDlit_spells (hd : literalNibble d = true) (hl : l ≠ 15) (h : decodeDlit d l bs = .ok (i, rest)) :
    Spells .tlvHeader (nibbles d l :: bs) i rest := by
  unfold decodeDlit at h
  split_ifs at h with h13 h14
  · split at h <;> cases h
    exact ⟨hd, rfl, by rw [h13]; rfl⟩
  · split at h <;> cases h
    exact ⟨hd, rfl, by simp [encode, h14]⟩
  · cases h
    exact ⟨Bool.and_eq_true_iff.mpr ⟨hd, (literalNibble_iff l).mpr ⟨h13, h14, hl⟩⟩, rfl, rfl⟩

theorem decodeDext1_spells (hl : l ≠ 15) (h : decodeDext1 l bs = .ok (i, rest)) :
    Spells .tlvHeader (nibbles 13 l :: bs) i rest := by
  unfold decodeDext1 at h
  split_ifs at h with h13 h14
  · split at h <;> cases h
    exact ⟨rfl, rfl, by rw [h13]; rfl⟩
  · split at h <;> cases h
    exact ⟨rfl, rfl, by simp [encode, h14, nibbles]⟩
  · split at h <;> cases h
    exact ⟨(literalNibble_iff l).mpr ⟨h13, h14, hl⟩, rfl, rfl⟩

theorem decodeDext2_spells (hl : l ≠ 15) (h : decodeDext2 l bs = .ok (i, rest)) :
    Spells .tlvHeader (nibbles 14 l :: bs) i rest := by
  unfold decodeDext2 at h
  split_ifs at h with h13 h14
  · split at h <;> cases h
    exact ⟨rfl, rfl, by simp [encode, h13, nibbles]⟩
  · split at h <;> cases h
    exact ⟨rfl, rfl, by simp [encode, h14, nibbles]⟩
  · split at h <;> cases h
    exact ⟨(literalNibble_iff l).mpr ⟨h13, h14, hl⟩, rfl, by simp [encode]⟩

theorem decodeTlvHeader_spells (h : decodeTlvHeader bs = .ok (i, rest)) : Spells .tlvHeader bs i rest := by
  obtain _ | ⟨b, bs⟩ := bs
  · cases h
  unfold decodeTlvHeader at h
  dsimp only at h
  obtain ⟨d, l, rfl⟩ : ∃ d l, nibbles d l = b := ⟨_, _, nibbles_hi_lo b⟩
  rw [hiNibble_nibbles, loNibble_nibbles] at h
  split_ifs at h with hm h15 h13 h14
  all_goals obtain ⟨hd, hl⟩ := not_or.mp h15
  · subst h13
    exact decodeDext1_spells hl h
  · subst h14
    exact decodeDext2_spells hl h
  · exact decodeDlit_spells ((literalNibble_iff d).mpr ⟨h13, h14, hd⟩) hl h

end

/-- Settles O55: each format's decoder gives a word that spells the bytes it was read from. -/
theorem encodeInvertsDecode : Obligations.EncodeInvertsDecode := by
  intro f bs rest i h
  change Spells f bs i rest
  unfold decode at h
  split at h
  next o _ => cases h; exact decodeOpcode_spells o rest
  next b _ => cases h; exact ⟨rfl, rfl, by rw [encode, hdrByte_fields]; rfl⟩
  next => cases h; exact ⟨rfl, rfl, rfl⟩
  next => cases h; exact ⟨rfl, rfl, by simp [encode]⟩
  next => cases h
  next b _ => cases h; exact decodeItem_spells b rest
  next => exact decodeTlvHeader_spells h
  next => cases h

/-- Settles O56: the decoder evaluated on the spec's words. -/
theorem wordsDecode : Obligations.WordsDecode := by
  unfold Obligations.WordsDecode
  and_intros <;> rfl

end Sys2Proof.Machine
end

section
/-! PROOFS. The bound on the running option number (30_encoding.md R112), the wire items that end at once or read their extension bytes
from `BUF` (R101, R104), and the tests of `Prefix()` in the walking commands (R100). -/

namespace Sys2Proof.Machine

/-! ### The running option number (R112) -/

/-- The larger the delta of an entry, the more bytes its header takes (R97). -/
theorem deltaAt_cases {s : State} {pos : Nat} (h : AtItem s pos) :
    (pos + 1 ≤ valueStart s pos ∧ deltaAt s pos ≤ 12) ∨ (pos + 2 ≤ valueStart s pos ∧ deltaAt s pos ≤ 268) ∨
      (pos + 3 ≤ valueStart s pos ∧ deltaAt s pos ≤ 65804) := by
  obtain ⟨-, hd, -, -⟩ := h
  have hstart : pos + 1 + extCount (hiNibble (s.bufByte pos)) ≤ valueStart s pos := Nat.le_add_right ..
  rcases resolved_le s hd (pos + 1) with ⟨hext, hdelta⟩ | ⟨hext, hdelta⟩ | ⟨hext, hdelta⟩ <;> rw [hext] at hstart
  · exact .inl ⟨hstart, hdelta⟩
  · exact .inr (.inl ⟨hstart, hdelta⟩)
  · exact .inr (.inr ⟨hstart, hdelta⟩)

/-- The running number is at most that of `a` literal deltas, `b` of one extension byte and `c` of two, whose header and extension
bytes fit in the chain. -/
theorem ChainTo.number_le {s : State} {p0 n e num : Nat} (h : ChainTo s p0 n e num) :
    ∃ a b c, num ≤ 12 * a + 268 * b + 65804 * c ∧ p0 + a + 2 * b + 3 * c ≤ e := by
  induction h with
  | start => exact ⟨0, 0, 0, by omega, by omega⟩
  | @item cnt pos num _ hitem ih =>
    obtain ⟨a, b, c, hnum, hbytes⟩ := ih
    rcases deltaAt_cases hitem with ⟨hstart, hdelta⟩ | ⟨hstart, hdelta⟩ | ⟨hstart, hdelta⟩
    · exact ⟨a + 1, b, c, by omega, by omega⟩
    · exact ⟨a, b + 1, c, by omega, by omega⟩
    · exact ⟨a, b, c + 1, by omega, by omega⟩

/-- Settles O19: of the 1456 bytes of a chain at most 485 deltas can take three, and then one byte is left. -/
theorem runningNumberIsBounded : Obligations.RunningNumberIsBounded := by
  intro s p0 n e num hprefix hchain
  obtain ⟨hlen, -, hp0, hstart⟩ := hprefix
  obtain ⟨-, hend⟩ := hchain.bounds hstart
  obtain ⟨a, b, c, hnum, hbytes⟩ := hchain.number_le
  have hle : num ≤ 31914952 := by
    obtain hc | hc : c = 485 ∨ c ≤ 484 := by omega
    · have hb : b = 0 := by omega
      omega
    · omega
  exact ⟨hle, by omega⟩

/-! ### Wire items (R101, R104) -/

/-- Inside a message of at most 1460 bytes an item ends with its own outcome. -/
theorem atItem_inside {s : State} (hlen : s.len.toNat ≤ 1460) (hcur : s.cursor.toNat < s.len.toNat)
    (o : Except Err TlvItem) : atItem o s = .next (finishItem o s) := by
  have := maxBuf_eq
  unfold atItem
  rw [if_neg (by omega), if_neg (by omega), if_neg (by omega)]

/-- Settles O58: the first three rows end with their error; a header byte resolves its nibbles from `BUF`. -/
theorem itemHeadsEnd : Obligations.ItemHeadsEnd := by
  intro s d l hlen hcur
  refine ⟨atItem_inside hlen hcur _, atItem_inside hlen hcur _, atItem_inside hlen hcur _, ?_⟩
  rintro v n hd hl rfl rfl hfits
  have hbody := tlvBody_eq s d l (s.cursor.toNat + 1) hcur
  rw [if_neg (by simp only [hd, hl, false_or, Nat.not_lt]; exact hfits)] at hbody
  rw [exec, execWireTlv, atItem_inside hlen hcur, hbody]
  rfl

/-! ### `Prefix()` in the walking commands (R100) -/

/-- Settles O17: every walking command starts with `Prefix()`, in the walk or in the fetch by index. -/
theorem prefixErrorsEndEveryWalk : Obligations.PrefixErrorsEndEveryWalk := by
  intro s e h
  have hwalk := walk_prefixFails h
  have hopt := optAt_prefixFails h s.arg0.toNat
  refine ⟨?_, ?_, ?_, ?_, fun harg => ?_⟩
  · simp only [exec, execCntOpt, countResults, hwalk]; rfl
  · simp only [exec, execGetOpt, optResults, hopt]; rfl
  · simp only [exec, execAddOpt, optionToAdd, hwalk]; rfl
  · simp only [exec, execGetPayload, payloadResults, hwalk]; rfl
  · simp only [exec, execSetPayload, payloadToSet, if_neg harg, hwalk]; rfl

end Sys2Proof.Machine
end

section
/-! PROOFS. The header codec (40_header_codec.md R130 to R147): the length check before a field is read, the field read or written,
what `BUILD_HDR` shares with the five encoders, and the header rows of the wire format (log 11). -/

namespace Sys2Proof.Machine

/-! ### Reading a field -/

/-- The commands that decode one header field. -/
abbrev headerDecoders : List Instr := [.getCode, .getVer, .getType, .getTkl, .getMid]

theorem headerDecode_of_error {s : State} {e : Err} (h : hdrCheck s = .error e) (o : Except Err Results) :
    headerDecode o s = raise e s := by simp only [headerDecode, h]

theorem headerDecode_of_ok {s : State} (h : hdrCheck s = .ok ()) (o : Except Err Results) :
    headerDecode o s = finish o s := by simp only [headerDecode, h]

/-- A message too long for the buffer ends every header decoder, before any byte is read (R133). -/
theorem exec_headerDecoder_long {s : State} {i : Instr} (hi : i ∈ headerDecoders) (h : 1460 < s.len.toNat) :
    exec i s = .next (raise .insufficientBuffer s) := by
  have hcheck := hdrCheck_long h
  simp only [List.mem_cons, List.not_mem_nil, or_false] at hi
  obtain rfl | rfl | rfl | rfl | rfl := hi
  · simp only [exec, execGetCode, decodeCodeByte, hcheck]
  all_goals exact congrArg _ (headerDecode_of_error hcheck _)

theorem versionOf_of_eq {b : Byte} (h : verField b = 1) : versionOf b = .ok ⟨1, 0, 0⟩ := by
  rw [versionOf, if_pos ((toNat_eq_version_iff _).mpr h), h]
  rfl

theorem versionOf_of_ne {b : Byte} (h : verField b ≠ 1) : versionOf b = .error .invalidVersion :=
  if_neg (mt (toNat_eq_version_iff _).mp h)

theorem tokenLengthOf_of_gt {b : Byte} (h : 8 < (tklField b).toNat) : tokenLengthOf b = .error .invalidTokenLength :=
  if_pos h

theorem tokenLengthOf_of_le {b : Byte} (h : (tklField b).toNat ≤ 8) :
    tokenLengthOf b = .ok ⟨(tklField b).zeroExtend 32, 0, 0⟩ := if_neg (Nat.not_lt.mpr h)

/-- The code byte stands in `RES0` whether it is known or not (R134). -/
theorem decodeCodeByte_of_ok {s : State} (h : hdrCheck s = .ok ()) (c : Byte) :
    decodeCodeByte c s =
      { s with
        status := ⟨if Config.codeSet c then none else some .unknownCode, true, false⟩
        res := ⟨c.zeroExtend 32, 0, 0⟩ } := by
  simp only [decodeCodeByte, h]
  split <;> rfl

theorem decodeCodeByte_of_known {s : State} (h : hdrCheck s = .ok ()) {c : Byte} (hc : Config.codeSet c = true) :
    decodeCodeByte c s = complete ⟨c.zeroExtend 32, 0, 0⟩ s := by
  simp only [decodeCodeByte, h, if_pos hc]

/-- `GET_MID` reads the two bytes as one big-endian quantity (R60, R135). -/
theorem exec_getMid (s : State) :
    exec .getMid s = .next (headerDecode (.ok ⟨(halfOf (s.bufByte 2) (s.bufByte 3)).zeroExtend 32, 0, 0⟩) s) := by
  rw [exec, execGetMid, memRead_two, toWord, ← halfOf_toNat, BitVec.ofNat_toNat]

theorem exec_getVer_of_ok {s : State} (h : hdrCheck s = .ok ()) :
    exec .getVer s = .next (finish (versionOf (s.bufByte 0)) s) := congrArg _ (headerDecode_of_ok h _)

theorem exec_getType_of_ok {s : State} (h : hdrCheck s = .ok ()) :
    exec .getType s = .next (finish (typeOf (s.bufByte 0)) s) := congrArg _ (headerDecode_of_ok h _)

theorem exec_getTkl_of_ok {s : State} (h : hdrCheck s = .ok ()) :
    exec .getTkl s = .next (finish (tokenLengthOf (s.bufByte 0)) s) := congrArg _ (headerDecode_of_ok h _)

theorem exec_getCode_of_known {s : State} (h : hdrCheck s = .ok ()) (hc : Config.codeSet (s.bufByte 1) = true) :
    exec .getCode s = .next (complete ⟨(s.bufByte 1).zeroExtend 32, 0, 0⟩ s) := congrArg _ (decodeCodeByte_of_known h hc)

/-- Settles O1: past the length check the version field alone decides. -/
theorem getVerReadsVersion : Obligations.GetVerReadsVersion := by
  refine ⟨rfl, fun s => ⟨exec_headerDecoder_long (by simp), exec_short (by simp), fun hlo hhi => ?_⟩⟩
  rw [exec_getVer_of_ok (hdrCheck_ok hlo hhi)]
  exact ⟨fun hne => by rw [versionOf_of_ne hne]; rfl, fun heq => by rw [versionOf_of_eq heq]; rfl⟩

/-- Settles O2: a type that is two bits wide has no invalid value. -/
theorem getTypeReadsType : Obligations.GetTypeReadsType :=
  ⟨rfl, fun _ => ⟨exec_headerDecoder_long (by simp), exec_short (by simp),
    fun hlo hhi => exec_getType_of_ok (hdrCheck_ok hlo hhi)⟩⟩

/-- Settles O3: past the length check the token length field alone decides. -/
theorem getTklReadsTokenLength : Obligations.GetTklReadsTokenLength := by
  refine ⟨rfl, fun s => ⟨exec_headerDecoder_long (by simp), exec_short (by simp), fun hlo hhi => ?_⟩⟩
  rw [exec_getTkl_of_ok (hdrCheck_ok hlo hhi)]
  exact ⟨fun hgt => by rw [tokenLengthOf_of_gt hgt]; rfl, fun hle => by rw [tokenLengthOf_of_le hle]; rfl⟩

/-- Settles O4: membership in `CODE_SET` decides `ERR` and not `RES0`. -/
theorem getCodeReadsCode : Obligations.GetCodeReadsCode :=
  ⟨rfl, fun _ => ⟨exec_headerDecoder_long (by simp), exec_short (by simp),
    fun hlo hhi => congrArg _ (decodeCodeByte_of_ok (hdrCheck_ok hlo hhi) _)⟩⟩

/-- Settles O5: past the length check nothing can fail. -/
theorem getMidReadsMessageId : Obligations.GetMidReadsMessageId := by
  refine ⟨rfl, fun s => ⟨exec_headerDecoder_long (by simp), exec_short (by simp), fun hlo hhi => ?_⟩⟩
  rw [exec, execGetMid, memRead_two, headerDecode_of_ok (hdrCheck_ok hlo hhi)]
  rfl

/-! ### Writing a field -/

/-- Settles O6: byte 0 is put together from the new version and its own two other fields. -/
theorem setVerWritesVersion : Obligations.SetVerWritesVersion := by
  refine ⟨rfl, fun s => ⟨fun hne => if_pos hne, fun heq => ?_⟩⟩
  obtain ⟨hstate, hbyte, hframe⟩ := complete_writeBuf ⟨Config.commitVer, 0, 0⟩
    (hdrByte 1 (typeField (s.bufByte 0)) (tklField (s.bufByte 0))) s (show 0 < Config.maxBuf by decide)
  exact ⟨_, if_neg (not_not_intro heq), hstate, commitVer_cases, hbyte.trans (hdrByte_version _), hframe⟩

/-- Settles O7: byte 0 is put together from the new type and its own two other fields. -/
theorem setTypeWritesType : Obligations.SetTypeWritesType := by
  refine ⟨rfl, fun s => ⟨fun hgt => if_pos hgt, fun hle => ?_⟩⟩
  obtain ⟨hstate, hbyte, hframe⟩ := complete_writeBuf ⟨Config.commitType, 0, 0⟩
    (hdrByte (verField (s.bufByte 0)) (s.arg0.extractLsb' 0 2) (tklField (s.bufByte 0))) s (show 0 < Config.maxBuf by decide)
  exact ⟨_, if_neg (Nat.not_lt.mpr hle), hstate, commitType_cases, hbyte, hframe⟩

/-- Settles O8: byte 0 is put together from the new token length and its own two other fields. -/
theorem setTklWritesTokenLength : Obligations.SetTklWritesTokenLength := by
  refine ⟨rfl, fun s => ⟨fun hgt => if_pos hgt, fun hle => ?_⟩⟩
  obtain ⟨hstate, hbyte, hframe⟩ := complete_writeBuf ⟨Config.commitTkl, 0, 0⟩
    (hdrByte (verField (s.bufByte 0)) (typeField (s.bufByte 0)) (s.arg0.extractLsb' 0 4)) s (show 0 < Config.maxBuf by decide)
  exact ⟨_, if_neg (Nat.not_lt.mpr hle), hstate, commitTkl_cases, hbyte.trans (hdrByte_tkl _ _), hframe⟩

/-- Settles O9: one test, `isCode`, and one byte written whole. -/
theorem setCodeWritesCode : Obligations.SetCodeWritesCode := by
  refine ⟨rfl, fun s => ⟨fun hbad => ?_, fun hle hcode => ?_⟩⟩
  · exact if_neg (by rw [isCode_false hbad]; exact Bool.false_ne_true)
  · obtain ⟨hstate, hbyte, hframe⟩ := complete_writeBuf ⟨2, 0, 0⟩ (s.arg0.extractLsb' 0 8) s
      (show 1 < Config.maxBuf by decide)
    exact ⟨_, if_pos ((isCode_true _).mpr ⟨hle, hcode⟩), hstate, hbyte, hframe⟩

/-- Settles O10: the big-endian bytes of the low half of `ARG0`. -/
theorem setMidWritesMessageId : Obligations.SetMidWritesMessageId := by
  refine ⟨rfl, fun s => ?_⟩
  have hexec : exec .setMid s =
      .next (complete ⟨4, 0, 0⟩ (writeBufBytes 2 [s.arg0.extractLsb' 8 8, s.arg0.extractLsb' 0 8] s)) := by
    rw [exec, execSetMid, memWrite, beBytes_midOperand]
  obtain ⟨hstate, hbytes, hframe⟩ := complete_writeBufBytes ⟨4, 0, 0⟩
    [s.arg0.extractLsb' 8 8, s.arg0.extractLsb' 0 8] s 2 (by decide : 4 ≤ Config.maxBuf)
  exact ⟨_, hexec, hstate, (Option.some.inj (hbytes 0 (by simp))).symm, (Option.some.inj (hbytes 1 (by simp))).symm,
    fun a h2 h3 => hframe a (by simp only [List.length_cons, List.length_nil]; omega)⟩

/-! ### The whole header -/

/-- Settles O11: four tests, the first failing one decides. -/
theorem buildHdrWritesHeader : Obligations.BuildHdrWritesHeader := by
  intro s
  refine ⟨fun hver => if_pos hver, fun hver htype => (if_neg (not_not_intro hver)).trans (if_pos htype),
    fun hver htype htkl => (if_neg (not_not_intro hver)).trans ((if_neg (Nat.not_lt.mpr htype)).trans (if_pos htkl)),
    fun hver htype htkl => ?_⟩
  have hchecked : exec .buildHdr s = _ :=
    (if_neg (not_not_intro hver)).trans ((if_neg (Nat.not_lt.mpr htype)).trans (if_neg (Nat.not_lt.mpr htkl)))
  rw [hchecked]
  refine ⟨fun hbad => if_pos (by rw [isCode_false hbad]; rfl), fun hle hcode => ?_⟩
  rw [if_neg (by rw [(isCode_true _).mpr ⟨hle, hcode⟩]; exact Bool.false_ne_true)]
  obtain ⟨hstate, hbytes, hframe⟩ := complete_writeBufBytes ⟨4, 0, 0⟩ (headerBytes 1 (s.arg1.extractLsb' 0 2)
    (s.arg2.extractLsb' 0 4) (s.arg3.extractLsb' 0 8) (midOperand s.arg4)) s 0 (by decide : 4 ≤ Config.maxBuf)
  exact ⟨_, rfl, hstate, (Option.some.inj (hbytes 0 (by decide : 0 < 4))).symm,
    (Option.some.inj (hbytes 1 (by decide : 1 < 4))).symm,
    (Option.some.inj (hbytes 2 (by decide : 2 < 4))).symm.trans (hiByte_midOperand _),
    (Option.some.inj (hbytes 3 (by decide : 3 < 4))).symm.trans (loByte_midOperand _), fun a ha => hframe a (.inr ha)⟩

/-- Settles O12: the three read-modify-writes of byte 0 replace all its fields, and bytes 1 to 3 are written whole. -/
theorem buildHdrEqualsFiveEncoders : Obligations.BuildHdrEqualsFiveEncoders := by
  intro s hver htype htkl hle hcode
  obtain ⟨-, -, -, hbuild⟩ := buildHdrWritesHeader s
  obtain ⟨t, hexec, hstate, hb0, hb1, hb2, hb3, hframe⟩ := (hbuild hver htype htkl).2 hle hcode
  obtain ⟨t1, hexec1, hstate1, -, hbyte1, hframe1⟩ := (setVerWritesVersion.2 s).2 hver
  obtain ⟨t2, hexec2, hstate2, -, hbyte2, hframe2⟩ := (setTypeWritesType.2 { t1 with arg0 := s.arg1 }).2 htype
  obtain ⟨t3, hexec3, hstate3, -, hbyte3, hframe3⟩ := (setTklWritesTokenLength.2 { t2 with arg0 := s.arg2 }).2 htkl
  obtain ⟨t4, hexec4, hstate4, hbyte4, hframe4⟩ := (setCodeWritesCode.2 { t3 with arg0 := s.arg3 }).2 hle hcode
  obtain ⟨t5, hexec5, hstate5, hmid2, hmid3, hframe5⟩ := setMidWritesMessageId.2 { t4 with arg0 := s.arg4 }
  refine ⟨t, t1, t2, t3, t4, t5, hexec, hexec1, hexec2, hexec3, hexec4, hexec5, ?_, fun a => ?_⟩
  · rw [hstate, hstate1, hstate2, hstate3, hstate4, hstate5]
    exact ⟨rfl, rfl, rfl, rfl, rfl, rfl⟩
  have hver1 : t1.bufByte 0 = hdrByte 1 (typeField (s.bufByte 0)) (tklField (s.bufByte 0)) :=
    hbyte1.trans (hdrByte_version _).symm
  have htype2 : t2.bufByte 0 = hdrByte 1 (s.arg1.extractLsb' 0 2) (tklField (s.bufByte 0)) := by
    calc t2.bufByte 0 = hdrByte (verField (t1.bufByte 0)) (s.arg1.extractLsb' 0 2) (tklField (t1.bufByte 0)) := hbyte2
      _ = _ := by rw [hver1, verField_hdrByte, tklField_hdrByte]
  have htkl3 : t3.bufByte 0 = hdrByte 1 (s.arg1.extractLsb' 0 2) (s.arg2.extractLsb' 0 4) := by
    calc t3.bufByte 0 = hdrByte (verField (t2.bufByte 0)) (typeField (t2.bufByte 0)) (s.arg2.extractLsb' 0 4) :=
        hbyte3.trans (hdrByte_tkl _ _).symm
      _ = _ := by rw [htype2, verField_hdrByte, typeField_hdrByte]
  obtain rfl | rfl | rfl | rfl | ha : a = 0 ∨ a = 1 ∨ a = 2 ∨ a = 3 ∨ 4 ≤ a := by omega
  · calc t5.bufByte 0 = t4.bufByte 0 := hframe5 0 (by decide) (by decide)
      _ = t3.bufByte 0 := hframe4 0 (by decide)
      _ = t.bufByte 0 := htkl3.trans hb0.symm
  · calc t5.bufByte 1 = t4.bufByte 1 := hframe5 1 (by decide) (by decide)
      _ = t.bufByte 1 := hbyte4.trans hb1.symm
  · exact hmid2.trans hb2.symm
  · exact hmid3.trans hb3.symm
  · calc t5.bufByte a = t4.bufByte a := hframe5 a (by omega) (by omega)
      _ = t3.bufByte a := hframe4 a (by omega)
      _ = t2.bufByte a := hframe3 a (by omega)
      _ = t1.bufByte a := hframe2 a (by omega)
      _ = s.bufByte a := hframe1 a (by omega)
      _ = t.bufByte a := (hframe a ha).symm

/-- An operand that fits its field comes back from it whole. -/
theorem zeroExtend_extractLsb' {w : Word} {k : Nat} (h : w.toNat < 2 ^ k) : (w.extractLsb' 0 k).zeroExtend 32 = w := by
  apply BitVec.eq_of_toNat_eq
  rw [BitVec.toNat_setWidth, BitVec.extractLsb'_toNat, Nat.shiftRight_zero, Nat.mod_eq_of_lt h, Nat.mod_eq_of_lt w.isLt]

/-- Where the bytes of a header with its fields in range stand, the five decoders return the fields (R130 to R135). -/
theorem header_reads {s : State} {type : BitVec 2} {tkl : Nibble} {mid : Half} (hcheck : hdrCheck s = .ok ())
    (hbyte0 : s.bufByte 0 = hdrByte 1 type tkl) (htkl : tkl.toNat ≤ 8) (hcode : Config.codeSet (s.bufByte 1) = true)
    (hmid : halfOf (s.bufByte 2) (s.bufByte 3) = mid) :
    exec .getVer s = .next (s.doneWith 1 0 0) ∧ exec .getType s = .next (s.doneWith (type.zeroExtend 32) 0 0) ∧
      exec .getTkl s = .next (s.doneWith (tkl.zeroExtend 32) 0 0) ∧
      exec .getCode s = .next (s.doneWith ((s.bufByte 1).zeroExtend 32) 0 0) ∧
      exec .getMid s = .next (s.doneWith (mid.zeroExtend 32) 0 0) := by
  refine ⟨?_, ?_, ?_, exec_getCode_of_known hcheck hcode, ?_⟩
  · rw [exec_getVer_of_ok hcheck, versionOf_of_eq (by rw [hbyte0, verField_hdrByte])]
    rfl
  · rw [exec_getType_of_ok hcheck, typeOf, hbyte0, typeField_hdrByte]
    rfl
  · rw [exec_getTkl_of_ok hcheck, hbyte0, tokenLengthOf_of_le (by rwa [tklField_hdrByte]), tklField_hdrByte]
    rfl
  · rw [exec_getMid, headerDecode_of_ok hcheck, hmid]
    rfl

/-- Settles O13: the header stands where the decoders look, and each operand fits its field. -/
theorem headerRoundTrip : Obligations.HeaderRoundTrip := by
  intro s n hver htype htkl hle hcode hlo hhi
  obtain ⟨-, -, -, hbuild⟩ := buildHdrWritesHeader s
  obtain ⟨t, hexec, -, hb0, hb1, hb2, hb3, -⟩ := (hbuild hver htype htkl).2 hle hcode
  have hmid : halfOf (t.bufByte 2) (t.bufByte 3) = midOperand s.arg4 := by
    rw [hb2, hb3, ← hiByte_midOperand, ← loByte_midOperand, halfOf_hi_lo]
  have hfits : (s.arg2.extractLsb' 0 4).toNat ≤ 8 := by
    rw [BitVec.extractLsb'_toNat]
    exact (Nat.mod_le _ _).trans htkl
  obtain ⟨hgetVer, hgetType, hgetTkl, hgetCode, hgetMid⟩ := header_reads (s := { t with len := n })
    (hdrCheck_ok hlo hhi) hb0 hfits (hb1 ▸ hcode) hmid
  have hversion : s.arg0 = 1 := BitVec.eq_of_toNat_eq hver
  have hcodeByte : (t.bufByte 1).zeroExtend 32 = s.arg3 := by rw [hb1, zeroExtend_extractLsb' (by omega)]
  rw [zeroExtend_extractLsb' (by omega)] at hgetType hgetTkl
  exact ⟨t, hexec, hversion ▸ hgetVer, hgetType, hgetTkl, hcodeByte ▸ hgetCode, hgetMid⟩

/-! ### The header rows of the wire format (log 11) -/

/-- Header byte 0 is one header decode: the version, then the token length. -/
theorem exec_wireHdrByte0 (v t : BitVec 2) (k : Nibble) (s : State) :
    exec (.wireHdrByte0 v t k) s = .next (headerDecode
      (if v = 1 then tokenLengthOf (hdrByte v t k) else .error .invalidVersion) s) := by
  rw [exec]
  cases hcheck : hdrCheck s with
  | error e => rw [execWireHdrByte0_short v t k hcheck, headerDecode_of_error hcheck]
  | ok _ =>
    rw [execWireHdrByte0_eq v t k hcheck, headerDecode_of_ok hcheck]
    split <;> rfl

/-- Settles O60: a row decodes the fields it carries as the command decodes the same bytes in `BUF`. -/
theorem headerItemsAreTheirCommands : Obligations.HeaderItemsAreTheirCommands := by
  intro s
  refine ⟨rfl, ?_, fun hver => ?_, fun hver => ?_, fun t k c m hlo hhi => ?_⟩
  · rw [exec_getMid, exec, execWireHdrMid]
  · rw [exec_wireHdrByte0, if_pos hver, hdrByte_fields, exec, execGetTkl]
  · rw [exec_wireHdrByte0, if_neg hver, exec, execGetVer, versionOf_of_ne hver]
  · have hcheck := hdrCheck_ok hlo hhi
    refine ⟨fun hk => ?_, fun hc => ?_, congrArg _ (headerDecode_of_ok hcheck _)⟩
    · rw [exec_wireHdrByte0, if_pos rfl, headerDecode_of_ok hcheck,
        tokenLengthOf_of_le (by rwa [tklField_hdrByte]), tklField_hdrByte]
      rfl
    · exact congrArg _ (decodeCodeByte_of_known hcheck hc)

end Sys2Proof.Machine
end

section
/-! PROOFS. The item at `CURSOR`: every row of the table of `DEC_OPT` (41_option_decoder.md R160, R163, R165, R166), and the nine
classes of a TLV header as wire rows (43_option_encoder.md R207; log 10). -/

namespace Sys2Proof.Machine

/-! ### `DEC_OPT` (R166) -/

/-- `LEN` is tested before `CURSOR` is looked at. -/
theorem exec_decOpt_long {s : State} (h : 1460 < s.len.toNat) : exec .decOpt s = .next (raise .insufficientBuffer s) :=
  if_pos h

/-- On a message that the buffer can hold, `DEC_OPT` ends with what `Tlv` finds at `CURSOR`. -/
theorem exec_decOpt_of_tlv {s : State} {o : Except Err TlvItem} (hlen : s.len.toNat ≤ 1460)
    (h : tlv s s.cursor.toNat = o) : exec .decOpt s = .next (finishItem o s) := by
  subst h
  exact if_neg (Nat.not_lt.mpr hlen)

/-- Settles O14: after the test of `LEN`, a row for each thing that `Tlv` can find. -/
theorem decOptDecodesItemAtCursor : Obligations.DecOptDecodesItemAtCursor := by
  refine ⟨rfl, fun s => ⟨exec_decOpt_long, fun hlen => ⟨fun hpast => ?_, fun hend => ?_, fun hmarker => ?_,
    fun hmalformed => ?_, fun hitem => ?_⟩⟩⟩
  · exact exec_decOpt_of_tlv hlen (tlv_past_end s _ hpast)
  · exact exec_decOpt_of_tlv hlen (tlv_atEnd s _ hend)
  · exact exec_decOpt_of_tlv hlen (tlv_atMarker s _ hmarker)
  · exact exec_decOpt_of_tlv hlen (tlv_malformed s _ hmalformed)
  · have hnext : valueStart s s.cursor.toNat + lengthAt s s.cursor.toNat < 65536 := by
      obtain ⟨-, -, -, hfits⟩ := hitem
      omega
    exact ⟨_, exec_decOpt_of_tlv hlen (tlv_atItem s _ hitem), advanceItem_spec _ s hnext⟩

/-! ### The nine classes of a TLV header (R207) -/

/-- `i` is a whole TLV header of `size` bytes that resolves to delta `d` and length `l`: executing it is executing that item. -/
def RunsItem (i : Instr) (size d l : Nat) : Prop := ∀ s : State, exec i s = atItem (itemOf size d l s) s

/-- An item inside the message that ends by `LEN` is passed. -/
theorem RunsItem.advances {i : Instr} {size d l : Nat} {s : State} (h : RunsItem i size d l) (hlen : s.len.toNat ≤ 1460)
    (hcur : s.cursor.toNat < s.len.toNat) (hfits : s.cursor.toNat + size + l ≤ s.len.toNat) :
    exec i s = .next (advanceItem ⟨d, l, s.cursor.toNat + size, s.cursor.toNat + size + l⟩ s) := by
  have hitem : itemOf size d l s = .ok ⟨d, l, s.cursor.toNat + size, s.cursor.toNat + size + l⟩ :=
    if_neg (Nat.not_lt.mpr hfits)
  rw [h, atItem_inside hlen hcur, hitem, finishItem]

/-- An item inside the message that runs past `LEN` is truncated. -/
theorem RunsItem.truncated {i : Instr} {size d l : Nat} {s : State} (h : RunsItem i size d l) (hlen : s.len.toNat ≤ 1460)
    (hcur : s.cursor.toNat < s.len.toNat) (hpast : s.len.toNat < s.cursor.toNat + size + l) :
    exec i s = .next (raise .invalidPacket s) := by
  have hitem : itemOf size d l s = .error .invalidPacket := if_pos hpast
  rw [h, atItem_inside hlen hcur, hitem, finishItem]

/-- Settles O57: each class is its item, and the item either ends by `LEN` or is truncated. -/
theorem tlvClassesAdvance : Obligations.TlvClassesAdvance := by
  intro s i size d l hclass hlen hcur
  have hrun : RunsItem i size d l := by
    rcases hclass with ⟨a, b, rfl, rfl, rfl, rfl⟩ | ⟨a, b, rfl, rfl, rfl, rfl⟩ | ⟨a, b, rfl, rfl, rfl, rfl⟩ |
      ⟨a, b, rfl, rfl, rfl, rfl⟩ | ⟨a, b, rfl, rfl, rfl, rfl⟩ | ⟨a, b, rfl, rfl, rfl, rfl⟩ |
      ⟨a, b, rfl, rfl, rfl, rfl⟩ | ⟨a, b, rfl, rfl, rfl, rfl⟩ | ⟨a, b, rfl, rfl, rfl, rfl⟩ <;>
    exact fun _ => rfl
  exact ⟨hrun.advances hlen hcur, hrun.truncated hlen hcur⟩

end Sys2Proof.Machine
end

section
/-! PROOFS. The option enumerator (42_option_enumerator.md R180 to R186): every chain ends, `CNT_OPT` answers from the walk and
`GET_OPT` from the fetch by index, and the two agree. -/

namespace Sys2Proof.Machine

/-! ### The chain (R180) -/

/-- Settles O18: an entry takes at least one byte of those after the header, and no whole entry stands where a chain ends. -/
theorem everyChainEnds : Obligations.EveryChainEnds := by
  intro s p0 hprefix
  obtain ⟨-, -, hp0, hstart⟩ := hprefix
  constructor
  · obtain ⟨n, e, last, hchain, hstop⟩ := chain_ends hstart _ le_rfl .start
    obtain ⟨hbytes, hend⟩ := hchain.bounds hstart
    exact ⟨n, e, last, hchain, by omega, hend, hstop⟩
  · intro n e last n' e' last' hchain hchain' hstop hstop'
    obtain rfl : n = n' := Nat.le_antisymm (chain_le hchain hchain' hstop') (chain_le hchain' hchain hstop)
    exact ⟨rfl, hchain.unique hchain'⟩

/-- The running number does not go down along a chain (R113). -/
theorem ChainTo.number_mono {s : State} {p0 i k pos pos' num num' : Nat} (h : ChainTo s p0 i pos num)
    (h' : ChainTo s p0 k pos' num') (hik : i ≤ k) : num ≤ num' := by
  obtain rfl | hlt := Nat.eq_or_lt_of_le hik
  · exact (h.unique h').2.le
  · obtain ⟨_, _, hshort, -, hnum⟩ := h'.shorter i hlt
    obtain ⟨rfl, rfl⟩ := h.unique hshort
    omega

/-! ### `CNT_OPT` (R182) -/

theorem exec_cntOpt_of_ok {s : State} {w : WalkResult} (h : walk s = .ok w) :
    exec .cntOpt s = .next (complete ⟨toWord w.count, 0, 0⟩ s) := by
  simp only [exec, execCntOpt, countResults, h, finish]

theorem exec_cntOpt_of_error {s : State} {e : Err} (h : walk s = .error e) : exec .cntOpt s = .next (raise e s) := by
  simp only [exec, execCntOpt, countResults, h, finish]

/-- Settles O20: the walk answers by what stands where the chain ends. -/
theorem cntOptCountsTheChain : Obligations.CntOptCountsTheChain := by
  intro s p0 n e last hprefix hchain
  refine ⟨?_, fun hmalformed => exec_cntOpt_of_error (walk_malformed hprefix hchain hmalformed)⟩
  rintro (hend | hmarker)
  · exact exec_cntOpt_of_ok (walk_atEnd hprefix hchain hend)
  · exact exec_cntOpt_of_ok (walk_atMarker hprefix hchain hmarker)

theorem toNat_toWord {n : Nat} (h : n < 2 ^ 32) : (toWord n).toNat = n := Nat.mod_eq_of_lt h

/-- `CNT_OPT` succeeds only with the length of a chain that reaches the end or the marker. -/
theorem chain_of_cntOpt_success {s t : State} (h : exec .cntOpt s = .next t) (herr : t.status.err = none) :
    ∃ p0 e last, HasPrefix s p0 ∧ ChainTo s p0 t.res.r0.toNat e last ∧ (AtEnd s e ∨ AtMarker s e) := by
  cases hwalk : walk s with
  | error e =>
    rw [exec_cntOpt_of_error hwalk] at h
    cases h
    cases herr
  | ok w =>
    rw [exec_cntOpt_of_ok hwalk] at h
    cases h
    obtain ⟨p0, hprefix, hchain, hstop⟩ := walk_ok hwalk
    have ⟨hlen, _, _, hstart⟩ := hprefix
    obtain ⟨hbytes, hend⟩ := hchain.bounds hstart
    have hcount : (toWord w.count).toNat = w.count := toNat_toWord (by omega)
    exact ⟨p0, w.endPos, w.lastNum, hprefix, by rwa [complete_res, hcount], hstop.imp And.right And.right⟩

/-! ### `GET_OPT` (R184) -/

theorem exec_getOpt_of_ok {s : State} {v : OptView} (h : optAt s s.arg0.toNat = .ok v) :
    exec .getOpt s = .next (complete ⟨toWord v.number, toWord v.valOff, toWord v.length⟩ s) := by
  simp only [exec, execGetOpt, optResults, h, finish]

theorem exec_getOpt_of_error {s : State} {e : Err} (h : optAt s s.arg0.toNat = .error e) :
    exec .getOpt s = .next (raise e s) := by
  simp only [exec, execGetOpt, optResults, h, finish]

/-- Settles O21: the fetch passes the chain and answers by what stands at its end. -/
theorem getOptFetchesByIndex : Obligations.GetOptFetchesByIndex := by
  intro s p0 c e num hprefix hchain
  refine ⟨?_, fun hc => ⟨fun hend => ?_, fun hmarker => ?_, fun hmalformed => ?_⟩⟩
  · rintro rfl hitem
    exact exec_getOpt_of_ok (optAt_atItem hprefix hchain hitem)
  · exact exec_getOpt_of_error (optAt_error hprefix hchain hc (tlv_atEnd s e hend))
  · exact exec_getOpt_of_error (optAt_error hprefix hchain hc (tlv_atMarker s e hmarker))
  · exact exec_getOpt_of_error (optAt_error hprefix hchain hc (tlv_malformed s e hmalformed))

/-! ### Count and index (R186) -/

/-- An index inside a chain is answered with the running number of the chain up to and including that entry. -/
theorem exec_getOpt_inside {s : State} {p0 n e last : Nat} (hprefix : HasPrefix s p0) (hchain : ChainTo s p0 n e last)
    {i : Word} (hi : i.toNat < n) :
    ∃ u pos, exec .getOpt { s with arg0 := i } = .next u ∧ u.status.err = none ∧
      ChainTo s p0 (i.toNat + 1) pos u.res.r0.toNat := by
  obtain ⟨pos, v, hopt, hnumber⟩ := optAt_number (hprefix.arg0 i) (hchain.arg0 i) hi
  replace hnumber : ChainTo s p0 (i.toNat + 1) pos v.number := hnumber.arg0 s.arg0
  obtain ⟨-, hbound⟩ := runningNumberIsBounded s p0 _ pos _ hprefix hnumber
  have hword : (toWord v.number).toNat = v.number := toNat_toWord (by omega)
  exact ⟨_, pos, exec_getOpt_of_ok hopt, rfl, by rwa [complete_res, hword]⟩

/-- An index past a chain that reaches the end or the marker is answered with that terminator's error. -/
theorem exec_getOpt_past {s : State} {p0 n e last : Nat} (hprefix : HasPrefix s p0) (hchain : ChainTo s p0 n e last)
    (hstop : AtEnd s e ∨ AtMarker s e) {i : Word} (hi : n ≤ i.toNat) :
    ∃ u, exec .getOpt { s with arg0 := i } = .next u ∧
      (u.status.err = some .endOfPacket ∨ u.status.err = some .foundPayloadMarker) := by
  obtain ⟨-, hfails⟩ := getOptFetchesByIndex _ p0 n e last (hprefix.arg0 i) (hchain.arg0 i)
  obtain ⟨hend, hmarker, -⟩ := hfails hi
  obtain h | h := hstop
  · exact ⟨_, hend h, .inl rfl⟩
  · exact ⟨_, hmarker h, .inr rfl⟩

/-- Settles O22: the count is the length of the chain, and an index is answered inside it and refused past it. -/
theorem countAndIndexAgree : Obligations.CountAndIndexAgree := by
  refine fun s => ⟨fun t i hcount herr => ?_, fun p0 j e num i k hprefix hchain hik hkj => ?_⟩
  · obtain ⟨p0, e, last, hprefix, hchain, hstop⟩ := chain_of_cntOpt_success hcount herr
    obtain hi | hi := Nat.lt_or_ge i.toNat t.res.r0.toNat
    · obtain ⟨u, -, hexec, hok, -⟩ := exec_getOpt_inside hprefix hchain hi
      exact ⟨u, hexec, fun _ => hok, fun hge => absurd hi hge.not_gt⟩
    · obtain ⟨u, hexec, hfails⟩ := exec_getOpt_past hprefix hchain hstop hi
      exact ⟨u, hexec, fun hlt => absurd hlt hi.not_gt, fun _ => hfails⟩
  · obtain ⟨u, _, hexecI, hokI, hchainI⟩ := exec_getOpt_inside hprefix hchain (i := i) (by omega)
    obtain ⟨v, _, hexecK, hokK, hchainK⟩ := exec_getOpt_inside hprefix hchain hkj
    exact ⟨u, v, hexecI, hexecK, hokI, hokK, hchainI.number_mono hchainK (by omega)⟩

end Sys2Proof.Machine
end

section
/-! PROOFS. The option TLV encoder (43_option_encoder.md R200 to R213): the header bytes of the nine classes, `OPT_HLEN` and
`OPT_HBLD` after the option check, and `ADD_OPT`, whose entry `CNT_OPT` counts and `GET_OPT` reads back. -/

namespace Sys2Proof.Machine

/-! ### Header bytes (R207) -/

theorem nibbles_ofNat {d l : Nat} (hd : d ≤ 15) (hl : l ≤ 15) :
    nibbles (BitVec.ofNat 4 d) (BitVec.ofNat 4 l) = BitVec.ofNat 8 (d * 16 + l) := by
  have hall : ∀ d ≤ 15, ∀ l ≤ 15,
      nibbles (BitVec.ofNat 4 d) (BitVec.ofNat 4 l) = BitVec.ofNat 8 (d * 16 + l) := by decide
  exact hall d hd l hl

/-- A value up to 12 is its own nibble. -/
theorem encoding_literal {v : Nat} (h : v ≤ 12) : nibbleOf v = BitVec.ofNat 4 v ∧ extBytes v = [] :=
  ⟨if_pos h, if_pos h⟩

/-- A value from 13 to 268 takes one extension byte. -/
theorem encoding_ext1 {v : Nat} (hlo : 13 ≤ v) (hhi : v ≤ 268) :
    nibbleOf v = BitVec.ofNat 4 13 ∧ extBytes v = [BitVec.ofNat 8 (v - 13)] := by
  have hlit : ¬ v ≤ 12 := by omega
  rw [nibbleOf, extBytes, if_neg hlit, if_neg hlit, if_pos hhi, if_pos hhi]
  exact ⟨rfl, by simp [beBytes, Config.ext8Base]⟩

/-- A value from 269 on takes two extension bytes, the most significant first (R60). -/
theorem encoding_ext2 {v : Nat} (h : 269 ≤ v) :
    nibbleOf v = BitVec.ofNat 4 14 ∧
      extBytes v = [BitVec.ofNat 8 ((v - 269) / 256), BitVec.ofNat 8 ((v - 269) % 256)] := by
  have hlit : ¬ v ≤ 12 := by omega
  have hext1 : ¬ v ≤ 268 := by omega
  have hlow : BitVec.ofNat 8 ((v - 269) % 256) = BitVec.ofNat 8 (v - 269) :=
    BitVec.eq_of_toNat_eq (by simp only [BitVec.toNat_ofNat]; omega)
  rw [nibbleOf, extBytes, if_neg hlit, if_neg hlit, if_neg hext1, if_neg hext1, hlow]
  exact ⟨rfl, by simp [beBytes, Config.ext16Base]⟩

/-- The header of a delta and a length whose nibbles and extension bytes are known. -/
theorem optHeader_of_encodings {d l nd nl : Nat} {ed el : List Byte}
    (hd : nibbleOf d = BitVec.ofNat 4 nd ∧ extBytes d = ed) (hl : nibbleOf l = BitVec.ofNat 4 nl ∧ extBytes l = el)
    (hnd : nd ≤ 15) (hnl : nl ≤ 15) : optHeader d l = BitVec.ofNat 8 (nd * 16 + nl) :: (ed ++ el) := by
  rw [optHeader, hd.1, hd.2, hl.1, hl.2, nibbles_ofNat hnd hnl]

/-- Settles O24: each row of the table puts together the encoding of the delta and that of the length. -/
theorem headerBytesOfEveryClass : Obligations.HeaderBytesOfEveryClass := by
  intro d l _ _
  refine ⟨fun hd hl => ?_, fun hd hd' hl => ?_, fun hd hl => ?_, fun hd hl hl' => ?_, fun hd hd' hl hl' => ?_,
    fun hd hl hl' => ?_, fun hd hl => ?_, fun hd hd' hl => ?_, fun hd hl => ?_, ?_⟩
  · exact optHeader_of_encodings (encoding_literal hd) (encoding_literal hl) (by omega) (by omega)
  · exact optHeader_of_encodings (encoding_ext1 hd hd') (encoding_literal hl) (by omega) (by omega)
  · exact optHeader_of_encodings (encoding_ext2 hd) (encoding_literal hl) (by omega) (by omega)
  · exact optHeader_of_encodings (encoding_literal hd) (encoding_ext1 hl hl') (by omega) (by omega)
  · exact optHeader_of_encodings (encoding_ext1 hd hd') (encoding_ext1 hl hl') (by omega) (by omega)
  · exact optHeader_of_encodings (encoding_ext2 hd) (encoding_ext1 hl hl') (by omega) (by omega)
  · exact optHeader_of_encodings (encoding_literal hd) (encoding_ext2 hl) (by omega) (by omega)
  · exact optHeader_of_encodings (encoding_ext1 hd hd') (encoding_ext2 hl) (by omega) (by omega)
  · exact optHeader_of_encodings (encoding_ext2 hd) (encoding_ext2 hl) (by omega) (by omega)
  · refine ⟨_, _, rfl, ?_, ?_, ?_⟩
    · rw [hiNibble_nibbles]; exact nibbleOf_ne_15 d
    · rw [loNibble_nibbles]; exact nibbleOf_ne_15 l
    · exact fun hmarker => nibbleOf_ne_15 d ((nibbles_eq_marker_iff _ _).mp hmarker).1

/-! ### `OPT_HLEN` (R201) -/

/-- Settles O23: the option check answers with its error or the delta, and the header length is that of the delta. -/
theorem optHlenComputesHeaderLength : Obligations.OptHlenComputesHeaderLength := by
  refine ⟨rfl, fun s => ⟨fun e hcheck => ?_, fun henc => ?_⟩⟩
  · simp only [exec, execOptHlen, headerLenResults, optCheck_error hcheck]; rfl
  · simp only [exec, execOptHlen, headerLenResults, optCheck_ok henc, headerLen_eq]; rfl

/-! ### `OPT_HBLD` (R206) -/

theorem exec_optHbld_of_error {s : State} {e : Err} (h : headerToBuild s = .error e) :
    exec .optHbld s = .next (raise e s) := by
  simp only [exec, execOptHbld, h]

/-- After the option check, the header length comes before the room (R206). -/
theorem headerToBuild_of_canEncode {s : State} {d : Nat} (henc : CanEncode s.arg0.toNat s.arg1.toNat s.arg2.toNat)
    (hd : d = s.arg0.toNat - s.arg2.toNat) :
    headerToBuild s =
      if s.arg3.toNat ≠ headerLen d s.arg1.toNat then .error .invalidPacket
      else if 1460 < s.cursor.toNat + headerLen d s.arg1.toNat then .error .insufficientBuffer
      else .ok (optHeader d s.arg1.toNat) := by
  simp only [headerToBuild, optCheck_ok henc, ← hd, maxBuf_eq, gt_iff_lt]

/-- Settles O25: after the option check come the header length and the room, and then the header stands at `CURSOR`. -/
theorem optHbldWritesHeaderAtCursor : Obligations.OptHbldWritesHeaderAtCursor := by
  have hmax := maxBuf_eq
  refine ⟨rfl, fun s => ⟨fun e hcheck => ?_, fun d henc hd => ?_⟩⟩
  · exact exec_optHbld_of_error (by rw [headerToBuild, optCheck_error hcheck])
  have hbuild := headerToBuild_of_canEncode henc hd
  rw [← headerLen_eq]
  refine ⟨fun hsize => ?_, fun hsize hroom => ?_, fun hsize hroom => ?_⟩
  · exact exec_optHbld_of_error (by rw [hbuild, if_pos hsize])
  · exact exec_optHbld_of_error (by rw [hbuild, if_neg (not_not_intro hsize), if_pos (hsize ▸ hroom)])
  · obtain ⟨hstate, hcursor, hbytes, hframe⟩ :=
      writeAtCursor_spec (optHeader d s.arg1.toNat) s (by rw [length_optHeader]; omega)
    rw [length_optHeader, ← hsize] at hstate hcursor hbytes hframe
    rw [BitVec.ofNat_toNat, BitVec.setWidth_eq] at hstate
    exact ⟨_, exec_optHbld_of_canEncode hd henc hsize (by omega), hstate, hcursor, hbytes, hframe⟩

/-! ### `ADD_OPT` (R210, R212) -/

theorem exec_addOpt_of_error {s : State} {e : Err} (h : optionToAdd s = .error e) :
    exec .addOpt s = .next (raise e s) := by
  simp only [exec, execAddOpt, h, finishAppend]

theorem exec_addOpt_of_ok {s : State} {bs : List Byte} (h : optionToAdd s = .ok bs) :
    exec .addOpt s = .next (appendBytes bs s) := by
  simp only [exec, execAddOpt, h, finishAppend]

/-- A chain that reaches the end or the marker is what `Walk()` answers. -/
theorem walk_of_chain {s : State} {p0 n e last : Nat} (hprefix : HasPrefix s p0) (hchain : ChainTo s p0 n e last)
    (hstop : AtEnd s e ∨ AtMarker s e) : ∃ stop, walk s = .ok ⟨n, e, last, stop⟩ := by
  obtain hend | hmarker := hstop
  · exact ⟨_, walk_atEnd hprefix hchain hend⟩
  · exact ⟨_, walk_atMarker hprefix hchain hmarker⟩

theorem optionToAdd_of_cannotEncode {s : State} {n e prev : Nat} {stop : Stop} {err : Err}
    (hwalk : walk s = .ok ⟨n, e, prev, stop⟩) (hcheck : CannotEncode s.arg0.toNat s.arg1.toNat prev err) :
    optionToAdd s = .error err := by
  simp only [optionToAdd, hwalk, optCheck_error hcheck]

/-- After the walk and the option check, the room comes before the marker (R212). -/
theorem optionToAdd_of_canEncode {s : State} {n e prev d : Nat} {stop : Stop} (hwalk : walk s = .ok ⟨n, e, prev, stop⟩)
    (henc : CanEncode s.arg0.toNat s.arg1.toNat prev) (hd : d = s.arg0.toNat - prev) :
    optionToAdd s =
      if 1460 < e + headerLenOf d s.arg1.toNat + s.arg1.toNat then .error .insufficientBuffer
      else if e ≠ s.len.toNat then .error .invalidPacket
      else .ok (optHeader d s.arg1.toNat ++ valBytes s s.arg1.toNat) := by
  simp only [optionToAdd, hwalk, optCheck_ok henc, ← hd, maxBuf_eq, gt_iff_lt, headerLen_eq]

/-- Settles O27: the walk, the option check, the room and the marker are tested in this order. -/
theorem addOptErrorsInOrder : Obligations.AddOptErrorsInOrder := by
  intro s p0 n e prev hprefix hchain
  refine ⟨fun hmalformed => ?_, fun hstop => ?_⟩
  · exact exec_addOpt_of_error (by rw [optionToAdd, walk_malformed hprefix hchain hmalformed])
  · obtain ⟨stop, hwalk⟩ := walk_of_chain hprefix hchain hstop
    refine ⟨fun err hcheck => exec_addOpt_of_error (optionToAdd_of_cannotEncode hwalk hcheck), fun henc => ?_⟩
    have hadd := optionToAdd_of_canEncode hwalk henc rfl
    refine ⟨fun hroom => exec_addOpt_of_error ?_, fun hroom hmarker => exec_addOpt_of_error ?_⟩
    · rw [hadd, if_pos hroom]
    · rw [hadd, if_neg (Nat.not_lt.mpr hroom), if_pos hmarker]

/-- Settles O26: the header and the value are appended, so the header stands at the old `LEN` and the value after it. -/
theorem addOptAppendsOption : Obligations.AddOptAppendsOption := by
  intro s p0 n prev hl hprefix hchain henc hhl hroom
  obtain ⟨d, hd⟩ : ∃ d, d = s.arg0.toNat - prev := ⟨_, rfl⟩
  rw [← hd] at hhl ⊢
  obtain ⟨bs, hbs⟩ : ∃ bs, bs = optHeader d s.arg1.toNat ++ valBytes s s.arg1.toNat := ⟨_, rfl⟩
  have hheader : (optHeader d s.arg1.toNat).length = hl := by rw [length_optHeader, hhl, headerLen_eq]
  have hsize : bs.length = hl + s.arg1.toNat := by rw [hbs, List.length_append, hheader, length_valBytes]
  have hadd : optionToAdd s = .ok bs := by
    rw [optionToAdd_of_canEncode (walk_atEnd hprefix hchain rfl) henc hd, ← hhl,
      if_neg (Nat.not_lt.mpr hroom), if_neg (not_not_intro rfl), hbs]
  obtain ⟨hstate, hlen, hbytes, hframe⟩ := appendBytes_spec bs s (by rw [hsize, maxBuf_eq]; omega)
  rw [hsize, ← Nat.add_assoc] at hstate hlen hframe
  refine ⟨_, exec_addOpt_of_ok hadd, hstate, hlen, fun k hk => ?_, fun k hk => ?_, hframe⟩
  · rw [← hbytes k (by omega), hbs, List.getElem?_append_left (by omega)]
  · have hbyte := hbytes (hl + k) (by omega)
    rw [hbs, List.getElem?_append_right (by omega), hheader, Nat.add_sub_cancel_left, getElem?_valBytes s hk,
      ← hbs] at hbyte
    rw [Nat.add_assoc, ← Option.some.inj hbyte]

/-! ### An added option reads back (R213) -/

/-- `ADD_OPT` succeeds only after a chain that runs to `LEN`, with an encodable option that fits. -/
theorem chain_of_addOpt_success {s t : State} (h : exec .addOpt s = .next t) (herr : t.status.err = none) :
    ∃ p0 n prev, HasPrefix s p0 ∧ ChainTo s p0 n s.len.toNat prev ∧ CanEncode s.arg0.toNat s.arg1.toNat prev ∧
      s.len.toNat + headerLenOf (s.arg0.toNat - prev) s.arg1.toNat + s.arg1.toNat ≤ 1460 := by
  have hno : ∀ e, exec .addOpt s ≠ .next (raise e s) := by
    intro e hraise
    rw [hraise] at h
    cases h
    cases herr
  cases hwalk : walk s with
  | error e => exact absurd (exec_addOpt_of_error (by rw [optionToAdd, hwalk])) (hno e)
  | ok w =>
    obtain ⟨p0, hprefix, hchain, hstop⟩ := walk_ok hwalk
    obtain ⟨-, hends⟩ := addOptErrorsInOrder s p0 _ _ _ hprefix hchain
    obtain ⟨hcheck, hrest⟩ := hends (hstop.imp And.right And.right)
    obtain henc | ⟨e, hcannot⟩ := encodable_cases s.arg0.toNat s.arg1.toNat w.lastNum
    · obtain ⟨hroom, hmarker⟩ := hrest henc
      have hfits := Nat.not_lt.mp fun hlt => hno _ (hroom hlt)
      have hend : w.endPos = s.len.toNat := by
        by_contra hne
        exact hno _ (hmarker hfits hne)
      rw [hend] at hchain hfits
      exact ⟨p0, _, _, hprefix, hchain, henc, hfits⟩
    · exact absurd (hcheck e hcannot) (hno e)

/-- A message that grows keeps its prefix. -/
theorem HasPrefix.mono {s t : State} {p0 : Nat} (h : HasPrefix s p0)
    (hb : ∀ a, a < s.len.toNat → t.bufByte a = s.bufByte a) (hl : s.len.toNat ≤ t.len.toNat)
    (hmax : t.len.toNat ≤ 1460) : HasPrefix t p0 := by
  obtain ⟨-, htkl, hp0, hstart⟩ := h
  have hbyte : t.bufByte 0 = s.bufByte 0 := hb 0 (by omega)
  exact ⟨hmax, by rwa [hbyte], by rwa [hbyte], by omega⟩

/-- After a successful `ADD_OPT` the chain of the old message stands in the new one, and the option added is the one item
after it. -/
theorem addOpt_extends_chain {s t : State} (h : exec .addOpt s = .next t) (herr : t.status.err = none) :
    ∃ p0 n prev, HasPrefix s p0 ∧ ChainTo s p0 n s.len.toNat prev ∧ HasPrefix t p0 ∧ ChainTo t p0 n s.len.toNat prev ∧
      AtItem t s.len.toNat ∧ prev + deltaAt t s.len.toNat = s.arg0.toNat ∧ lengthAt t s.len.toNat = s.arg1.toNat ∧
      valueStart t s.len.toNat + s.arg1.toNat = t.len.toNat := by
  obtain ⟨p0, n, prev, hprefix, hchain, henc, hroom⟩ := chain_of_addOpt_success h herr
  obtain ⟨_, hexec, -, hlen, hbytes, -, hframe⟩ := addOptAppendsOption s p0 n prev _ hprefix hchain henc rfl hroom
  cases h.symm.trans hexec
  have hbefore : ∀ a, a < s.len.toNat → t.bufByte a = s.bufByte a := fun a ha => hframe a (.inl ha)
  obtain ⟨hle, -, hd, hl⟩ := henc
  obtain ⟨-, hstart, hdelta, hlength⟩ := header_read hd hl hbytes
  exact ⟨p0, n, prev, hprefix, hchain, hprefix.mono hbefore (by omega) (by omega), ChainTo_mono hbefore (by omega) hchain,
    atItem_of_header hd hl hbytes hlen.ge, by omega, hlength, by rw [hstart, headerLen_eq, hlen]⟩

/-- Settles O28: the new chain is one entry longer and ends at `LEN`, and the old count is the index of its last entry. -/
theorem addedOptionReadsBack : Obligations.AddedOptionReadsBack := by
  intro s t hexec herr
  obtain ⟨p0, n, prev, hprefix, hchain, hprefix', hchain', hitem, hnumber, hlength, hend⟩ :=
    addOpt_extends_chain hexec herr
  obtain ⟨hcount, -⟩ := cntOptCountsTheChain s p0 n _ _ hprefix hchain
  obtain ⟨hcount', -⟩ := cntOptCountsTheChain t p0 _ _ _ hprefix' (hchain'.item hitem)
  refine ⟨_, _, hcount (.inl rfl), hcount' (.inl (by rw [hlength, hend])), rfl, rfl, BitVec.ofNat_add n 1, ?_⟩
  have hn : n < 2 ^ 32 := by
    obtain ⟨hmax, -, -, hstart⟩ := hprefix
    obtain ⟨hbytes, hinside⟩ := hchain.bounds hstart
    omega
  have hread : exec .getOpt { t with arg0 := toWord n } = .next ({ t with arg0 := toWord n }.doneWith
      (BitVec.ofNat 32 (prev + deltaAt t s.len.toNat)) (BitVec.ofNat 32 (valueStart t s.len.toNat))
      (BitVec.ofNat 32 (lengthAt t s.len.toNat))) := by
    obtain ⟨hinside, -⟩ := getOptFetchesByIndex _ p0 n _ _ (hprefix'.arg0 (toWord n)) (hchain'.arg0 _)
    exact hinside (toNat_toWord hn).symm hitem
  have hvalue : valueStart t s.len.toNat = t.len.toNat - s.arg1.toNat := by omega
  rw [hnumber, hvalue, hlength, BitVec.ofNat_toNat, BitVec.ofNat_toNat, BitVec.setWidth_eq, BitVec.setWidth_eq] at hread
  exact hread

end Sys2Proof.Machine
end

section
/-! PROOFS. The payload (44_payload.md R231 to R237): `GET_PAYLOAD` answers from the walk and the option count, `SET_PAYLOAD` appends
the marker and the staged bytes, and what it appended reads back and closes the frame. -/

namespace Sys2Proof.Machine

/-! ### `GET_PAYLOAD` (R231, R232) -/

theorem exec_getPayload_of_ok {s : State} {r : Results} (h : payloadResults s = .ok r) :
    exec .getPayload s = .next (complete r s) := by
  simp only [exec, execGetPayload, h, finish]

theorem exec_getPayload_of_error {s : State} {e : Err} (h : payloadResults s = .error e) :
    exec .getPayload s = .next (raise e s) := by
  simp only [exec, execGetPayload, h, finish]

theorem payloadResults_of_count_ne {s : State} {w : WalkResult} (hwalk : walk s = .ok w)
    (hcount : w.count ≠ s.arg0.toNat) : payloadResults s = .error .invalidPacket := by
  simp only [payloadResults, hwalk, if_pos hcount]

/-- With the right count, no payload is a view of no bytes at `LEN` (R231). -/
theorem payloadResults_atEnd {s : State} {n e last : Nat} (hwalk : walk s = .ok ⟨n, e, last, .atEnd⟩)
    (hcount : n = s.arg0.toNat) : payloadResults s = .ok ⟨0, toWord s.len.toNat, 0⟩ := by
  simp only [payloadResults, hwalk, if_neg (not_not_intro hcount)]

/-- With the right count, the payload is the rest of the message after the marker (R231). -/
theorem payloadResults_atMarker {s : State} {n e last : Nat} (hwalk : walk s = .ok ⟨n, e, last, .atMarker⟩)
    (hcount : n = s.arg0.toNat) :
    payloadResults s = .ok ⟨toWord (s.len.toNat - e - 1), toWord (e + 1), 0⟩ := by
  simp only [payloadResults, hwalk, if_neg (not_not_intro hcount)]

/-- Settles O29: the walk's error comes first, then the option count, then the view by what the walk stopped at. -/
theorem getPayloadLocatesPayload : Obligations.GetPayloadLocatesPayload := by
  intro s p0 n e last hprefix hchain
  refine ⟨fun hmalformed => ?_, fun hstop hcount => ?_, fun hend hcount => ?_, fun hmarker hcount => ?_⟩
  · exact exec_getPayload_of_error (by rw [payloadResults, walk_malformed hprefix hchain hmalformed])
  · obtain ⟨stop, hwalk⟩ := walk_of_chain hprefix hchain hstop
    exact exec_getPayload_of_error (payloadResults_of_count_ne hwalk hcount)
  · exact exec_getPayload_of_ok (payloadResults_atEnd (walk_atEnd hprefix hchain hend) hcount)
  · exact exec_getPayload_of_ok (payloadResults_atMarker (walk_atMarker hprefix hchain hmarker) hcount)

/-! ### `SET_PAYLOAD` (R235, R236) -/

theorem exec_setPayload_of_ok {s : State} {bs : List Byte} (h : payloadToSet s = .ok bs) :
    exec .setPayload s = .next (appendBytes bs s) := by
  simp only [exec, execSetPayload, h, finishAppend]

theorem exec_setPayload_of_error {s : State} {e : Err} (h : payloadToSet s = .error e) :
    exec .setPayload s = .next (raise e s) := by
  simp only [exec, execSetPayload, h, finishAppend]

/-- The length of the payload is tested before the message is looked at (R236). -/
theorem payloadToSet_of_zero {s : State} (h : s.arg0.toNat = 0) : payloadToSet s = .error .invalidPayload := if_pos h

theorem payloadToSet_of_walk_error {s : State} {err : Err} (harg : s.arg0.toNat ≠ 0) (hwalk : walk s = .error err) :
    payloadToSet s = .error err := by
  simp only [payloadToSet, if_neg harg, hwalk]

theorem payloadToSet_atMarker {s : State} {n e last : Nat} (harg : s.arg0.toNat ≠ 0)
    (hwalk : walk s = .ok ⟨n, e, last, .atMarker⟩) : payloadToSet s = .error .invalidPacket := by
  simp only [payloadToSet, if_neg harg, hwalk, if_true]

/-- Without a payload yet, the room is what is left to test (R236). -/
theorem payloadToSet_atEnd {s : State} {n e last : Nat} (harg : s.arg0.toNat ≠ 0)
    (hwalk : walk s = .ok ⟨n, e, last, .atEnd⟩) :
    payloadToSet s =
      if 1460 < s.len.toNat + 1 + s.arg0.toNat then .error .insufficientBuffer
      else .ok (Config.marker :: valBytes s s.arg0.toNat) := by
  simp only [payloadToSet, if_neg harg, hwalk, maxBuf_eq, gt_iff_lt, reduceCtorEq, if_false]

/-- Settles O31: the payload's length, the walk, the marker and the room are tested in this order. -/
theorem setPayloadErrorsInOrder : Obligations.SetPayloadErrorsInOrder := by
  refine fun s => ⟨fun harg => exec_setPayload_of_error (payloadToSet_of_zero harg),
    fun p0 n e last harg hprefix hchain => ⟨fun hmalformed => ?_, fun hmarker => ?_, fun hend hroom => ?_⟩⟩
  · exact exec_setPayload_of_error (payloadToSet_of_walk_error harg (walk_malformed hprefix hchain hmalformed))
  · exact exec_setPayload_of_error (payloadToSet_atMarker harg (walk_atMarker hprefix hchain hmarker))
  · exact exec_setPayload_of_error (by rw [payloadToSet_atEnd harg (walk_atEnd hprefix hchain hend), if_pos hroom])

/-- Settles O30: what is appended is the marker, which stands at the old `LEN`, and the staged bytes after it. -/
theorem setPayloadAppendsPayload : Obligations.SetPayloadAppendsPayload := by
  intro s p0 n last hprefix hchain harg hroom
  obtain ⟨bs, hbs⟩ : ∃ bs, bs = Config.marker :: valBytes s s.arg0.toNat := ⟨_, rfl⟩
  have hsize : bs.length = 1 + s.arg0.toNat := by rw [hbs, List.length_cons, length_valBytes, Nat.add_comm]
  have hset : payloadToSet s = .ok bs := by
    rw [payloadToSet_atEnd harg (walk_atEnd hprefix hchain rfl), if_neg (Nat.not_lt.mpr hroom), hbs]
  obtain ⟨hstate, hlen, hbytes, hframe⟩ := appendBytes_spec bs s (by rw [hsize, maxBuf_eq]; omega)
  rw [hsize, ← Nat.add_assoc] at hstate hlen hframe
  refine ⟨_, exec_setPayload_of_ok hset, hstate, hlen, ?_, fun k hk => ?_, hframe⟩
  · have hbyte := hbytes 0 (by omega)
    rw [hbs, List.getElem?_cons_zero, ← hbs] at hbyte
    exact (Option.some.inj hbyte).symm
  · have hbyte := hbytes (1 + k) (by omega)
    rw [hbs, Nat.add_comm 1 k, List.getElem?_cons_succ, getElem?_valBytes s hk, ← hbs] at hbyte
    rw [Nat.add_assoc, Nat.add_comm 1 k, ← Option.some.inj hbyte]

/-! ### A payload that was set (R237, R323) -/

/-- A command that ended without an error did not raise one. -/
theorem exec_ne_raise {i : Instr} {s t : State} (h : exec i s = .next t) (herr : t.status.err = none) (e : Err) :
    exec i s ≠ .next (raise e s) := by
  intro hraise
  rw [hraise] at h
  cases h
  cases herr

/-- `SET_PAYLOAD` succeeds only after a chain that runs to `LEN`, with a payload of at least one byte that fits. -/
theorem chain_of_setPayload_success {s t : State} (h : exec .setPayload s = .next t) (herr : t.status.err = none) :
    ∃ p0 n last, HasPrefix s p0 ∧ ChainTo s p0 n s.len.toNat last ∧ s.arg0.toNat ≠ 0 ∧
      s.len.toNat + 1 + s.arg0.toNat ≤ 1460 := by
  have hno := exec_ne_raise h herr
  obtain ⟨hempty, hrest⟩ := setPayloadErrorsInOrder s
  have harg : s.arg0.toNat ≠ 0 := fun hzero => hno _ (hempty hzero)
  cases hwalk : walk s with
  | error e => exact absurd (exec_setPayload_of_error (payloadToSet_of_walk_error harg hwalk)) (hno e)
  | ok w =>
    obtain ⟨p0, hprefix, hchain, hstop⟩ := walk_ok hwalk
    obtain ⟨-, hmarker, hroom⟩ := hrest p0 _ _ _ harg hprefix hchain
    obtain ⟨-, hend⟩ | ⟨-, hatMarker⟩ := hstop
    · have hfits := Nat.not_lt.mp fun hlt => hno _ (hroom hend hlt)
      rw [hend] at hchain
      exact ⟨p0, _, _, hprefix, hchain, harg, hfits⟩
    · exact absurd (hmarker hatMarker) (hno _)

/-- After a successful `SET_PAYLOAD` the chain of the old message stands in the new one and reaches the marker. -/
theorem setPayload_keeps_chain {s t : State} (h : exec .setPayload s = .next t) (herr : t.status.err = none) :
    ∃ p0 n last, HasPrefix s p0 ∧ ChainTo s p0 n s.len.toNat last ∧ HasPrefix t p0 ∧ ChainTo t p0 n s.len.toNat last ∧
      AtMarker t s.len.toNat ∧ t.len.toNat = s.len.toNat + 1 + s.arg0.toNat := by
  obtain ⟨p0, n, last, hprefix, hchain, harg, hroom⟩ := chain_of_setPayload_success h herr
  obtain ⟨_, hexec, -, hlen, hmarker, -, hframe⟩ := setPayloadAppendsPayload s p0 n last hprefix hchain harg hroom
  cases h.symm.trans hexec
  have hbefore : ∀ a, a < s.len.toNat → t.bufByte a = s.bufByte a := fun a ha => hframe a (.inl ha)
  exact ⟨p0, n, last, hprefix, hchain, hprefix.mono hbefore (by omega) (by omega), ChainTo_mono hbefore (by omega) hchain,
    ⟨by omega, hmarker⟩, hlen⟩

/-- Where the chain reaches the marker, `ADD_OPT` fails: the option cannot be encoded, or has no room, or would come after the
marker (R212, R323). -/
theorem exec_addOpt_atMarker {s : State} {p0 n e last : Nat} (hprefix : HasPrefix s p0) (hchain : ChainTo s p0 n e last)
    (hmarker : AtMarker s e) : ∃ err, exec .addOpt s = .next (s.failedWith err) := by
  obtain ⟨-, hends⟩ := addOptErrorsInOrder s p0 n e last hprefix hchain
  obtain ⟨hcheck, hrest⟩ := hends (.inr hmarker)
  obtain henc | ⟨err, hcannot⟩ := encodable_cases s.arg0.toNat s.arg1.toNat last
  · obtain ⟨hroom, hclosed⟩ := hrest henc
    obtain hfull | hfits := Nat.lt_or_ge 1460 (e + headerLenOf (s.arg0.toNat - last) s.arg1.toNat + s.arg1.toNat)
    · exact ⟨_, hroom hfull⟩
    · exact ⟨_, hclosed hfits hmarker.1.ne⟩
  · exact ⟨err, hcheck err hcannot⟩

/-- A result register holds the length of a chain. -/
theorem ChainTo.toNat_toWord_count {s : State} {p0 n e last : Nat} (h : ChainTo s p0 n e last) (hprefix : HasPrefix s p0) :
    (toWord n).toNat = n := by
  obtain ⟨hmax, -, -, hstart⟩ := hprefix
  obtain ⟨hbytes, hinside⟩ := h.bounds hstart
  exact toNat_toWord (by omega)

/-- Settles O32: the chain is the old one and stops at the marker, which every later command finds. -/
theorem setPayloadReadsBack : Obligations.SetPayloadReadsBack := by
  intro s t hexec herr
  obtain ⟨p0, n, last, hprefix, hchain, hprefix', hchain', hmarker, hlen⟩ := setPayload_keeps_chain hexec herr
  obtain ⟨hcount, -⟩ := cntOptCountsTheChain s p0 n _ _ hprefix hchain
  obtain ⟨hcount', -⟩ := cntOptCountsTheChain t p0 n _ _ hprefix' hchain'
  refine ⟨_, hcount (.inl rfl), rfl, hcount' (.inr hmarker), ?_, fun w hw => ?_, fun num vlen => ?_⟩
  · obtain ⟨-, -, -, hview⟩ := getPayloadLocatesPayload _ p0 n _ _ (hprefix'.arg0 (toWord n)) (hchain'.arg0 _)
    have hread := hview hmarker (hchain.toNat_toWord_count hprefix).symm
    have hsize : t.len.toNat - s.len.toNat - 1 = s.arg0.toNat := by omega
    rw [hsize, BitVec.ofNat_toNat, BitVec.setWidth_eq] at hread
    exact hread
  · obtain ⟨-, hrest⟩ := setPayloadErrorsInOrder { t with arg0 := w }
    obtain ⟨-, hclosed, -⟩ := hrest p0 n _ _ hw (hprefix'.arg0 w) (hchain'.arg0 w)
    exact hclosed hmarker
  · exact exec_addOpt_atMarker (s := { t with arg0 := num, arg1 := vlen }) hprefix'
      (ChainTo_mono (s := t) (fun _ _ => rfl) le_rfl hchain') hmarker

end Sys2Proof.Machine
end

section
/-! PROOFS. The packet validator (45_validator.md R250 to R256): where each stage of the FSM goes on or stops, what stage `V_OPT` does
along a chain of options, and what `VSTATE` tells of the outcome. -/

namespace Sys2Proof.Machine

/-! ### The outcome from the verdict (R251) -/

theorem exec_validate_of_accept {s : State} {n : Nat} (h : stageVer s = .accept n) :
    exec .validate s = .next { s.doneWith (toWord n) 0 0 with vstate := ⟨.vOk, 0⟩ } := by
  simp only [exec, execValidate, h]
  rfl

theorem exec_validate_of_stop {s : State} {e : Err} {st : Stage} {i : Nat} (h : stageVer s = .stop e st i) :
    exec .validate s = .next { s.failedWith e with vstate := ⟨st, BitVec.ofNat 16 i⟩ } := by
  simp only [exec, execValidate, h]
  rfl

/-- Settles O35: the FSM is accepted in `V_OK`, stopped before `V_OPT` at index 0, or stopped in `V_OPT` at a reserved option. -/
theorem validateStageTellsOutcome : Obligations.ValidateStageTellsOutcome := by
  intro s t hexec
  obtain ⟨n, hv⟩ | ⟨e, st, hv, hst, -⟩ | ⟨i, hv, -, -⟩ := stageVer_cases s
  · cases hexec.symm.trans (exec_validate_of_accept hv)
    exact ⟨⟨fun _ => rfl, fun _ => rfl⟩, nofun, fun _ => rfl, nofun, nofun⟩
  · cases hexec.symm.trans (exec_validate_of_stop hv)
    simp only [List.mem_cons, List.not_mem_nil, or_false, not_or] at hst
    obtain ⟨hidle, htype, hopt, hok⟩ := hst
    exact ⟨⟨nofun, fun h => absurd h hok⟩, fun h => absurd h hopt, fun _ => rfl, hidle, htype⟩
  · cases hexec.symm.trans (exec_validate_of_stop hv)
    exact ⟨⟨nofun, nofun⟩, fun _ => rfl, fun h => absurd rfl h, nofun, nofun⟩

/-! ### From one stage to the next (R250, R253) -/

theorem stageVer_of_length_error {s : State} {e : Err} (h : hdrCheck s = .error e) : stageVer s = .stop e .vVer 0 := by
  simp only [stageVer, h]

/-- With the length in range the version is what is left to test; the type cannot fail (C5). -/
theorem stageVer_of_length {s : State} (hmin : 4 ≤ s.len.toNat) (hmax : s.len.toNat ≤ 1460) :
    stageVer s = if verField (s.bufByte 0) = 1 then stageTkl s else .stop .invalidVersion .vVer 0 := by
  simp only [stageVer, stageType, hdrCheck_ok hmin hmax, toNat_eq_version_iff]

theorem stageTkl_of_long {s : State} (h : 8 < (tklField (s.bufByte 0)).toNat) :
    stageTkl s = .stop .invalidTokenLength .vTkl 0 := if_pos h

theorem stageTkl_of_le {s : State} (h : (tklField (s.bufByte 0)).toNat ≤ 8) : stageTkl s = stageCode s :=
  if_neg (Nat.not_lt.mpr h)

theorem stageCode_of_known {s : State} (h : Config.codeSet (s.bufByte 1) = true) : stageCode s = stagePrefix s := if_pos h

theorem stageCode_of_unknown {s : State} (h : ¬ Config.codeSet (s.bufByte 1) = true) :
    stageCode s = .stop .unknownCode .vCode 0 := if_neg h

theorem stagePrefix_of_eq {s : State} (h : s.len.toNat = 4 + (tklField (s.bufByte 0)).toNat) :
    stagePrefix s = .accept 0 := if_pos h

theorem stagePrefix_of_lt {s : State} (h : s.len.toNat < 4 + (tklField (s.bufByte 0)).toNat) :
    stagePrefix s = .stop .invalidPacket .vPrefix 0 := by
  rw [stagePrefix, if_neg h.ne, if_pos h]

theorem stagePrefix_of_gt {s : State} (h : 4 + (tklField (s.bufByte 0)).toNat < s.len.toNat) :
    stagePrefix s = stageCount s := by
  rw [stagePrefix, if_neg h.ne', if_neg h.not_gt]

/-- Settles O33: the stages test the length, the version, the token length, the code and the room for the token in this order. -/
theorem validateHeaderStages : Obligations.ValidateHeaderStages := by
  intro s
  refine ⟨fun hlong => ?_, fun hshort => ?_, fun hmin hmax => ?_⟩
  · exact exec_validate_of_stop (stageVer_of_length_error (hdrCheck_long hlong))
  · exact exec_validate_of_stop (stageVer_of_length_error (hdrCheck_short hshort))
  have hver := stageVer_of_length hmin hmax
  refine ⟨fun hversion => ?_, fun hversion htkl => ?_, fun hversion htkl => ?_⟩
  · exact exec_validate_of_stop (hver.trans (if_neg hversion))
  · rw [if_pos hversion, stageTkl_of_long htkl] at hver
    exact exec_validate_of_stop hver
  rw [if_pos hversion, stageTkl_of_le htkl] at hver
  refine ⟨?_, fun hcode hlt => ?_, fun hcode heq => ?_⟩
  · by_cases hcode : Config.codeSet (s.bufByte 1) = true
    · exact .inl hcode
    · exact .inr (exec_validate_of_stop (hver.trans (stageCode_of_unknown hcode)))
  · exact exec_validate_of_stop (hver.trans ((stageCode_of_known hcode).trans (stagePrefix_of_lt hlt)))
  · exact exec_validate_of_accept (hver.trans ((stageCode_of_known hcode).trans (stagePrefix_of_eq heq)))

/-! ### The options (R250, R253) -/

/-- A message longer than header and token, with a right version and a known code, comes to stage `V_COUNT`. -/
theorem stageVer_eq_stageCount {s : State} {p0 : Nat} (hprefix : HasPrefix s p0) (hlong : p0 < s.len.toNat)
    (hversion : verField (s.bufByte 0) = 1) (hcode : Config.codeSet (s.bufByte 1) = true) : stageVer s = stageCount s := by
  obtain ⟨hmax, htkl, rfl, -⟩ := hprefix
  rw [stageVer_of_length (by omega) hmax, if_pos hversion, stageTkl_of_le htkl, stageCode_of_known hcode,
    stagePrefix_of_gt hlong]

theorem stageCount_of_error {s : State} {e : Err} (h : walk s = .error e) : stageCount s = .stop e .vCount 0 := by
  simp only [stageCount, h]

theorem stageCount_of_ok {s : State} {w : WalkResult} (h : walk s = .ok w) : stageCount s = stageOpt s w.count w.count 0 := by
  simp only [stageCount, h]

theorem stageOpt_of_free {s : State} {v : OptView} {i : Nat} (hopt : optAt s i = .ok v) (hfree : v.number ∉ reservedNumbers)
    (N todo : Nat) : stageOpt s N (todo + 1) i = stageOpt s N todo (i + 1) := by
  simp only [stageOpt, hopt, (isReserved_false _).mpr hfree, Bool.false_eq_true, if_false]

theorem stageOpt_of_reserved {s : State} {v : OptView} {i : Nat} (hopt : optAt s i = .ok v)
    (hreserved : v.number ∈ reservedNumbers) (N todo : Nat) :
    stageOpt s N (todo + 1) i = .stop .invalidOption .vOpt i := by
  simp only [stageOpt, hopt, (isReserved_iff _).mpr hreserved, if_true]

section Chain

variable {s : State} {p0 n e last : Nat} (hprefix : HasPrefix s p0) (hchain : ChainTo s p0 n e last)
include hprefix hchain

/-- Stage `V_OPT` passes the first `k` options of a chain if none of them has a reserved number. -/
theorem stageOpt_passes {k : Nat} (hk : k ≤ n)
    (hfree : ∀ j pos num, j < k → ChainTo s p0 (j + 1) pos num → num ∉ reservedNumbers) (N todo : Nat) :
    stageOpt s N (todo + k) 0 = stageOpt s N todo k := by
  induction k generalizing todo with
  | zero => rfl
  | succ k ih =>
    obtain ⟨pos, v, hopt, hnumber⟩ := optAt_number hprefix hchain hk
    have hnot : v.number ∉ reservedNumbers := hfree k pos _ k.lt_succ_self hnumber
    calc stageOpt s N (todo + (k + 1)) 0
      _ = stageOpt s N (todo + 1 + k) 0 := by rw [Nat.add_right_comm, Nat.add_assoc]
      _ = stageOpt s N (todo + 1) k :=
        ih (Nat.le_of_succ_le hk) (fun j pos num hj => hfree j pos num (Nat.lt_succ_of_lt hj)) (todo + 1)
      _ = stageOpt s N todo (k + 1) := stageOpt_of_free hopt hnot N todo

theorem stageOpt_accepts (hfree : ∀ j pos num, j < n → ChainTo s p0 (j + 1) pos num → num ∉ reservedNumbers) (N : Nat) :
    stageOpt s N n 0 = .accept N := by
  rw [← Nat.zero_add n, stageOpt_passes hprefix hchain le_rfl hfree, stageOpt]

/-- Stage `V_OPT` stops at the lowest index whose number is reserved. -/
theorem stageOpt_stops {i pos num : Nat} (hi : i < n) (hnumber : ChainTo s p0 (i + 1) pos num)
    (hreserved : num ∈ reservedNumbers)
    (hfree : ∀ j pos num, j < i → ChainTo s p0 (j + 1) pos num → num ∉ reservedNumbers) (N : Nat) :
    stageOpt s N n 0 = .stop .invalidOption .vOpt i := by
  obtain ⟨pos', v, hopt, hnumber'⟩ := optAt_number hprefix hchain hi
  obtain ⟨-, rfl⟩ := hnumber.unique hnumber'
  obtain ⟨rest, rfl⟩ : ∃ rest, n = rest + 1 + i := ⟨n - 1 - i, by omega⟩
  rw [stageOpt_passes hprefix hchain hi.le hfree, stageOpt_of_reserved hopt hreserved]

end Chain

/-- Settles O34: the walk finds a malformed entry before any number is looked at, and then the numbers are tested from index 0 on. -/
theorem validateOptionStages : Obligations.ValidateOptionStages := by
  intro s p0 n e last hprefix hlong hversion hcode hchain
  have hver := stageVer_eq_stageCount hprefix hlong hversion hcode
  refine ⟨fun hmalformed => ?_, fun hstop => ?_⟩
  · exact exec_validate_of_stop (hver.trans (stageCount_of_error (walk_malformed hprefix hchain hmalformed)))
  obtain ⟨stop, hwalk⟩ := walk_of_chain hprefix hchain hstop
  rw [stageCount_of_ok hwalk] at hver
  refine ⟨fun hfree => ?_, fun i pos num hi hnumber hreserved hfree => ?_⟩
  · exact exec_validate_of_accept (hver.trans (stageOpt_accepts hprefix hchain hfree n))
  · exact exec_validate_of_stop (hver.trans (stageOpt_stops hprefix hchain hi hnumber hreserved hfree n))

end Sys2Proof.Machine
end

section
/-! PROOFS. The exceptions (60_exceptions.md R282 to R285), read off `Ends`: the three ways an instruction can end with an error, which
errors those are, and what they leave behind. -/

namespace Sys2Proof.Machine

/-! ### Illegal opcodes (R282) -/

/-- Settles O37: the opcode map sends every opcode outside the list to the illegal command, whose meaning is `raise`. -/
theorem illegalOpcodesComplete : Obligations.IllegalOpcodesComplete := by
  intro o s
  refine ⟨fun ho => decodeOpcode_of_not_command ?_, rfl⟩
  simpa using ho

/-! ### Ends with an error (R283, R285) -/

/-- An instruction that ends with an error raises it; or is `GET_CODE`, or header byte 1, and returns the unknown code byte (R134);
or is `VALIDATE` and raises it in the stage that failed (R251). -/
theorem Ends.error_cases {i : Instr} {s t : State} {e : Err} (h : Ends i s t) (herr : t.status.err = some e) :
    (t = raise e s ∧ e ∈ allowedErrors i ∧ i ≠ .validate) ∨
    (∃ c, t = raiseWith .unknownCode (c.zeroExtend 32) s ∧ e = .unknownCode ∧
      ((i = .getCode ∧ c = s.bufByte 1) ∨ i = .wireHdrByte1 c)) ∨
    (∃ st k, t = raise e (enterStage st k s) ∧ e ∈ allowedErrors .validate ∧ i = .validate) := by
  cases h with
  | failed e' hmem hi => cases herr; exact .inl ⟨rfl, hmem, hi⟩
  | unknownCode c hi => cases herr; exact .inr (.inl ⟨c, rfl, rfl, hi⟩)
  | stopped e' st hi hmem => cases herr; exact .inr (.inr ⟨st, 0, rfl, hmem, hi⟩)
  | reserved k hi => cases herr; exact .inr (.inr ⟨.vOpt, k, rfl, by decide, hi⟩)
  | read | accepted | advanced => cases herr
  | wroteByte0 | wroteByte1 | wroteMid | wroteHeader | wroteAtCursor | appended => cases herr

/-- Settles O40: each of the three ways to end with an error gives one of the row of R283. -/
theorem commandsRaiseOnlyTheirErrors : Obligations.CommandsRaiseOnlyTheirErrors := by
  intro i s t e hexec herr
  rcases (ends_of_exec hexec).error_cases herr with ⟨-, hmem, -⟩ | ⟨c, -, rfl, ⟨rfl, -⟩ | rfl⟩ | ⟨st, k, -, hmem, rfl⟩
  · exact hmem
  · simp [allowedErrors]
  · simp [allowedErrors]
  · exact hmem

/-- Settles O39: the three ways to end with an error write `STATUS` and `RES`, and that of `VALIDATE` the stage besides. -/
theorem errorsLeaveNoTrace : Obligations.ErrorsLeaveNoTrace := by
  intro i s t e hcmd hexec herr
  rcases (ends_of_exec hexec).error_cases herr with ⟨rfl, -, -⟩ | ⟨c, rfl, rfl, hi⟩ | ⟨st, k, rfl, -, hi⟩
  · exact ⟨rfl, fun _ => rfl, .inl rfl⟩
  · obtain ⟨rfl, rfl⟩ | rfl := hi
    · exact ⟨rfl, fun _ => rfl, .inr ⟨rfl, rfl, rfl⟩⟩
    · have hformat : Format.hdrByte1 = .cmd := formatOf_command _ hcmd
      cases hformat
  · exact ⟨rfl, fun hne => absurd hi hne, .inl rfl⟩

end Sys2Proof.Machine
end

section
/-! PROOFS. A step while `BUSY` is set (70_reset_and_hazards.md R318, R319): `step_busy` reduces it to the command in flight, and
that command, like every instruction, ends with the pending accesses and `CMD` as they were. -/

namespace Sys2Proof.Machine

/-- An instruction takes none of the pending accesses of the host (R318). -/
theorem Ends.hostIn_eq {i : Instr} {s t : State} (h : Ends i s t) : t.hostIn = s.hostIn := by
  rw [h.frame]

/-- No instruction writes `CMD` (R35). -/
theorem Ends.cmd_eq {i : Instr} {s t : State} (h : Ends i s t) : t.cmd = s.cmd := by
  rw [h.frame]

/-- Settles O46: the step is the command in flight, and no way that a command ends reaches the pending accesses or `CMD`. -/
theorem busyHoldsAccessesOff : Obligations.BusyHoldsAccessesOff := by
  intro s hbusy hreset
  obtain ⟨t, hexec, hends⟩ := exec_ends (decodeOpcode s.cmd) s
  obtain ⟨hdone, hclear⟩ := hends.done
  have hstep : step s = .next t := (step_busy hbusy hreset).trans hexec
  exact ⟨t, hstep, hexec, hends.hostIn_eq, hends.cmd_eq, hdone, hclear⟩

end Sys2Proof.Machine
end
